-- ==== Sys2Proof/Word.lean ====
section
/-! DEFINITION. The two word types of the block and the form in which a transaction reaches its command port
(spec/00_scope.md R7, spec/30_encoding.md R40, R41, R44). -/

namespace Sys2Proof

/-- A byte: 8 bits, unsigned (R7). -/
abbrev Byte := BitVec 8

/-- A word: 32 bits, unsigned, bit 31 its top bit (R7). Words cross the port as values, so they have no
byte order here (R30). -/
abbrev Word := BitVec 32

/-- What is presented to the block in one transaction, still encoded, in one of the three formats of R40.
A command word comes with the payload that is delivered whole with it (R44): its bytes, or its UMP words. -/
inductive Transaction where
  /-- a `CMD32` command word and its payload, bytes and words each in index order (R41, R44) -/
  | cmd32 (w : Word) (bytes : List Byte) (words : List Word)
  /-- one `MIDI8` byte of the legacy byte stream (R45) -/
  | midi8 (b : Byte)
  /-- one `UMP32` word (R48) -/
  | ump32 (w : Word)
  deriving DecidableEq, Repr

end Sys2Proof
end

