-- ==== Sys2Proof/Config.lean ====
section
/-! DEFINITION. The build-time parameters of the block (spec/00_scope.md R5, R6): fixed for the life of the block, changed by
no operation. The spec writes every rule over their names, so the model holds them as data. -/

namespace Sys2Proof

/-- The status values of the three system-common messages that the spec's source names without a value: a parameter of the
block (93_implementation_defined.md U1). Log entry 12. -/
structure StatusTable where
  /-- Quarter-Frame -/
  quarterFrame : Byte
  /-- Song-Position -/
  songPosition : Byte
  /-- Song-Select -/
  songSelect : Byte
  deriving DecidableEq, Repr

/-- The values the spec takes from general knowledge (R46, U1). PRESUMED, log entry 12. -/
def StatusTable.default : StatusTable := { quarterFrame := 0xF1, songPosition := 0xF2, songSelect := 0xF3 }

/-- A system-common status other than system exclusive's start and end, `0xF1..0xF6` (R45, R46). -/
def isNamedSystemCommon (b : Byte) : Bool := decide (0xF0#8 < b) && decide (b < 0xF7#8)

/-- The three values name three messages: different system-common values, none of them system exclusive's start or end
(R45 to R47). DEDUCED, log entry 12. -/
def StatusTable.wf (v : StatusTable) : Bool :=
  isNamedSystemCommon v.quarterFrame && isNamedSystemCommon v.songPosition && isNamedSystemCommon v.songSelect &&
    v.quarterFrame != v.songPosition && v.quarterFrame != v.songSelect && v.songPosition != v.songSelect

/-- The parameters the spec leaves open (R5, D4, D5, U1). `LEN_W` and `WC_W` bound the operands of an operation; the command
word of R41 is the one of `LEN_W = 16` and `WC_W = 12`. -/
structure Config where
  /-- `ARENA_CAP`: number of bytes in the arena, the modulus of every arena offset -/
  arenaCap : Nat
  /-- `INDEX_SLOTS`: number of entries of the index ring, the modulus of `read_pos` and `write_pos` -/
  indexSlots : Nat
  /-- `LEN_W`: width of a length, capacity or count operand (`len`, `cap`, `m`, `byte_count`) -/
  lenW : Nat
  /-- `WC_W`: width of the `word_count` operand of `UMP.DECODE` -/
  wcW : Nat
  /-- the three status values of U1 -/
  status : StatusTable
  deriving DecidableEq, Repr

/-- The defaults of R5 and of U1. -/
def Config.default : Config :=
  { arenaCap := 1024, indexSlots := 32, lenW := 16, wcW := 12, status := StatusTable.default }

/-- The constraints of R6: `ARENA_CAP >= 1`, `INDEX_SLOTS >= 2`, `2^LEN_W - 1 >= ARENA_CAP`; and that of the status
values. -/
def Config.wf (c : Config) : Bool :=
  decide (1 ≤ c.arenaCap) && decide (2 ≤ c.indexSlots) && decide (c.arenaCap ≤ 2 ^ c.lenW - 1) && c.status.wf

/-- `PKT_MAX`: the greatest number of packets the buffer holds at once (R5, R15). -/
def Config.pktMax (c : Config) : Nat := c.indexSlots - 1

/-- `ceil(log2 n)` for `n ≥ 1`. -/
def ceilLog2 (n : Nat) : Nat := if n ≤ 1 then 0 else Nat.log2 (n - 1) + 1

/-- `OFF_W`: width of an arena offset, at least 1 (R5). -/
def Config.offW (c : Config) : Nat := max 1 (ceilLog2 c.arenaCap)

/-- `OCC_W`: width of `buf_len` and of an index entry's `len` (R5). -/
def Config.occW (c : Config) : Nat := ceilLog2 (c.arenaCap + 1)

/-- `POS_W`: width of `read_pos` and `write_pos` (R5). -/
def Config.posW (c : Config) : Nat := ceilLog2 c.indexSlots

end Sys2Proof
end

