-- ==== Sys2Proof/Syntax.lean ====
section
/-! DEFINITION. The instructions: one constructor per row of spec/opcode_table.json, in the table's order. The rows of the
three formats (spec/30_encoding.md R40) are the eleven `CMD32` rows, the eleven `MIDI8` rows and the eleven
`UMP32` rows. An operand is what the row's word leaves open; a command's payload is an operand too (R44), and the
length operand of its word is the payload's length. The number operands are unsigned numbers; how wide they may be is the
parameters' matter (spec/00_scope.md R5), and WellFormed.lean says which fit. -/

namespace Sys2Proof

inductive Instr where
  -- CMD32: the ten operations and the reserved words (R42, R43)
  /-- `CPB.INIT` -/
  | cpbInit
  /-- `CPB.PUSH`: the payload `data[0..len-1]` -/
  | cpbPush (data : List Byte)
  /-- `CPB.POP`: the capacity `cap` of the host's buffer -/
  | cpbPop (cap : Nat)
  /-- `CPB.COUNT` -/
  | cpbCount
  /-- `FRM.RESET` -/
  | frmReset
  /-- `FRM.RESOLVE`: the candidate byte -/
  | frmResolve (b : Byte)
  /-- `FRM.MSGLEN`: the status byte -/
  | frmMsglen (st : Byte)
  /-- `FRM.NEXT`: the payload `s[0..m-1]` -/
  | frmNext (s : List Byte)
  /-- `UMP.DECODE`: the payload `words[0..word_count-1]` and the capacity `cap` -/
  | umpDecode (words : List Word) (cap : Nat)
  /-- `UMP.ENCODE`: the payload `bytes[0..byte_count-1]` -/
  | umpEncode (bytes : List Byte)
  /-- `CMD.RESERVED`: a command word that selects no operation, by its three fields -/
  | cmdReserved (op : BitVec 4) (a : BitVec 12) (b : BitVec 16)
  -- MIDI8: the classes of a byte of the legacy stream (R45, R47)
  /-- `ST.RT`: realtime status `0xF8..0xFF` -/
  | stRt (value : BitVec 3)
  /-- `ST.SYSEX`: system exclusive start `0xF0` -/
  | stSysex
  /-- `ST.QF`: Quarter-Frame -/
  | stQf
  /-- `ST.SPP`: Song-Position -/
  | stSpp
  /-- `ST.SS`: Song-Select -/
  | stSs
  /-- `ST.EOX`: system exclusive end `0xF7` -/
  | stEox
  /-- `ST.SYSCOM.OTHER`: other system common, by the low three bits: `0xF4..0xF6`, where the status values of U1 are the
  default ones of the table's pattern, and in any case what they leave of `0xF1..0xF6` (log entry 12) -/
  | stSyscomOther (value : BitVec 3)
  /-- `ST.CV.PC`: Program-Change `0xCn` -/
  | stCvPc (channel : BitVec 4)
  /-- `ST.CV.CP`: Channel-Pressure `0xDn` -/
  | stCvCp (channel : BitVec 4)
  /-- `ST.CV.OTHER`: the other channel-voice statuses, by kind and channel -/
  | stCvOther (kind channel : BitVec 4)
  /-- `DATA`: a data byte `0x00..0x7F` -/
  | midiData (value : BitVec 7)
  -- UMP32: the classes of a UMP word (R48 to R50)
  /-- `UMP.SYS.QF`: type 1, status Quarter-Frame -/
  | umpSysQf (group : BitVec 4) (b1 b2 : Byte)
  /-- `UMP.SYS.SPP`: type 1, status Song-Position -/
  | umpSysSpp (group : BitVec 4) (b1 b2 : Byte)
  /-- `UMP.SYS.SS`: type 1, status Song-Select -/
  | umpSysSs (group : BitVec 4) (b1 b2 : Byte)
  /-- `UMP.SYS.OTHER`: type 1, any other first byte -/
  | umpSysOther (group : BitVec 4) (b0 b1 b2 : Byte)
  /-- `UMP.CV.PC`: type 2, first byte `0xCn` -/
  | umpCvPc (group channel : BitVec 4) (b1 b2 : Byte)
  /-- `UMP.CV.CP`: type 2, first byte `0xDn` -/
  | umpCvCp (group channel : BitVec 4) (b1 b2 : Byte)
  /-- `UMP.CV.OTHER`: type 2, any other first byte -/
  | umpCvOther (group : BitVec 4) (b0 b1 b2 : Byte)
  /-- `UMP.DATA`: type 3 -/
  | umpData (group : BitVec 4) (b0 b1 b2 : Byte)
  /-- `UMP.RSVD.MT0`: type 0 -/
  | umpRsvdMt0 (group : BitVec 4) (b0 b1 b2 : Byte)
  /-- `UMP.RSVD.MT4_7`: types 4 to 7, by the low two bits of the type -/
  | umpRsvdMt4To7 (mtLow : BitVec 2) (group : BitVec 4) (b0 b1 b2 : Byte)
  /-- `UMP.RSVD.MT8_15`: types 8 to 15, by the low three bits of the type -/
  | umpRsvdMt8To15 (mtLow : BitVec 3) (group : BitVec 4) (b0 b1 b2 : Byte)
  deriving DecidableEq, Repr

end Sys2Proof
end

