-- ==== Sys2Proof/Decode.lean ====
section
/-! DEFINITION. The encodings of spec/30_encoding.md: the fields of a command word (R41), of a MIDI byte (R45) and of a UMP
word (R48); the decoder, total on every transaction and rejecting by name; after it the encoder; then the rows of
spec/opcode_table.json as data; last, the transaction that a bare table word stands for. -/

namespace Sys2Proof

/-! ### Fields -/

/-- `op`, bits 31:28 of a command word (R41). -/
def cmdOp (w : Word) : BitVec 4 := w.extractLsb' 28 4

/-- `a`, bits 27:16 of a command word (R41). -/
def cmdA (w : Word) : BitVec 12 := w.extractLsb' 16 12

/-- `b`, bits 15:0 of a command word (R41). -/
def cmdB (w : Word) : BitVec 16 := w.extractLsb' 0 16

/-- A command word from its fields (R41). -/
def cmdWord (op : BitVec 4) (a : BitVec 12) (b : BitVec 16) : Word := op ++ a ++ b

/-- `b[7:4]`, the top nibble of a byte (R7). -/
def hiNibble (b : Byte) : BitVec 4 := b.extractLsb' 4 4

/-- `b[3:0]`, the low nibble of a byte. -/
def loNibble (b : Byte) : BitVec 4 := b.extractLsb' 0 4

/-- `mt`, bits 31:28 of a UMP word (R48). -/
def umpMt (w : Word) : BitVec 4 := w.extractLsb' 28 4

/-- `group`, bits 27:24 of a UMP word (R48). -/
def umpGroup (w : Word) : BitVec 4 := w.extractLsb' 24 4

/-- `b0`, bits 23:16 of a UMP word, in both directions (R48, R51; 90_conflicts.md C2). -/
def umpB0 (w : Word) : Byte := w.extractLsb' 16 8

/-- `b1`, bits 15:8 of a UMP word (R48, R51). -/
def umpB1 (w : Word) : Byte := w.extractLsb' 8 8

/-- `b2`, bits 7:0 of a UMP word (R48, R51). -/
def umpB2 (w : Word) : Byte := w.extractLsb' 0 8

/-- A UMP word from its fields (R48). -/
def umpWord (mt group : BitVec 4) (b0 b1 b2 : Byte) : Word := mt ++ group ++ b0 ++ b1 ++ b2

/-- System exclusive start (R46). -/
def statusSysex : Byte := 0xF0

/-- System exclusive end (R46). -/
def statusEOX : Byte := 0xF7

/-- Kind nibble of Program-Change, `0xCn` (R46). -/
def kindPC : BitVec 4 := 0xC

/-- Kind nibble of Channel-Pressure, `0xDn` (R46). -/
def kindCP : BitVec 4 := 0xD

/-- Realtime byte `11111xxx` from its low bits (R45). -/
def rtByte (value : BitVec 3) : Byte := 0b11111#5 ++ value

/-- System-common byte `11110xxx` from its low bits (R45; the row `ST.SYSCOM.OTHER`). -/
def syscomByte (value : BitVec 3) : Byte := 0b11110#5 ++ value

/-- Channel-voice byte from kind and channel (R45). -/
def cvByte (kind channel : BitVec 4) : Byte := kind ++ channel

/-- Data byte `0xxxxxxx` (R45). -/
def dataByte (value : BitVec 7) : Byte := 0b0#1 ++ value

/-! ### Decoder -/

/-- Why a transaction is none that the spec gives: its payload is not of the size its operand says (R41, R44). -/
inductive DecodeError where
  /-- the payload has `given` bytes where the command takes `expected` -/
  | byteCount (expected given : Nat)
  /-- the payload has `given` words where the command takes `expected` -/
  | wordCount (expected given : Nat)
  deriving DecidableEq, Repr

/-- Whether the fields of a command word select one of the ten operations (R42); where they do not, the word
is reserved (R43). -/
def cmdSelects (op : BitVec 4) (a : BitVec 12) (b : BitVec 16) : Bool :=
  if op = 0x0 ∨ op = 0x3 ∨ op = 0x4 then a == 0 && b == 0
  else if op = 0x1 ∨ op = 0x2 ∨ op = 0x7 ∨ op = 0x9 then a == 0
  else if op = 0x5 ∨ op = 0x6 then a == 0 && b.extractLsb' 8 8 == 0
  else decide (op = 0x8)

/-- The instruction, where the payload has the size its command takes; otherwise rejected by name (R44).
DESIGN CHOICE, safe: log entry 10. -/
def withPayload (nbytes nwords : Nat) (bytes : List Byte) (words : List Word) (i : Instr) :
    Except DecodeError Instr :=
  if bytes.length ≠ nbytes then .error (.byteCount nbytes bytes.length)
  else if words.length ≠ nwords then .error (.wordCount nwords words.length)
  else .ok i

/-- The operation that the fields of a selecting command word name, with its payload (R42). -/
def decodeOperation (op : BitVec 4) (a : BitVec 12) (b : BitVec 16) (bytes : List Byte)
    (words : List Word) : Except DecodeError Instr :=
  match op with
  | 0x0#4 => withPayload 0 0 bytes words .cpbInit
  | 0x1#4 => withPayload b.toNat 0 bytes words (.cpbPush bytes)
  | 0x2#4 => withPayload 0 0 bytes words (.cpbPop b.toNat)
  | 0x3#4 => withPayload 0 0 bytes words .cpbCount
  | 0x4#4 => withPayload 0 0 bytes words .frmReset
  | 0x5#4 => withPayload 0 0 bytes words (.frmResolve (b.extractLsb' 0 8))
  | 0x6#4 => withPayload 0 0 bytes words (.frmMsglen (b.extractLsb' 0 8))
  | 0x7#4 => withPayload b.toNat 0 bytes words (.frmNext bytes)
  | 0x8#4 => withPayload 0 a.toNat bytes words (.umpDecode words b.toNat)
  | 0x9#4 => withPayload b.toNat 0 bytes words (.umpEncode bytes)
  | _ => .ok (.cmdReserved op a b)

/-- A command word and its payload (R42). A reserved word takes no payload (R43), whatever was presented with
it. -/
def decodeCmd (w : Word) (bytes : List Byte) (words : List Word) : Except DecodeError Instr :=
  if cmdSelects (cmdOp w) (cmdA w) (cmdB w) then
    decodeOperation (cmdOp w) (cmdA w) (cmdB w) bytes words
  else .ok (.cmdReserved (cmdOp w) (cmdA w) (cmdB w))

/-- A byte of the legacy stream (R45, R46), in the priority order of the `MIDI8` rows, in a block with the given status
values. The patterns of the rows are those of the default values; with others, what remains of `0xF1..0xF6` is other system
common (R45, R67): DEDUCED, log entry 12. -/
def decodeMidi (v : StatusTable) (b : Byte) : Instr :=
  if b.extractLsb' 3 5 = 0b11111 then .stRt (b.extractLsb' 0 3)
  else if b = statusSysex then .stSysex
  else if b = v.quarterFrame then .stQf
  else if b = v.songPosition then .stSpp
  else if b = v.songSelect then .stSs
  else if b = statusEOX then .stEox
  else if b.extractLsb' 3 5 = 0b11110 then .stSyscomOther (b.extractLsb' 0 3)
  else if hiNibble b = kindPC then .stCvPc (loNibble b)
  else if hiNibble b = kindCP then .stCvCp (loNibble b)
  else if b.extractLsb' 7 1 = 1 then .stCvOther (hiNibble b) (loNibble b)
  else .midiData (b.extractLsb' 0 7)

/-- A UMP word (R48 to R50), in the priority order of the `UMP32` rows, in a block with the given status values. -/
def decodeUmp (v : StatusTable) (w : Word) : Instr :=
  let g := umpGroup w
  let b0 := umpB0 w
  let b1 := umpB1 w
  let b2 := umpB2 w
  if umpMt w = 1 then
    if b0 = v.quarterFrame then .umpSysQf g b1 b2
    else if b0 = v.songPosition then .umpSysSpp g b1 b2
    else if b0 = v.songSelect then .umpSysSs g b1 b2
    else .umpSysOther g b0 b1 b2
  else if umpMt w = 2 then
    if hiNibble b0 = kindPC then .umpCvPc g (loNibble b0) b1 b2
    else if hiNibble b0 = kindCP then .umpCvCp g (loNibble b0) b1 b2
    else .umpCvOther g b0 b1 b2
  else if umpMt w = 3 then .umpData g b0 b1 b2
  else if umpMt w = 0 then .umpRsvdMt0 g b0 b1 b2
  else if (umpMt w).extractLsb' 3 1 = 0 then .umpRsvdMt4To7 ((umpMt w).extractLsb' 0 2) g b0 b1 b2
  else .umpRsvdMt8To15 ((umpMt w).extractLsb' 0 3) g b0 b1 b2

/-- The decoder: every transaction gives an instruction or is rejected by name (R40: the decoders are total;
only a payload of the wrong size is rejected). The status values are the block's (U1). -/
def decode (v : StatusTable) : Transaction → Except DecodeError Instr
  | .cmd32 w bytes words => decodeCmd w bytes words
  | .midi8 b => .ok (decodeMidi v b)
  | .ump32 w => .ok (decodeUmp v w)

/-! ### Encoder -/

/-- The transaction of a well-formed instruction (R42, R45, R48), in a block with the given status values. -/
def encode (v : StatusTable) : Instr → Transaction
  | .cpbInit => .cmd32 (cmdWord 0x0 0 0) [] []
  | .cpbPush data => .cmd32 (cmdWord 0x1 0 (BitVec.ofNat 16 data.length)) data []
  | .cpbPop cap => .cmd32 (cmdWord 0x2 0 (BitVec.ofNat 16 cap)) [] []
  | .cpbCount => .cmd32 (cmdWord 0x3 0 0) [] []
  | .frmReset => .cmd32 (cmdWord 0x4 0 0) [] []
  | .frmResolve b => .cmd32 (cmdWord 0x5 0 (0#8 ++ b)) [] []
  | .frmMsglen st => .cmd32 (cmdWord 0x6 0 (0#8 ++ st)) [] []
  | .frmNext s => .cmd32 (cmdWord 0x7 0 (BitVec.ofNat 16 s.length)) s []
  | .umpDecode words cap => .cmd32 (cmdWord 0x8 (BitVec.ofNat 12 words.length) (BitVec.ofNat 16 cap)) [] words
  | .umpEncode bytes => .cmd32 (cmdWord 0x9 0 (BitVec.ofNat 16 bytes.length)) bytes []
  | .cmdReserved op a b => .cmd32 (cmdWord op a b) [] []
  | .stRt value => .midi8 (rtByte value)
  | .stSysex => .midi8 statusSysex
  | .stQf => .midi8 v.quarterFrame
  | .stSpp => .midi8 v.songPosition
  | .stSs => .midi8 v.songSelect
  | .stEox => .midi8 statusEOX
  | .stSyscomOther value => .midi8 (syscomByte value)
  | .stCvPc channel => .midi8 (cvByte kindPC channel)
  | .stCvCp channel => .midi8 (cvByte kindCP channel)
  | .stCvOther kind channel => .midi8 (cvByte kind channel)
  | .midiData value => .midi8 (dataByte value)
  | .umpSysQf group b1 b2 => .ump32 (umpWord 1 group v.quarterFrame b1 b2)
  | .umpSysSpp group b1 b2 => .ump32 (umpWord 1 group v.songPosition b1 b2)
  | .umpSysSs group b1 b2 => .ump32 (umpWord 1 group v.songSelect b1 b2)
  | .umpSysOther group b0 b1 b2 => .ump32 (umpWord 1 group b0 b1 b2)
  | .umpCvPc group channel b1 b2 => .ump32 (umpWord 2 group (cvByte kindPC channel) b1 b2)
  | .umpCvCp group channel b1 b2 => .ump32 (umpWord 2 group (cvByte kindCP channel) b1 b2)
  | .umpCvOther group b0 b1 b2 => .ump32 (umpWord 2 group b0 b1 b2)
  | .umpData group b0 b1 b2 => .ump32 (umpWord 3 group b0 b1 b2)
  | .umpRsvdMt0 group b0 b1 b2 => .ump32 (umpWord 0 group b0 b1 b2)
  | .umpRsvdMt4To7 mtLow group b0 b1 b2 => .ump32 (umpWord (0b01#2 ++ mtLow) group b0 b1 b2)
  | .umpRsvdMt8To15 mtLow group b0 b1 b2 => .ump32 (umpWord (0b1#1 ++ mtLow) group b0 b1 b2)

/-! ### The rows of spec/opcode_table.json -/

/-- A row of the table: a word `w` of the row's format selects it when `(w & mask) == match` (R42) and no
earlier row of the format does (the table's priority order). -/
structure TableRow (width : Nat) where
  mnemonic : String
  pattern : BitVec width
  mask : BitVec width
  deriving DecidableEq, Repr

/-- The `CMD32` rows, in the table's order. -/
def cmdRows : List (TableRow 32) :=
  [⟨"CPB.INIT", 0x00000000, 0xFFFFFFFF⟩, ⟨"CPB.PUSH", 0x10000000, 0xFFFF0000⟩,
   ⟨"CPB.POP", 0x20000000, 0xFFFF0000⟩, ⟨"CPB.COUNT", 0x30000000, 0xFFFFFFFF⟩,
   ⟨"FRM.RESET", 0x40000000, 0xFFFFFFFF⟩, ⟨"FRM.RESOLVE", 0x50000000, 0xFFFFFF00⟩,
   ⟨"FRM.MSGLEN", 0x60000000, 0xFFFFFF00⟩, ⟨"FRM.NEXT", 0x70000000, 0xFFFF0000⟩,
   ⟨"UMP.DECODE", 0x80000000, 0xF0000000⟩, ⟨"UMP.ENCODE", 0x90000000, 0xFFFF0000⟩,
   ⟨"CMD.RESERVED", 0x00000000, 0x00000000⟩]

/-- The `MIDI8` rows, in the table's order, with the default status values that the table's patterns carry. -/
def midiRows : List (TableRow 8) :=
  [⟨"ST.RT", 0xF8, 0xF8⟩, ⟨"ST.SYSEX", 0xF0, 0xFF⟩, ⟨"ST.QF", 0xF1, 0xFF⟩, ⟨"ST.SPP", 0xF2, 0xFF⟩,
   ⟨"ST.SS", 0xF3, 0xFF⟩, ⟨"ST.EOX", 0xF7, 0xFF⟩, ⟨"ST.SYSCOM.OTHER", 0xF4, 0xFC⟩,
   ⟨"ST.CV.PC", 0xC0, 0xF0⟩, ⟨"ST.CV.CP", 0xD0, 0xF0⟩, ⟨"ST.CV.OTHER", 0x80, 0x80⟩,
   ⟨"DATA", 0x00, 0x80⟩]

/-- The `UMP32` rows, in the table's order, with the default status values that the table's patterns carry. -/
def umpRows : List (TableRow 32) :=
  [⟨"UMP.SYS.QF", 0x10F10000, 0xF0FF0000⟩, ⟨"UMP.SYS.SPP", 0x10F20000, 0xF0FF0000⟩,
   ⟨"UMP.SYS.SS", 0x10F30000, 0xF0FF0000⟩, ⟨"UMP.SYS.OTHER", 0x10000000, 0xF0000000⟩,
   ⟨"UMP.CV.PC", 0x20C00000, 0xF0F00000⟩, ⟨"UMP.CV.CP", 0x20D00000, 0xF0F00000⟩,
   ⟨"UMP.CV.OTHER", 0x20000000, 0xF0000000⟩, ⟨"UMP.DATA", 0x30000000, 0xF0000000⟩,
   ⟨"UMP.RSVD.MT0", 0x00000000, 0xF0000000⟩, ⟨"UMP.RSVD.MT4_7", 0x40000000, 0xC0000000⟩,
   ⟨"UMP.RSVD.MT8_15", 0x80000000, 0x80000000⟩]

/-- The mnemonic of the first row that a word selects. -/
def selectRow {width : Nat} (rows : List (TableRow width)) (w : BitVec width) : Option String :=
  (rows.find? fun r => w &&& r.mask == r.pattern).map TableRow.mnemonic

/-- The mnemonic of an instruction in spec/opcode_table.json. -/
def Instr.mnemonic : Instr → String
  | .cpbInit => "CPB.INIT"
  | .cpbPush _ => "CPB.PUSH"
  | .cpbPop _ => "CPB.POP"
  | .cpbCount => "CPB.COUNT"
  | .frmReset => "FRM.RESET"
  | .frmResolve _ => "FRM.RESOLVE"
  | .frmMsglen _ => "FRM.MSGLEN"
  | .frmNext _ => "FRM.NEXT"
  | .umpDecode _ _ => "UMP.DECODE"
  | .umpEncode _ => "UMP.ENCODE"
  | .cmdReserved _ _ _ => "CMD.RESERVED"
  | .stRt _ => "ST.RT"
  | .stSysex => "ST.SYSEX"
  | .stQf => "ST.QF"
  | .stSpp => "ST.SPP"
  | .stSs => "ST.SS"
  | .stEox => "ST.EOX"
  | .stSyscomOther _ => "ST.SYSCOM.OTHER"
  | .stCvPc _ => "ST.CV.PC"
  | .stCvCp _ => "ST.CV.CP"
  | .stCvOther _ _ => "ST.CV.OTHER"
  | .midiData _ => "DATA"
  | .umpSysQf _ _ _ => "UMP.SYS.QF"
  | .umpSysSpp _ _ _ => "UMP.SYS.SPP"
  | .umpSysSs _ _ _ => "UMP.SYS.SS"
  | .umpSysOther _ _ _ _ => "UMP.SYS.OTHER"
  | .umpCvPc _ _ _ _ => "UMP.CV.PC"
  | .umpCvCp _ _ _ _ => "UMP.CV.CP"
  | .umpCvOther _ _ _ _ => "UMP.CV.OTHER"
  | .umpData _ _ _ _ => "UMP.DATA"
  | .umpRsvdMt0 _ _ _ _ => "UMP.RSVD.MT0"
  | .umpRsvdMt4To7 _ _ _ _ _ => "UMP.RSVD.MT4_7"
  | .umpRsvdMt8To15 _ _ _ _ _ => "UMP.RSVD.MT8_15"

/-! ### Bare table words -/

/-- The bytes of payload that a command word's operand asks for (R42). -/
def payloadBytes (w : Word) : Nat :=
  if cmdOp w = 0x1 ∨ cmdOp w = 0x7 ∨ cmdOp w = 0x9 then (cmdB w).toNat else 0

/-- The words of payload that a command word's operand asks for (R42). -/
def payloadWords (w : Word) : Nat := if cmdOp w = 0x8 then (cmdA w).toNat else 0

/-- The transaction that a bare word of the opcode table stands for, its payload all zeros. Eight bits are a
`MIDI8` byte. Thirty-two bits are a command word where they select an operation or where `op` is one of
`0xA..0xF`, and a UMP word otherwise: the two formats overlap and the table's word does not say which is
meant. DESIGN CHOICE, log entry 6. -/
def tableTransaction (nbits w : Nat) : Option Transaction :=
  if nbits = 8 then some (.midi8 (BitVec.ofNat 8 w))
  else if nbits = 32 then
    let word := BitVec.ofNat 32 w
    if cmdSelects (cmdOp word) (cmdA word) (cmdB word) || decide (10 ≤ (cmdOp word).toNat) then
      some (.cmd32 word (List.replicate (payloadBytes word) 0) (List.replicate (payloadWords word) 0))
    else some (.ump32 word)
  else none

/-- What the decoder reads from a bare word of the opcode table, whose rows carry the default status values. -/
def decodeTableWord (nbits w : Nat) : Option Instr :=
  match tableTransaction nbits w with
  | none => none
  | some t =>
    match decode StatusTable.default t with
    | .ok i => some i
    | .error _ => none

end Sys2Proof
end

