-- ==== Sys2Proof/Machine/State.lean ====
section
/-! DEFINITION. The state of the block (spec/10_state.md R10), the responses of its port (spec/30_encoding.md R44), what can
stand at its port, the reasons a step can stop, and the state after reset (R26, R99). -/

namespace Sys2Proof.Machine

/-- An entry of the index ring: the arena offset of a packet's first byte and the packet's length (R17). -/
structure IdxEntry where
  off : Nat
  len : Nat
  deriving DecidableEq, Repr

/-- The arena: its written cells as (offset, byte) pairs, offsets strictly rising; an offset that is not listed
was never written and has no value (R16, R99; log entry 8). -/
abbrev Memory := List Host.Cell

/-- The `status` field of the response of `FRM.NEXT` (R44, R68). -/
inductive FrmStatus where
  /-- code 0 -/
  | ok
  /-- code 1 -/
  | framingError
  /-- code 2 -/
  | incomplete
  deriving DecidableEq, Repr

/-- The response of one command (R44). Every field is an unsigned number, a bit, a byte, or a returned
sequence; a response that is not `illegal` has `illegal = 0`. -/
inductive Response where
  /-- `CPB.INIT`: no fields -/
  | cpbInit
  /-- `CPB.PUSH`: packets evicted by this push, and whether the push was dropped -/
  | cpbPush (evicted : Nat) (dropped : Bool)
  /-- `CPB.POP`: number of bytes copied, and the bytes -/
  | cpbPop (n : Nat) (out : List Byte)
  /-- `CPB.COUNT`: number of live packets -/
  | cpbCount (count : Nat)
  /-- `FRM.RESET`: no fields -/
  | frmReset
  /-- `FRM.RESOLVE`: validity and the effective status -/
  | frmResolve (valid : Bool) (status : Byte)
  /-- `FRM.MSGLEN`: validity and the length, 0 for open-ended -/
  | frmMsglen (valid : Bool) (len : Nat)
  /-- `FRM.NEXT`: status, bytes consumed, length of the message, and the message -/
  | frmNext (status : FrmStatus) (consumed n : Nat) (msg : List Byte)
  /-- `UMP.DECODE`: number of bytes, whether the type is unsupported, and the bytes -/
  | umpDecode (n : Nat) (unsupported : Bool) (out : List Byte)
  /-- `UMP.ENCODE`: number of words, whether the input is unsupported, and the words -/
  | umpEncode (nwords : Nat) (unsupported : Bool) (words : List Word)
  /-- a reserved command word: `illegal = 1` (R43) -/
  | illegal
  /-- a bare `MIDI8` byte: what `FRM.RESOLVE` and `FRM.MSGLEN` answer for it (log entry 4) -/
  | midiByte (valid : Bool) (status : Byte) (lenValid : Bool) (len : Nat)
  deriving DecidableEq, Repr

/-- What stands at the command port. The spec gives the block no queue: the list of these in `State` is the
order in which the port accepts what the hosts present (R35, R36; log entry 2). -/
inductive PortEvent where
  /-- one transaction of one host -/
  | present (t : Transaction)
  /-- one operation of one host, taken as a constructor with its operands and no command word, as R41 allows: the only
  form in which an operand wider than the word's fields can stand at the port of a block whose `LEN_W` or `WC_W` is
  greater than the word's -/
  | operation (i : Instr)
  /-- hardware reset (R98) -/
  | hardReset
  /-- two agents drive the port at once, which is outside the spec (R36) -/
  | overlap (t u : Transaction)
  deriving DecidableEq, Repr

/-- Why the machine stops with a fault. No operation of the block faults (R83); both faults are reached only in
states that break the invariants of R23, which no run from reset enters. -/
inductive Fault where
  /-- raised by `CPB.POP` when it reads an arena offset that nothing has written; R99 lets a model fault such a
  read, and no operation performs one. Safe: log entry 8. -/
  | arenaUnwritten (off : Nat)
  /-- raised by `CPB.PUSH` when the arena is short of room and no packet is left to evict: the precondition of
  R56 is broken. Safe: log entry 9. -/
  | evictEmpty
  deriving DecidableEq, Repr

/-- Why a step is refused. -/
inductive Refusal where
  /-- raised by an arm of `exec` for an instruction that has no meaning yet; safe. No arm raises it now. -/
  | notModelled (mnemonic : String)
  /-- raised by `step` when two agents drive the port at once: "a model gives it no step (refuse)" (R36). Safe:
  log entry 11. -/
  | overlappingDrive
  /-- raised by `step` when a command's payload is not of the size its operand gives, so that the command was not
  delivered whole (R44). Safe: log entry 10. -/
  | malformedTransaction (e : DecodeError)
  /-- raised by `step` when an operand does not fit the block's `LEN_W` or `WC_W`, or when an operation that comes without
  a command word is no term that any encoding stands for. With the default widths no command word is refused so. Safe:
  log entry 1. -/
  | operandOutOfRange
  deriving DecidableEq, Repr

/-- The state. The seven pieces of R10, the parameters of R5, and two fields of the model's own, `resp` and
`port`. -/
structure State where
  /-- the parameters, fixed for the life of the block (R5; log entry 1) -/
  cfg : Config
  /-- `read_pos`: index-ring position of the oldest live packet (R11) -/
  readPos : Nat
  /-- `write_pos`: index-ring position of the next entry to be written (R12) -/
  writePos : Nat
  /-- `buf_off`: arena offset of the oldest live byte (R13) -/
  bufOff : Nat
  /-- `buf_len`: number of arena bytes held by live packets (R14) -/
  bufLen : Nat
  /-- `idx`: the index ring, entry `i` at position `i` (R17) -/
  idx : List IdxEntry
  /-- `arena`: the byte memory (R16) -/
  arena : Memory
  /-- `RS`: the running status, `0x00` for none (R18) -/
  rs : Byte
  /-- the response to the last command; read by no operation (R20; log entry 3) -/
  resp : Option Response
  /-- what the hosts present, in the order the port accepts it (R25 (c), R35; log entry 2) -/
  port : List PortEvent
  deriving DecidableEq, Repr

/-- What stands first at the port, decoded, with the state after it has been accepted. -/
inductive Fetched where
  /-- nothing is presented -/
  | idle
  /-- an instruction -/
  | instr (i : Instr) (s : State)
  /-- a hardware reset -/
  | hardReset (s : State)
  /-- nothing the spec gives a step -/
  | refuse (r : Refusal)
  deriving DecidableEq, Repr

/-- The state after hardware reset of a block with the given parameters (R5, R26, R99): the cursors 0, `RS` none. The spec
leaves `idx` and `arena` unspecified: every entry of `idx` is (0, 0), DESIGN CHOICE of log entry 7, and no
offset of the arena has been written, log entry 8. No response yet and nothing at the port: log entries 2
and 3. -/
def State.resetWith (c : Config) : State :=
  { cfg := c
    readPos := 0
    writePos := 0
    bufOff := 0
    bufLen := 0
    idx := List.replicate c.indexSlots { off := 0, len := 0 }
    arena := []
    rs := 0x00
    resp := none
    port := [] }

/-- The state after hardware reset, with the default parameters of R5. -/
def State.reset : State := State.resetWith Config.default

end Sys2Proof.Machine
end

