-- ==== Sys2Proof/WellFormed.lean ====
section
/-! DEFINITION. Which terms of `Instr` are instructions: a length, a capacity and a word count fit the width their block gives
them (spec/00_scope.md R5, spec/30_encoding.md R41, R42), a reserved command's fields select no operation (R43), and a row of
lower priority does not hold a value that an earlier row of its format takes (R45, R50; the priority order of
spec/opcode_table.json). -/

namespace Sys2Proof

/-- The instructions of a block with the given `LEN_W`, `WC_W` and status values. -/
def Instr.wfIn (c : Config) : Instr → Bool
  | .cpbInit => true
  | .cpbPush d => decide (d.length < 2 ^ c.lenW)
  | .cpbPop cap => decide (cap < 2 ^ c.lenW)
  | .cpbCount => true
  | .frmReset => true
  | .frmResolve _ => true
  | .frmMsglen _ => true
  | .frmNext s => decide (s.length < 2 ^ c.lenW)
  | .umpDecode words cap => decide (words.length < 2 ^ c.wcW) && decide (cap < 2 ^ c.lenW)
  | .umpEncode bytes => decide (bytes.length < 2 ^ c.lenW)
  | .cmdReserved op a b => !cmdSelects op a b
  | .stRt _ => true
  | .stSysex => true
  | .stQf => true
  | .stSpp => true
  | .stSs => true
  | .stEox => true
  | .stSyscomOther value => isNamedSystemCommon (syscomByte value) && syscomByte value != c.status.quarterFrame &&
      syscomByte value != c.status.songPosition && syscomByte value != c.status.songSelect
  | .stCvPc _ => true
  | .stCvCp _ => true
  | .stCvOther kind _ => kind.getLsbD 3 && kind != kindPC && kind != kindCP && kind != 0xF
  | .midiData _ => true
  | .umpSysQf _ _ _ => true
  | .umpSysSpp _ _ _ => true
  | .umpSysSs _ _ _ => true
  | .umpSysOther _ b0 _ _ => b0 != c.status.quarterFrame && b0 != c.status.songPosition && b0 != c.status.songSelect
  | .umpCvPc _ _ _ _ => true
  | .umpCvCp _ _ _ _ => true
  | .umpCvOther _ b0 _ _ => hiNibble b0 != kindPC && hiNibble b0 != kindCP
  | .umpData _ _ _ _ => true
  | .umpRsvdMt0 _ _ _ _ => true
  | .umpRsvdMt4To7 _ _ _ _ _ => true
  | .umpRsvdMt8To15 _ _ _ _ _ => true

/-- The well-formed instructions, with the given status values: those that a transaction in one of the three formats stands
for. The command word of R41 is that of the default `LEN_W = 16` and `WC_W = 12`. -/
def Instr.wf (v : StatusTable) (i : Instr) : Bool := i.wfIn { Config.default with status := v }

end Sys2Proof
end

