-- ==== Sys2Proof/Machine/Ops.lean ====
section
/-! DEFINITION. The named operations the meanings share: one cell of the arena, `MemRead` and `MemWrite` (spec/20_memory.md
R28), the derived quantities of spec/10_state.md R15, the cursor updates of spec/40_cpb.md, hardware reset
(spec/70_reset_and_hazards.md R98), the response, and the port. There is no exception to take and none to return from:
no operation raises one, nothing is saved, no mode changes and no vector is fetched (spec/60_exceptions.md R83, R93, R94);
every condition of R83 is a response field, written through `answer`. -/

namespace Sys2Proof.Machine

/-! ### One cell of the arena -/

/-- The byte at an offset, where one has been written. -/
def Memory.read : Memory → Nat → Option Byte
  | [], _ => none
  | (k, v) :: m, a => if k = a then some v else Memory.read m a

/-- Write the byte at an offset, keeping the offsets strictly rising. -/
def Memory.write : Memory → Nat → Byte → Memory
  | [], a, b => [(a, b)]
  | (k, v) :: m, a, b =>
    if a < k then (a, b) :: (k, v) :: m
    else if a = k then (a, b) :: m
    else (k, v) :: Memory.write m a b

/-- The canonical form: offsets strictly rising. An unlisted offset reads as nothing, so no entry can equal what
it would read as without the entry. -/
def Memory.wf : Memory → Bool
  | [] => true
  | [_] => true
  | (k, _) :: (l, w) :: m => decide (k < l) && Memory.wf ((l, w) :: m)

/-! ### `MemRead` and `MemWrite` (R28) -/

/-- `MemRead(addr, n)`: the `n` bytes at `addr`, `addr+1`, ..., each offset taken `mod ARENA_CAP`, in that order.
Where an offset was never written, that offset. -/
def memRead (cap : Nat) (m : Memory) (addr : Nat) : Nat → Except Nat (List Byte)
  | 0 => .ok []
  | n + 1 =>
    match Memory.read m (addr % cap) with
    | none => .error (addr % cap)
    | some b =>
      match memRead cap m (addr + 1) n with
      | .error a => .error a
      | .ok bs => .ok (b :: bs)

/-- `MemWrite(addr, n, v)`: byte `i` of `v` at `(addr + i) mod ARENA_CAP`. -/
def memWrite (cap : Nat) (m : Memory) (addr : Nat) : List Byte → Memory
  | [] => m
  | b :: bs => memWrite cap (Memory.write m (addr % cap) b) (addr + 1) bs

/-! ### Derived quantities (R15) -/

/-- `count = (write_pos - read_pos) mod INDEX_SLOTS`, the non-negative remainder (R7, R15). -/
def State.count (s : State) : Nat :=
  (((s.writePos : Int) - (s.readPos : Int)) % (s.cfg.indexSlots : Int)).toNat

/-- `empty` (R15). -/
def State.isEmpty (s : State) : Bool := s.readPos == s.writePos

/-- `full`: the next `write_pos` would equal `read_pos` (R15). -/
def State.isFull (s : State) : Bool := (s.writePos + 1) % s.cfg.indexSlots == s.readPos

/-- `buf_end`: the arena offset at which the next pushed packet starts (R15). -/
def State.bufEnd (s : State) : Nat := (s.bufOff + s.bufLen) % s.cfg.arenaCap

/-- `idx[p]` (R8). -/
def State.entry (s : State) (p : Nat) : IdxEntry := s.idx.getD p { off := 0, len := 0 }

/-- The live entries, oldest first: the positions `read_pos`, `read_pos + 1`, ..., `count` of them (R17). -/
def State.liveEntries (s : State) : List IdxEntry :=
  (List.range s.count).map fun i => s.entry ((s.readPos + i) % s.cfg.indexSlots)

/-- The bytes of an entry's packet, as the arena holds them. -/
def State.packetAt (s : State) (e : IdxEntry) : List Byte :=
  match memRead s.cfg.arenaCap s.arena e.off e.len with
  | .ok bs => bs
  | .error _ => []

/-- The live packets, oldest first. -/
def State.packets (s : State) : List (List Byte) := s.liveEntries.map s.packetAt

/-! ### Updates -/

/-- The state with a response at the port (R44). -/
def State.withResp (s : State) (r : Response) : State := { s with resp := some r }

/-- The state with a running status. -/
def State.withRs (s : State) (v : Byte) : State := { s with rs := v }

/-- The state with the rest of the port's events. -/
def State.withPort (s : State) (p : List PortEvent) : State := { s with port := p }

/-- Every command is answered: the operation completes with its response (R44, R83). -/
def answer (r : Response) (s : State) : Host.Outcome State Fault Refusal := .next (s.withResp r)

/-- All four cursors to 0; `arena` and `idx` are not written (R57). -/
def State.initCursors (s : State) : State :=
  { s with readPos := 0, writePos := 0, bufOff := 0, bufLen := 0 }

/-- Retire the oldest live packet, `len` its length: the three cursor updates of `evict_oldest` (R56) and of
`CPB.POP` (R59), which are the same. Its bytes and its entry stay. The subtraction is exact where R23 (b)
holds. -/
def State.retireOldest (s : State) : State :=
  { s with
    bufLen := s.bufLen - (s.entry s.readPos).len
    bufOff := (s.bufOff + (s.entry s.readPos).len) % s.cfg.arenaCap
    readPos := (s.readPos + 1) % s.cfg.indexSlots }

/-- Step 3 of `CPB.PUSH`: the payload at `buf_end`, its entry at `write_pos`, then the two cursors (R58). -/
def State.appendPacket (s : State) (d : List Byte) : State :=
  { s with
    arena := memWrite s.cfg.arenaCap s.arena s.bufEnd d
    idx := s.idx.set s.writePos { off := s.bufEnd, len := d.length }
    writePos := (s.writePos + 1) % s.cfg.indexSlots
    bufLen := s.bufLen + d.length }

/-- Step 1 of `CPB.PUSH`: where the index ring is full, evict the oldest packet once; with the number evicted
(R58). -/
def State.evictIfFull (s : State) : State × Nat :=
  if s.isFull then (s.retireOldest, 1) else (s, 0)

/-- Step 2 of `CPB.PUSH`: while the packet does not fit, evict the oldest packet; with the number evicted, added
to `ev` (R58). The first argument is the number of packets left to evict, and the loop ends with it (R58,
Termination); where none is left and there is still no room, nothing (the precondition of R56). -/
def evictUntilFits (len : Nat) : Nat → State → Nat → Option (State × Nat)
  | 0, s, ev => if s.bufLen + len ≤ s.cfg.arenaCap then some (s, ev) else none
  | k + 1, s, ev =>
    if s.bufLen + len ≤ s.cfg.arenaCap then some (s, ev)
    else evictUntilFits len k s.retireOldest (ev + 1)

/-- Steps 1 and 2 of `CPB.PUSH` in their order (R58). -/
def State.makeRoom (s : State) (len : Nat) : Option (State × Nat) :=
  evictUntilFits len s.evictIfFull.1.count s.evictIfFull.1 s.evictIfFull.2

/-- Hardware reset: the effect of `CPB.INIT` followed by `FRM.RESET`, and nothing more (R98). It is no command,
so the port answers nothing: log entry 14. -/
def hardReset (s : State) : State := { s.initCursors.withRs 0x00 with resp := none }

/-! ### The port -/

/-- The port accepts an instruction of the block: one whose operands fit its widths (R5; log entry 1). -/
def acceptFitting (i : Instr) (s : State) : Fetched :=
  if i.wfIn s.cfg then .instr i s else .refuse .operandOutOfRange

/-- The first of what stands at the port (R35). Nothing presented: the block is idle. -/
def fetch (s : State) : Fetched :=
  match s.port with
  | [] => .idle
  | .hardReset :: rest => .hardReset (s.withPort rest)
  | .overlap _ _ :: _ => .refuse .overlappingDrive
  | .operation i :: rest => acceptFitting i (s.withPort rest)
  | .present t :: rest =>
    match decode s.cfg.status t with
    | .ok i => acceptFitting i (s.withPort rest)
    | .error e => .refuse (.malformedTransaction e)

/-- The state with a transaction presented before everything else at the port. -/
def presentFirst (s : State) (t : Transaction) : State := s.withPort (.present t :: s.port)

end Sys2Proof.Machine
end

