-- ==== Sys2Proof/Machine/Cmd.lean ====
section
/-! DEFINITION. The reserved command words (spec/30_encoding.md R43, spec/60_exceptions.md R89). -/

namespace Sys2Proof.Machine

/-- `CMD.RESERVED`: no state change, `illegal = 1`, whatever the fields (R43). -/
def execCmdReserved (_op : BitVec 4) (_a : BitVec 12) (_b : BitVec 16) (s : State) :
    Host.Outcome State Fault Refusal :=
  answer .illegal s

end Sys2Proof.Machine
end

