-- ==== Sys2Proof/Machine/Cpb.lean ====
section
/-! DEFINITION. The Circular Packet Buffer: `CPB.INIT`, `CPB.PUSH`, `CPB.POP`, `CPB.COUNT` (spec/40_cpb.md). -/

namespace Sys2Proof.Machine

/-- `CPB.INIT` (R57). -/
def execCpbInit (s : State) : Host.Outcome State Fault Refusal := answer .cpbInit s.initCursors

/-- `CPB.PUSH` (R58): a length outside `1..ARENA_CAP` is dropped; otherwise room is made by eviction and the
packet is appended. -/
def execCpbPush (d : List Byte) (s : State) : Host.Outcome State Fault Refusal :=
  if d.length = 0 ∨ s.cfg.arenaCap < d.length then answer (.cpbPush 0 true) s
  else
    match s.makeRoom d.length with
    | none => .fault .evictEmpty
    | some (s', evicted) => answer (.cpbPush evicted false) (s'.appendPacket d)

/-- `CPB.POP` (R59): the first `min(cap, len)` bytes of the oldest packet, which is retired in full. -/
def execCpbPop (cap : Nat) (s : State) : Host.Outcome State Fault Refusal :=
  if s.isEmpty then answer (.cpbPop 0 []) s
  else
    let e := s.entry s.readPos
    let n := min cap e.len
    match memRead s.cfg.arenaCap s.arena e.off n with
    | .error a => .fault (.arenaUnwritten a)
    | .ok out => answer (.cpbPop n out) s.retireOldest

/-- `CPB.COUNT` (R60). -/
def execCpbCount (s : State) : Host.Outcome State Fault Refusal := answer (.cpbCount s.count) s

end Sys2Proof.Machine
end

