-- ==== Sys2Proof/Machine/Operands.lean ====
section
/-! DEFINITION. The operand forms: the classes of a MIDI byte (spec/30_encoding.md R45), the bytes of a UMP word
(spec/42_ump.md R71) and the words of a byte sequence (R72, spec/30_encoding.md R51), the message a leading byte opens. -/

namespace Sys2Proof.Machine

/-! ### Classes of a MIDI byte (R45) -/

/-- Realtime status, `0xF8..0xFF`. -/
def isRealtime (b : Byte) : Bool := decide (0xF7#8 < b)

/-- System-common status, `0xF0..0xF7`. -/
def isSystemCommon (b : Byte) : Bool := decide (0xF0#8 ≤ b) && decide (b ≤ 0xF7#8)

/-- Channel-voice status, `0x80..0xEF`. -/
def isChannelVoice (b : Byte) : Bool := decide (0x80#8 ≤ b) && decide (b ≤ 0xEF#8)

/-- Data byte, `0x00..0x7F`. -/
def isData (b : Byte) : Bool := decide (b < 0x80#8)

/-! ### From a UMP word to bytes (R71) -/

/-- The message of a type 1 word: one data byte for Quarter-Frame and Song-Select, two for Song-Position, none
for every other first byte (R71), by the block's status values (U1). -/
def systemMessage (v : StatusTable) (b0 b1 b2 : Byte) : List Byte :=
  if b0 = v.quarterFrame ∨ b0 = v.songSelect then [b0, b1]
  else if b0 = v.songPosition then [b0, b1, b2]
  else [b0]

/-- The message of a type 2 word: one data byte for Program-Change and Channel-Pressure, otherwise two (R71). -/
def channelMessage (b0 b1 b2 : Byte) : List Byte :=
  if hiNibble b0 = kindPC ∨ hiNibble b0 = kindCP then [b0, b1] else [b0, b1, b2]

/-- The whole message of a UMP word, or none where its type is unsupported: type 3, and types 0 and 4 to 15
(R71, R74, R50). The group is ignored (R76). -/
def umpMessage (v : StatusTable) (w : Word) : Option (List Byte) :=
  if umpMt w = 1 then some (systemMessage v (umpB0 w) (umpB1 w) (umpB2 w))
  else if umpMt w = 2 then some (channelMessage (umpB0 w) (umpB1 w) (umpB2 w))
  else none

/-! ### From bytes to UMP words (R72, R51) -/

/-- The message type that the first byte packed into a word selects (R72). -/
def umpTypeOf (f : Byte) : BitVec 4 :=
  if f = statusEOX then 3 else if hiNibble f = 0xF then 1 else 2

/-- The header of a word: type and group 0 (R51, R76). -/
def umpHeader (mt : BitVec 4) : Word := (mt.setWidth 32 <<< 28) ||| ((0#4).setWidth 32 <<< 24)

/-- Byte number `i` of the input, at bit position `16 - 8 * (i mod 3)` (R51). -/
def umpPlace (i : Nat) (b : Byte) : Word := b.setWidth 32 <<< (16 - 8 * (i % 3))

/-- Word `k`: its header, then each byte of the input that falls in it (R72). -/
def umpPack (bytes : List Byte) (k : Nat) : Word :=
  [3 * k, 3 * k + 1, 3 * k + 2].foldl
    (fun w i => match bytes[i]? with
      | some b => w ||| umpPlace i b
      | none => w)
    (umpHeader (umpTypeOf (bytes.getD (3 * k) 0)))

/-- The number of words, `ceil(byte_count / 3)` (R72). -/
def umpWordCount (byteCount : Nat) : Nat := (byteCount + 2) / 3

/-- All words of a byte sequence (R72). -/
def umpPackAll (bytes : List Byte) : List Word := (List.range (umpWordCount bytes.length)).map (umpPack bytes)

/-! ### From a byte stream to one message (R68) -/

/-- The least `j` with `1 <= j < m` and `s[j] == 0xF7`, if any (R68). -/
def sysexEnd (s : List Byte) : Option Nat := ((s.drop 1).findIdx? (· == statusEOX)).map (· + 1)

end Sys2Proof.Machine
end

