-- ==== Sys2Proof/Machine/Flags.lean ====
section
/-! DEFINITION. The block has no flags (spec/10_state.md R20): what an outcome reports is a response field. Here are the
computations of those fields, over plain operands: the effective status (spec/41_framer.md R66), a message's length
(R67), one framed message (R68), a decoded word and an encoded sequence (spec/42_ump.md R71, R72). -/

namespace Sys2Proof.Machine

/-- What `FRM.RESOLVE` gives: its response and the running status it leaves. -/
structure Resolved where
  valid : Bool
  status : Byte
  rs : Byte
  deriving DecidableEq, Repr

/-- The effective status of a message whose leading byte is `b`, under the running status `rs`, in the priority
order of R66. -/
def resolve (rs b : Byte) : Resolved :=
  if isRealtime b then { valid := true, status := b, rs := rs }
  else if isSystemCommon b then { valid := true, status := b, rs := 0x00 }
  else if isChannelVoice b then { valid := true, status := b, rs := b }
  else if rs = 0x00 then { valid := false, status := 0x00, rs := rs }
  else { valid := true, status := rs, rs := rs }

/-- What `FRM.MSGLEN` gives: `valid`, and the length with 0 for open-ended. -/
structure MsgLen where
  valid : Bool
  len : Nat
  deriving DecidableEq, Repr

/-- The length in bytes, status byte included, of the message with effective status `st` (R67), by the block's
status values (U1). -/
def msgLen (v : StatusTable) (st : Byte) : MsgLen :=
  if isData st then { valid := false, len := 0 }
  else if hiNibble st = kindPC ∨ hiNibble st = kindCP then { valid := true, len := 2 }
  else if st < 0xF0 then { valid := true, len := 3 }
  else if st = statusSysex then { valid := true, len := 0 }
  else if st = v.quarterFrame ∨ st = v.songSelect then { valid := true, len := 2 }
  else if st = v.songPosition then { valid := true, len := 3 }
  else { valid := true, len := 1 }

/-- What `FRM.NEXT` gives: its response and the running status it leaves. -/
structure Framed where
  status : FrmStatus
  consumed : Nat
  msg : List Byte
  rs : Byte
  deriving DecidableEq, Repr

/-- One message from the front of a byte sequence under the running status `rs` (R68). The running status is
that of the embedded `FRM.RESOLVE` whenever the sequence is not empty (R68 (e)). -/
def frameNext (v : StatusTable) (rs : Byte) : List Byte → Framed
  | [] => { status := .incomplete, consumed := 0, msg := [], rs := rs }
  | b :: t =>
    let r := resolve rs b
    let L := (msgLen v r.status).len
    if r.valid = false then { status := .framingError, consumed := 1, msg := [], rs := r.rs }
    else if r.status = statusSysex then
      match sysexEnd (b :: t) with
      | none => { status := .incomplete, consumed := 0, msg := [], rs := r.rs }
      | some j => { status := .ok, consumed := j + 1, msg := (b :: t).take (j + 1), rs := r.rs }
    else if 0x80#8 ≤ b then
      if (b :: t).length < L then { status := .incomplete, consumed := 0, msg := [], rs := r.rs }
      else { status := .ok, consumed := L, msg := (b :: t).take L, rs := r.rs }
    else if (b :: t).length < L - 1 then { status := .incomplete, consumed := 0, msg := [], rs := r.rs }
    else { status := .ok, consumed := L - 1, msg := r.status :: (b :: t).take (L - 1), rs := r.rs }

/-- The response of `UMP.DECODE` (R71): no words, nothing; otherwise the first word's message cut to `cap`
bytes, or `unsupported`. -/
def umpDecodeResponse (v : StatusTable) (words : List Word) (cap : Nat) : Response :=
  match words with
  | [] => .umpDecode 0 false []
  | w :: _ =>
    match umpMessage v w with
    | none => .umpDecode 0 true []
    | some full => .umpDecode (min cap full.length) false (full.take (min cap full.length))

/-- The response of `UMP.ENCODE` (R72): system exclusive rejected (R74), otherwise the packed words. -/
def umpEncodeResponse (bytes : List Byte) : Response :=
  if bytes.head? = some statusSysex then .umpEncode 0 true []
  else .umpEncode (umpWordCount bytes.length) false (umpPackAll bytes)

end Sys2Proof.Machine
end

