-- ==== Sys2Proof/Machine/Frm.lean ====
section
/-! DEFINITION. The Message Framer: `FRM.RESET`, `FRM.RESOLVE`, `FRM.MSGLEN`, `FRM.NEXT` (spec/41_framer.md). -/

namespace Sys2Proof.Machine

/-- `FRM.RESET` (R65). -/
def execFrmReset (s : State) : Host.Outcome State Fault Refusal := answer .frmReset (s.withRs 0x00)

/-- `FRM.RESOLVE` (R66). -/
def execFrmResolve (b : Byte) (s : State) : Host.Outcome State Fault Refusal :=
  let r := resolve s.rs b
  answer (.frmResolve r.valid r.status) (s.withRs r.rs)

/-- `FRM.MSGLEN` (R67). -/
def execFrmMsglen (st : Byte) (s : State) : Host.Outcome State Fault Refusal :=
  answer (.frmMsglen (msgLen s.cfg.status st).valid (msgLen s.cfg.status st).len) s

/-- `FRM.NEXT` (R68). -/
def execFrmNext (bs : List Byte) (s : State) : Host.Outcome State Fault Refusal :=
  let f := frameNext s.cfg.status s.rs bs
  answer (.frmNext f.status f.consumed f.msg.length f.msg) (s.withRs f.rs)

end Sys2Proof.Machine
end

