-- ==== Sys2Proof/Machine/Midi.lean ====
section
/-! DEFINITION. The `MIDI8` rows: one byte of the legacy stream presented to the framer as a leading byte. The table gives
each row what `FRM.RESOLVE` and `FRM.MSGLEN` do with the byte (spec/41_framer.md R66, R67). That such a byte is executed
by itself is a DESIGN CHOICE of this model: log entry 4. -/

namespace Sys2Proof.Machine

/-- A leading byte at the framer: `RS` as `FRM.RESOLVE` leaves it, answered with what `FRM.RESOLVE` and
`FRM.MSGLEN` answer for the byte (R66, R67). -/
def presentByte (b : Byte) (s : State) : Host.Outcome State Fault Refusal :=
  let r := resolve s.rs b
  answer (.midiByte r.valid r.status (msgLen s.cfg.status b).valid (msgLen s.cfg.status b).len) (s.withRs r.rs)

/-- `ST.RT`, realtime status, `0xF8..0xFF`: case 1 of R66, length 1. -/
def execStRt (value : BitVec 3) (s : State) : Host.Outcome State Fault Refusal := presentByte (rtByte value) s

/-- `ST.SYSEX`, system exclusive start: case 2 of R66, length open-ended. -/
def execStSysex (s : State) : Host.Outcome State Fault Refusal := presentByte statusSysex s

/-- `ST.QF`, Quarter-Frame: case 2 of R66, length 2. -/
def execStQf (s : State) : Host.Outcome State Fault Refusal := presentByte s.cfg.status.quarterFrame s

/-- `ST.SPP`, Song-Position: case 2 of R66, length 3. -/
def execStSpp (s : State) : Host.Outcome State Fault Refusal := presentByte s.cfg.status.songPosition s

/-- `ST.SS`, Song-Select: case 2 of R66, length 2. -/
def execStSs (s : State) : Host.Outcome State Fault Refusal := presentByte s.cfg.status.songSelect s

/-- `ST.EOX`, system exclusive end: case 2 of R66, length 1. -/
def execStEox (s : State) : Host.Outcome State Fault Refusal := presentByte statusEOX s

/-- `ST.SYSCOM.OTHER`, other system common: case 2 of R66, length 1. -/
def execStSyscomOther (value : BitVec 3) (s : State) : Host.Outcome State Fault Refusal := presentByte (syscomByte value) s

/-- `ST.CV.PC`, Program-Change: case 3 of R66, length 2. -/
def execStCvPc (channel : BitVec 4) (s : State) : Host.Outcome State Fault Refusal := presentByte (cvByte kindPC channel) s

/-- `ST.CV.CP`, Channel-Pressure: case 3 of R66, length 2. -/
def execStCvCp (channel : BitVec 4) (s : State) : Host.Outcome State Fault Refusal := presentByte (cvByte kindCP channel) s

/-- `ST.CV.OTHER`, other channel voice: case 3 of R66, length 3. -/
def execStCvOther (kind channel : BitVec 4) (s : State) : Host.Outcome State Fault Refusal := presentByte (cvByte kind channel) s

/-- `DATA`, data byte: case 4 of R66, no length. -/
def execMidiData (value : BitVec 7) (s : State) : Host.Outcome State Fault Refusal := presentByte (dataByte value) s

end Sys2Proof.Machine
end

