-- ==== Sys2Proof/Machine/Ump.lean ====
section
/-! DEFINITION. The UMP codec, which has no state and reads none: `UMP.DECODE`, `UMP.ENCODE` (spec/42_ump.md R71, R72,
R75). -/

namespace Sys2Proof.Machine

/-- `UMP.DECODE` (R71). -/
def execUmpDecode (words : List Word) (cap : Nat) (s : State) : Host.Outcome State Fault Refusal :=
  answer (umpDecodeResponse s.cfg.status words cap) s

/-- `UMP.ENCODE` (R72). -/
def execUmpEncode (bytes : List Byte) (s : State) : Host.Outcome State Fault Refusal :=
  answer (umpEncodeResponse bytes) s

end Sys2Proof.Machine
end

