-- ==== Sys2Proof/Machine/UmpWords.lean ====
section
/-! DEFINITION. The `UMP32` rows: one UMP word presented to the codec, which decodes it (spec/42_ump.md R71) into a buffer of
3 bytes, enough for every message the block decodes (spec/43_datapaths.md R80). That such a word is executed by itself is
a DESIGN CHOICE of this model: log entry 5. -/

namespace Sys2Proof.Machine

/-- A UMP word at the codec: answered as `UMP.DECODE [w] cap=3` is (R71). -/
def presentWord (w : Word) (s : State) : Host.Outcome State Fault Refusal := answer (umpDecodeResponse s.cfg.status [w] 3) s

/-- `UMP.SYS.QF`, type 1, Quarter-Frame: `[b0 b1]`. -/
def execUmpSysQf (group : BitVec 4) (b1 b2 : Byte) (s : State) :
    Host.Outcome State Fault Refusal :=
  presentWord (umpWord 1 group s.cfg.status.quarterFrame b1 b2) s

/-- `UMP.SYS.SPP`, type 1, Song-Position: `[b0 b1 b2]`. -/
def execUmpSysSpp (group : BitVec 4) (b1 b2 : Byte) (s : State) :
    Host.Outcome State Fault Refusal :=
  presentWord (umpWord 1 group s.cfg.status.songPosition b1 b2) s

/-- `UMP.SYS.SS`, type 1, Song-Select: `[b0 b1]`. -/
def execUmpSysSs (group : BitVec 4) (b1 b2 : Byte) (s : State) :
    Host.Outcome State Fault Refusal :=
  presentWord (umpWord 1 group s.cfg.status.songSelect b1 b2) s

/-- `UMP.SYS.OTHER`, type 1, any other first byte: `[b0]`. -/
def execUmpSysOther (group : BitVec 4) (b0 b1 b2 : Byte) (s : State) :
    Host.Outcome State Fault Refusal :=
  presentWord (umpWord 1 group b0 b1 b2) s

/-- `UMP.CV.PC`, type 2, Program-Change: `[b0 b1]`. -/
def execUmpCvPc (group channel : BitVec 4) (b1 b2 : Byte) (s : State) :
    Host.Outcome State Fault Refusal :=
  presentWord (umpWord 2 group (cvByte kindPC channel) b1 b2) s

/-- `UMP.CV.CP`, type 2, Channel-Pressure: `[b0 b1]`. -/
def execUmpCvCp (group channel : BitVec 4) (b1 b2 : Byte) (s : State) :
    Host.Outcome State Fault Refusal :=
  presentWord (umpWord 2 group (cvByte kindCP channel) b1 b2) s

/-- `UMP.CV.OTHER`, type 2, any other first byte: `[b0 b1 b2]`. -/
def execUmpCvOther (group : BitVec 4) (b0 b1 b2 : Byte) (s : State) :
    Host.Outcome State Fault Refusal :=
  presentWord (umpWord 2 group b0 b1 b2) s

/-- `UMP.DATA`, type 3: rejected (R74). -/
def execUmpData (group : BitVec 4) (b0 b1 b2 : Byte) (s : State) :
    Host.Outcome State Fault Refusal :=
  presentWord (umpWord 3 group b0 b1 b2) s

/-- `UMP.RSVD.MT0`, type 0: no bytes (R50). -/
def execUmpRsvdMt0 (group : BitVec 4) (b0 b1 b2 : Byte) (s : State) :
    Host.Outcome State Fault Refusal :=
  presentWord (umpWord 0 group b0 b1 b2) s

/-- `UMP.RSVD.MT4_7`, types 4 to 7: no bytes (R50). -/
def execUmpRsvdMt4To7 (mtLow : BitVec 2) (group : BitVec 4) (b0 b1 b2 : Byte) (s : State) :
    Host.Outcome State Fault Refusal :=
  presentWord (umpWord (0b01#2 ++ mtLow) group b0 b1 b2) s

/-- `UMP.RSVD.MT8_15`, types 8 to 15: no bytes (R50). -/
def execUmpRsvdMt8To15 (mtLow : BitVec 3) (group : BitVec 4) (b0 b1 b2 : Byte) (s : State) :
    Host.Outcome State Fault Refusal :=
  presentWord (umpWord (0b1#1 ++ mtLow) group b0 b1 b2) s

end Sys2Proof.Machine
end

