-- ==== Sys2Proof/Machine/Dispatch.lean ====
section
/-! DEFINITION. What each instruction does: one arm per constructor of Instr, each one direct call of its meaning. -/

namespace Sys2Proof.Machine

def exec (i : Instr) (s : State) : Host.Outcome State Fault Refusal :=
  match i with
  | .cpbInit => Sys2Proof.Machine.execCpbInit s
  | .cpbPush data => Sys2Proof.Machine.execCpbPush data s
  | .cpbPop cap => Sys2Proof.Machine.execCpbPop cap s
  | .cpbCount => Sys2Proof.Machine.execCpbCount s
  | .frmReset => Sys2Proof.Machine.execFrmReset s
  | .frmResolve b => Sys2Proof.Machine.execFrmResolve b s
  | .frmMsglen st => Sys2Proof.Machine.execFrmMsglen st s
  | .frmNext bs => Sys2Proof.Machine.execFrmNext bs s
  | .umpDecode words cap => Sys2Proof.Machine.execUmpDecode words cap s
  | .umpEncode bytes => Sys2Proof.Machine.execUmpEncode bytes s
  | .cmdReserved op a b => Sys2Proof.Machine.execCmdReserved op a b s
  | .stRt value => Sys2Proof.Machine.execStRt value s
  | .stSysex => Sys2Proof.Machine.execStSysex s
  | .stQf => Sys2Proof.Machine.execStQf s
  | .stSpp => Sys2Proof.Machine.execStSpp s
  | .stSs => Sys2Proof.Machine.execStSs s
  | .stEox => Sys2Proof.Machine.execStEox s
  | .stSyscomOther value => Sys2Proof.Machine.execStSyscomOther value s
  | .stCvPc channel => Sys2Proof.Machine.execStCvPc channel s
  | .stCvCp channel => Sys2Proof.Machine.execStCvCp channel s
  | .stCvOther kind channel => Sys2Proof.Machine.execStCvOther kind channel s
  | .midiData value => Sys2Proof.Machine.execMidiData value s
  | .umpSysQf group b1 b2 => Sys2Proof.Machine.execUmpSysQf group b1 b2 s
  | .umpSysSpp group b1 b2 => Sys2Proof.Machine.execUmpSysSpp group b1 b2 s
  | .umpSysSs group b1 b2 => Sys2Proof.Machine.execUmpSysSs group b1 b2 s
  | .umpSysOther group b0 b1 b2 => Sys2Proof.Machine.execUmpSysOther group b0 b1 b2 s
  | .umpCvPc group channel b1 b2 => Sys2Proof.Machine.execUmpCvPc group channel b1 b2 s
  | .umpCvCp group channel b1 b2 => Sys2Proof.Machine.execUmpCvCp group channel b1 b2 s
  | .umpCvOther group b0 b1 b2 => Sys2Proof.Machine.execUmpCvOther group b0 b1 b2 s
  | .umpData group b0 b1 b2 => Sys2Proof.Machine.execUmpData group b0 b1 b2 s
  | .umpRsvdMt0 group b0 b1 b2 => Sys2Proof.Machine.execUmpRsvdMt0 group b0 b1 b2 s
  | .umpRsvdMt4To7 mtLow group b0 b1 b2 => Sys2Proof.Machine.execUmpRsvdMt4To7 mtLow group b0 b1 b2 s
  | .umpRsvdMt8To15 mtLow group b0 b1 b2 => Sys2Proof.Machine.execUmpRsvdMt8To15 mtLow group b0 b1 b2 s

end Sys2Proof.Machine
end

