-- ==== Sys2Proof/Machine/Step.lean ====
section
/-! DEFINITION. One step of the machine: the port accepts the first of what is presented and the block runs it whole
(spec/00_scope.md R9, spec/20_memory.md R35). -/

namespace Sys2Proof.Machine

/-- One step. With nothing presented the block is idle with its state held (R97, R111); a hardware reset lands
between operations (R98). -/
def step (s : State) : Host.Outcome State Fault Refusal :=
  match fetch s with
  | .idle => .next s
  | .instr i s' => exec i s'
  | .hardReset s' => .next (hardReset s')
  | .refuse r => .refused r

/-- The state with a bare word of the opcode table, its payload all zeros, presented before everything else. A
program is the list of commands the host issues, so this stands for the host's presenting it: log entries 2
and 6. -/
def State.withFetchWord (s : State) (nbits w : Nat) : State :=
  match tableTransaction nbits w with
  | none => s
  | some t => presentFirst s t

end Sys2Proof.Machine
end

