-- ==== Sys2Proof/Machine/DataPaths.lean ====
section
/-! DEFINITION. The pseudo-operations `RX.BYTES`, `RX.UMP`, `TX.BYTES`: what a host does with the ten operations
(spec/43_datapaths.md R79 to R81), and the mapping of the transport's operations onto them (R78). They have no command word
(spec/30_encoding.md R54) and are no instructions. They are not atomic: whole operations of other hosts may fall between two of
theirs (R79, spec/20_memory.md R36). What falls where is an argument, the `gaps`: log entry 15. -/

namespace Sys2Proof.Machine

/-! ### Runs -/

/-- Issue a list of instructions one after another, keeping the responses in order: the run of a program in the
spec's sense (R111, 95_test_vectors.md Part 3). -/
def issueAll : List Instr → State → Host.Outcome (List (Option Response) × State) Fault Refusal
  | [], s => .next ([], s)
  | i :: is, s =>
    match exec i s with
    | .fault f => .fault f
    | .refused r => .refused r
    | .next s1 =>
      match issueAll is s1 with
      | .fault f => .fault f
      | .refused r => .refused r
      | .next (rs, s2) => .next (s1.resp :: rs, s2)

/-- Issue one operation of a pseudo-operation, after what other hosts issue before it: the first of the gaps, nothing
where none is left (R36). With the gaps that remain. -/
def issueAmong (gaps : List (List Instr)) (i : Instr) (s : State) :
    Host.Outcome (List (List Instr) × State) Fault Refusal :=
  match issueAll (gaps.headD []) s with
  | .fault f => .fault f
  | .refused r => .refused r
  | .next (_, s1) =>
    match exec i s1 with
    | .fault f => .fault f
    | .refused r => .refused r
    | .next s2 => .next (gaps.tail, s2)

/-- The part of an unconsumed stream that one `FRM.NEXT` is given: `m` has `LEN_W` bits (R68), so no more than
`2^LEN_W - 1` bytes. R79 writes `FRM.NEXT(q, |q|)` and says nothing of a longer `q`: that its first `2^LEN_W - 1` bytes
are presented is a DESIGN CHOICE, log entry 19. A system exclusive message longer than that is `INCOMPLETE` (R68). -/
def State.presentable (s : State) (bs : List Byte) : List Byte := bs.take (2 ^ s.cfg.lenW - 1)

/-! ### `RX.BYTES` -/

/-- What a run of `RX.BYTES` has counted so far, and the bytes it has not consumed (R79). -/
structure RxBytes where
  pushed : Nat
  errors : Nat
  evicted : Nat
  dropped : Nat
  rest : List Byte
  deriving DecidableEq, Repr

/-- Count one push's response (R79). -/
def RxBytes.countPush (a : RxBytes) : Option Response → RxBytes
  | some (.cpbPush evicted dropped) =>
    { a with
      pushed := a.pushed + (if dropped then 0 else 1)
      dropped := a.dropped + (if dropped then 1 else 0)
      evicted := a.evicted + evicted }
  | _ => a

/-- The outcome of one pass of the loop of `RX.BYTES`: it returns, or goes round again with the gaps that remain
(R79). -/
inductive RxPass where
  | done (a : RxBytes) (s : State)
  | again (gaps : List (List Instr)) (a : RxBytes) (s : State)
  deriving DecidableEq, Repr

/-- One pass of the loop of `RX.BYTES`: `FRM.NEXT` of what is left, then `CPB.PUSH` of the message it framed, each
after what other hosts issue before it (R79, R36). What is left and longer than `2^LEN_W - 1` bytes is presented cut
to that: DESIGN CHOICE, log entry 19. -/
def rxBytesPass (gaps : List (List Instr)) (a : RxBytes) (s : State) : Host.Outcome RxPass Fault Refusal :=
  match issueAmong gaps (.frmNext (s.presentable a.rest)) s with
  | .fault f => .fault f
  | .refused r => .refused r
  | .next (gaps1, s1) =>
    match s1.resp with
    | some (.frmNext .ok consumed _ msg) =>
      match issueAmong gaps1 (.cpbPush msg) s1 with
      | .fault f => .fault f
      | .refused r => .refused r
      | .next (gaps2, s2) =>
        .next (.again gaps2 { a.countPush s2.resp with rest := a.rest.drop consumed } s2)
    | some (.frmNext .framingError consumed _ _) =>
      .next (.again gaps1 { a with errors := a.errors + 1, rest := a.rest.drop consumed } s1)
    | _ => .next (.done a s1)

/-- The loop of `RX.BYTES`, of at most the given number of passes. Each pass that goes round again consumes at
least one byte, so one pass more than there are bytes is enough (R79). -/
def rxBytesLoop : Nat → List (List Instr) → RxBytes → State → Host.Outcome (RxBytes × State) Fault Refusal
  | 0, _, a, s => .next (a, s)
  | k + 1, gaps, a, s =>
    match rxBytesPass gaps a s with
    | .fault f => .fault f
    | .refused r => .refused r
    | .next (.done a' s') => .next (a', s')
    | .next (.again gaps' a' s') => rxBytesLoop k gaps' a' s'

/-- `RX.BYTES` (R79), with what other hosts issue before each of its operations in turn. -/
def rxBytes (gaps : List (List Instr)) (bs : List Byte) (s : State) :
    Host.Outcome (RxBytes × State) Fault Refusal :=
  rxBytesLoop (bs.length + 1) gaps { pushed := 0, errors := 0, evicted := 0, dropped := 0, rest := bs } s

/-! ### `RX.UMP` and `TX.BYTES` -/

/-- The response of `RX.UMP` (R80). -/
structure RxUmp where
  pushed : Nat
  unsupported : Bool
  evicted : Nat
  deriving DecidableEq, Repr

/-- `RX.UMP` (R80): `UMP.DECODE` of one word, then `CPB.PUSH` of the bytes it gave, if any, each after what other hosts
issue before it (R36). `pushed = 1` says that the push was issued, be it dropped. A capacity wider than `LEN_W` bits is handed
on as it is: DESIGN CHOICE, log entry 19. -/
def rxUmp (gaps : List (List Instr)) (w : Word) (cap : Nat) (s : State) :
    Host.Outcome (RxUmp × State) Fault Refusal :=
  match issueAmong gaps (.umpDecode [w] cap) s with
  | .fault f => .fault f
  | .refused r => .refused r
  | .next (gaps1, s1) =>
    match s1.resp with
    | some (.umpDecode (n + 1) _ out) =>
      match issueAmong gaps1 (.cpbPush (out.take (n + 1))) s1 with
      | .fault f => .fault f
      | .refused r => .refused r
      | .next (_, s2) =>
        match s2.resp with
        | some (.cpbPush evicted _) => .next ({ pushed := 1, unsupported := false, evicted := evicted }, s2)
        | _ => .next ({ pushed := 1, unsupported := false, evicted := 0 }, s2)
    | some (.umpDecode 0 unsupported _) =>
      .next ({ pushed := 0, unsupported := unsupported, evicted := 0 }, s1)
    | _ => .next ({ pushed := 0, unsupported := false, evicted := 0 }, s1)

/-- `TX.BYTES` (R81): `UMP.ENCODE` of the whole message. `byte_count` has `LEN_W` bits (R72); for a longer message R81 gives no
expansion, and the model computes the words of all of it: DESIGN CHOICE, log entry 19. -/
def txBytes (msg : List Byte) (s : State) : Host.Outcome State Fault Refusal := execUmpEncode msg s

/-! ### The transport's operations on the block (R78) -/

/-- A transport's `init` performs `CPB.INIT` and `FRM.RESET` (R78), each after what other hosts issue before it. -/
def transportInit (gaps : List (List Instr)) (s : State) : Host.Outcome State Fault Refusal :=
  match issueAmong gaps .cpbInit s with
  | .fault f => .fault f
  | .refused r => .refused r
  | .next (gaps1, s1) =>
    match issueAmong gaps1 .frmReset s1 with
    | .fault f => .fault f
    | .refused r => .refused r
    | .next (_, s2) => .next s2

/-- A transport's `read` performs `CPB.POP` with `cap = capacity` (R78). `cap` has `LEN_W` bits (R59) and R78 says nothing of a greater
capacity: that it is handed on as it is, is a DESIGN CHOICE, log entry 19. -/
def transportRead (capacity : Nat) (s : State) : Host.Outcome State Fault Refusal := execCpbPop capacity s

/-- A transport's `avail` performs `CPB.COUNT` (R78). -/
def transportAvail (s : State) : Host.Outcome State Fault Refusal := execCpbCount s

/-- A UMP transport's `write` performs `TX.BYTES` (R78), of a message of any length: log entry 19. -/
def transportWrite (msg : List Byte) (s : State) : Host.Outcome State Fault Refusal := txBytes msg s

/-! ### Framing a whole stream (R69) -/

/-- What a response of `FRM.NEXT` says of a message: its status and the message. -/
def Response.framed : Response → Option (FrmStatus × List Byte)
  | .frmNext status _ _ msg => some (status, msg)
  | _ => none

/-- Frame a whole stream by repeated `FRM.NEXT`, dropping the consumed bytes each time: the responses up to and
including the first `INCOMPLETE`, and the state after (R69). The first argument bounds the number of calls. Of a stream
longer than `2^LEN_W - 1` bytes each call is given the first so many: log entry 19. -/
def frameStream : Nat → List Byte → State → Host.Outcome (List Response × State) Fault Refusal
  | 0, _, s => .next ([], s)
  | k + 1, bs, s =>
    match execFrmNext (s.presentable bs) s with
    | .fault f => .fault f
    | .refused r => .refused r
    | .next s1 =>
      match s1.resp with
      | some (.frmNext status consumed n msg) =>
        if status = .incomplete then .next ([.frmNext status consumed n msg], s1)
        else
          match frameStream k (bs.drop consumed) s1 with
          | .fault f => .fault f
          | .refused r => .refused r
          | .next (rs, s2) => .next (.frmNext status consumed n msg :: rs, s2)
      | _ => .next ([], s1)

end Sys2Proof.Machine
end

