-- ==== Sys2Proof/Safety.lean ====
section
/-! DEFINITION. What a good state of the block is: the invariants of spec/10_state.md R23 and R24, and when two states
differ only in what no operation reads (R22). Terms the statements use. -/

namespace Sys2Proof.Machine

/-- The entries tile the window in order, from `off` on: the first starts there, and each next one where the one
before it ends, `mod ARENA_CAP` (R23 (c)). -/
def tiles (cap : Nat) : Nat → List IdxEntry → Bool
  | _, [] => true
  | off, e :: es => e.off == off && tiles cap ((off + e.len) % cap) es

/-- The number of bytes of a list of entries. -/
def totalLen (es : List IdxEntry) : Nat := (es.map IdxEntry.len).sum

/-- `RS` holds none or a channel-voice status (R18, R24). -/
def legalRs (v : Byte) : Bool := v == 0x00 || isChannelVoice v

/-- The invariants of the block's state (R10's legal values, R23, R24), with the parameters' constraints (R6)
and the arena's canonical form. R23 (e), that a packet's bytes are those pushed, speaks of the past; its part
here is that every live byte has been written. -/
structure State.Inv (s : State) : Prop where
  /-- R6 -/
  cfgWf : s.cfg.wf = true
  /-- R10, R11 -/
  readLt : s.readPos < s.cfg.indexSlots
  /-- R10, R12 -/
  writeLt : s.writePos < s.cfg.indexSlots
  /-- R10, R13 -/
  offLt : s.bufOff < s.cfg.arenaCap
  /-- R10, R14, R23 (b) -/
  occLe : s.bufLen ≤ s.cfg.arenaCap
  /-- R17: the ring has `INDEX_SLOTS` entries -/
  idxLength : s.idx.length = s.cfg.indexSlots
  /-- R10: what an entry can hold in its `OFF_W` and `OCC_W` bits; a stale entry may hold all of that (R99) -/
  idxFits : ∀ e ∈ s.idx, e.off < 2 ^ s.cfg.offW ∧ e.len < 2 ^ s.cfg.occW
  /-- R23 (d) -/
  liveLen : ∀ e ∈ s.liveEntries, 1 ≤ e.len
  /-- R23 (b) -/
  occSum : s.bufLen = totalLen s.liveEntries
  /-- R23 (c) -/
  tiling : tiles s.cfg.arenaCap s.bufOff s.liveEntries = true
  /-- the arena's canonical form -/
  arenaWf : Memory.wf s.arena = true
  /-- R31: no access falls outside the arena -/
  arenaIn : ∀ c ∈ s.arena, c.1 < s.cfg.arenaCap
  /-- every byte of the live window has been written (R22, R23 (e)) -/
  liveWritten : ∀ i < s.bufLen, (Memory.read s.arena ((s.bufOff + i) % s.cfg.arenaCap)).isSome = true
  /-- R24 -/
  rsLegal : legalRs s.rs = true

/-- Two states that differ at most in what R22 (a) says no operation returns: arena bytes outside the live window
and index entries outside the live positions; and in the response of the operation before, which none reads
(R20). -/
structure State.SameLive (s t : State) : Prop where
  cfg : s.cfg = t.cfg
  readPos : s.readPos = t.readPos
  writePos : s.writePos = t.writePos
  bufOff : s.bufOff = t.bufOff
  bufLen : s.bufLen = t.bufLen
  rs : s.rs = t.rs
  port : s.port = t.port
  liveEntries : s.liveEntries = t.liveEntries
  liveBytes : ∀ i < s.bufLen, Memory.read s.arena ((s.bufOff + i) % s.cfg.arenaCap)
    = Memory.read t.arena ((t.bufOff + i) % t.cfg.arenaCap)

/-- The buffer has room for `len` more bytes and one more packet once the `k` oldest packets are gone (R58). -/
def State.RoomAfter (s : State) (k len : Nat) : Prop :=
  s.packets.length - k < s.cfg.pktMax ∧
    ((s.packets.drop k).map List.length).sum + len ≤ s.cfg.arenaCap

/-- One legacy message with explicit status and its proper length, one UMP word's worth: a channel-voice message,
or a system message other than `0xF0` and `0xF7` (R73 (a), (b)), by the block's status values. -/
def properMessage (v : StatusTable) (m : List Byte) : Bool :=
  match m with
  | [] => false
  | st :: _ =>
    (msgLen v st).valid && m.length == (msgLen v st).len && st != statusSysex && st != statusEOX

/-- One well-formed message of a legacy stream with explicit status: system exclusive from `0xF0` to its first
`0xF7`, or a status byte with as many data bytes as it has (R47, R69), by the block's status
values. -/
def wellFormedMessage (v : StatusTable) (m : List Byte) : Bool :=
  match m with
  | [] => false
  | st :: d =>
    if st = statusSysex then d.getLast? == some statusEOX && d.dropLast.all (· != statusEOX)
    else (msgLen v st).valid && m.length == (msgLen v st).len && d.all isData

/-- The stream of a list of messages, each with whether its sender leaves the status byte out where it may: where it is
a channel-voice message's and is the running status (R69 (a)). With `false` throughout, every status is explicit
(R69 (b)). -/
def compress : Byte → List (List Byte × Bool) → List Byte
  | _, [] => []
  | rs, (m, leaveOut) :: ms =>
    match m with
    | [] => compress rs ms
    | st :: d =>
      (if leaveOut && isChannelVoice st && st == rs then d else st :: d) ++ compress (resolve rs st).rs ms

/-- What stands in a stream: a message, with whether its sender leaves the status out where it may, or a data byte that
belongs to none. -/
inductive StreamItem where
  | message (m : List Byte) (leaveOut : Bool)
  | stray (b : Byte)
  deriving DecidableEq, Repr

/-- The bytes of an item, where the running status is `rs`. -/
def StreamItem.bytes (rs : Byte) : StreamItem → List Byte
  | .message m leaveOut => compress rs [(m, leaveOut)]
  | .stray b => [b]

/-- The running status after an item (R66): a message leaves what its status byte does, a stray data byte what was there. -/
def StreamItem.rsAfter (rs : Byte) : StreamItem → Byte
  | .message m _ => (resolve rs (m.headD 0x00)).rs
  | .stray _ => rs

/-- An item that a stream may hold where the running status is `rs`: a well-formed message that one payload can hold (R68),
or a data byte where there is no running status, which is a framing error (R66 case 4, R84). -/
def StreamItem.wf (c : Config) (rs : Byte) : StreamItem → Bool
  | .message m _ => wellFormedMessage c.status m && decide (m.length < 2 ^ c.lenW)
  | .stray b => isData b && rs == 0x00

/-- The bytes of a list of items. -/
def streamBytes : Byte → List StreamItem → List Byte
  | _, [] => []
  | rs, i :: is => i.bytes rs ++ streamBytes (i.rsAfter rs) is

/-- The running status after a list of items. -/
def streamRs : Byte → List StreamItem → Byte
  | rs, [] => rs
  | rs, i :: is => streamRs (i.rsAfter rs) is

/-- A stream of well-formed items. -/
def streamWf (c : Config) : Byte → List StreamItem → Bool
  | _, [] => true
  | rs, i :: is => i.wf c rs && streamWf c (i.rsAfter rs) is

/-- The message of an item. -/
def StreamItem.message? : StreamItem → Option (List Byte)
  | .message m _ => some m
  | .stray _ => none

/-- The messages of a list of items. -/
def streamMessages (is : List StreamItem) : List (List Byte) := is.filterMap StreamItem.message?

/-- What is left of a stream that stops within a message: nothing, or the first bytes of a well-formed message and not all
of them, its status left out or not (R68, R79). -/
def UnfinishedTail (v : StatusTable) (rs : Byte) (tail : List Byte) : Prop :=
  ∃ m leaveOut more, wellFormedMessage v m = true ∧ more ≠ [] ∧ compress rs [(m, leaveOut)] = tail ++ more

/-- The reserved command words, by the list of R43. -/
def ReservedWord (w : Word) : Prop :=
  0xA ≤ (cmdOp w).toNat ∨
  ((cmdOp w).toNat ∈ [0x0, 0x3, 0x4] ∧ (cmdA w ≠ 0 ∨ cmdB w ≠ 0)) ∨
  ((cmdOp w).toNat ∈ [0x1, 0x2, 0x7, 0x9] ∧ cmdA w ≠ 0) ∨
  ((cmdOp w).toNat ∈ [0x5, 0x6] ∧ (cmdA w ≠ 0 ∨ (cmdB w).extractLsb' 8 8 ≠ 0))

/-- The instructions that act on the framer: the operations that may write `RS` (R10), and the `MIDI8` rows. -/
def writesRs : Instr → Bool
  | .frmReset | .frmResolve _ | .frmNext _ => true
  | .stRt _ | .stSysex | .stQf | .stSpp | .stSs | .stEox | .stSyscomOther _ | .stCvPc _ | .stCvCp _
  | .stCvOther _ _ | .midiData _ => true
  | _ => false

/-- What a consumer issues: `CPB.COUNT`, `CPB.POP`, and `TX.BYTES`, which is `UMP.ENCODE` (R96, R81). -/
def consumes : Instr → Bool
  | .cpbPop _ | .cpbCount | .umpEncode _ => true
  | _ => false

/-- A response's numeric fields fit the widths of R44, and its counts are those of the sequences returned. -/
def Response.fits (c : Config) : Response → Prop
  | .cpbPush evicted _ => evicted < 2 ^ c.posW
  | .cpbPop n out => n < 2 ^ c.lenW ∧ out.length = n
  | .cpbCount count => count < 2 ^ c.posW
  | .frmMsglen _ len => len < 2 ^ 2
  | .frmNext _ consumed n msg => consumed < 2 ^ c.lenW ∧ n < 2 ^ (c.lenW + 1) ∧ msg.length = n
  | .umpDecode n _ out => n < 2 ^ 2 ∧ out.length = n
  | .umpEncode nwords _ words => nwords < 2 ^ c.lenW ∧ words.length = nwords
  | .midiByte _ _ _ len => len < 2 ^ 2
  | _ => True

end Sys2Proof.Machine
end

