-- ==== Sys2Proof/Certificates/Slice0/Obligations.lean ====
section
/-! DEFINITION. The statements for the provers. A statement that opens with a rule R<n> of spec/ formalises it; where it rests
on a choice of the model, its docstring names the log entry. -/

open Sys2Proof Sys2Proof.Machine

/-! ### Encodings -/

/-- Decoding gives back every encoded well-formed instruction, every operand at every value, whatever the block's
status values are (R42, R45, R48; U1). -/
def Obligations.DecodeOfEncodeIsTheInstruction : Prop :=
  ∀ (v : StatusTable) (i : Instr), v.wf = true → i.wf v = true → decode v (encode v i) = .ok i

/-- The decoders are total and lose no bit (R40): every byte and every UMP word decodes to a well-formed instruction
whose encoding is that byte or word, and every command word with the payload it asks for decodes to a
well-formed instruction whose encoding is that word, with that payload unless the word is reserved and takes
none (R43). -/
def Obligations.EveryWordDecodesAndReadsBack : Prop :=
  ∀ v : StatusTable,
    (∀ b : Byte, ∃ i, decode v (.midi8 b) = .ok i ∧ i.wf v = true ∧ encode v i = .midi8 b) ∧
    (∀ w : Word, ∃ i, decode v (.ump32 w) = .ok i ∧ i.wf v = true ∧ encode v i = .ump32 w) ∧
    (∀ (w : Word) (bytes : List Byte) (words : List Word),
      bytes.length = payloadBytes w → words.length = payloadWords w →
      ∃ i, decode v (.cmd32 w bytes words) = .ok i ∧ i.wf v = true ∧
        (¬ ReservedWord w → encode v i = .cmd32 w bytes words) ∧
        (ReservedWord w → encode v i = .cmd32 w [] []))

/-- What the decoder reads from a word is the first row of the opcode table that the word selects, in each of the
three formats (R42 and the table's priority order), with the default status values that the table's patterns carry (log
entry 12). -/
def Obligations.DecoderFollowsTheOpcodeTable : Prop :=
  (∀ (w : Word) (bytes : List Byte) (words : List Word) (i : Instr),
    decode StatusTable.default (.cmd32 w bytes words) = .ok i → selectRow cmdRows w = some i.mnemonic) ∧
  (∀ (b : Byte) (i : Instr), decode StatusTable.default (.midi8 b) = .ok i → selectRow midiRows b = some i.mnemonic) ∧
  (∀ (w : Word) (i : Instr), decode StatusTable.default (.ump32 w) = .ok i → selectRow umpRows w = some i.mnemonic)

/-- R43, R89: the words that select no row of R42 are those R43 lists; the block answers each `illegal = 1`, takes
no payload, changes no state, and goes on to the next command. -/
def Obligations.ReservedCommandsAreAnsweredIllegal : Prop :=
  (∀ w : Word, ReservedWord w ↔ selectRow (cmdRows.take 10) w = none) ∧
  (∀ (op : BitVec 4) (a : BitVec 12) (b : BitVec 16) (s : State),
    exec (.cmdReserved op a b) s = .next (s.withResp .illegal)) ∧
  (∀ (w : Word) (bytes : List Byte) (words : List Word) (s : State) (rest : List PortEvent), ReservedWord w →
    s.port = .present (.cmd32 w bytes words) :: rest → step s = .next ((s.withPort rest).withResp .illegal))

/-- Words written out from the tables of R42, R45 and R48 decode to what they stand for. The value `0xF2` in the last is
the default of the spec's own general knowledge: log entry 12. -/
def Obligations.WordsOfTheSpecDecode : Prop :=
  decode StatusTable.default (.cmd32 0x00000000 [] []) = .ok .cpbInit ∧
  decode StatusTable.default (.cmd32 0x10000003 [0x90, 0x40, 0x7F] []) = .ok (.cpbPush [0x90, 0x40, 0x7F]) ∧
  decode StatusTable.default (.cmd32 0x20000010 [] []) = .ok (.cpbPop 16) ∧
  decode StatusTable.default (.cmd32 0x50000040 [] []) = .ok (.frmResolve 0x40) ∧
  decode StatusTable.default (.cmd32 0x80010003 [] [0x20913C64]) = .ok (.umpDecode [0x20913C64] 3) ∧
  decode StatusTable.default (.cmd32 0x10010003 [] []) = .ok (.cmdReserved 0x1 0x001 0x0003) ∧
  decode StatusTable.default (.midi8 0xFA) = .ok (.stRt 2) ∧
  decode StatusTable.default (.midi8 0x91) = .ok (.stCvOther 0x9 0x1) ∧
  decode StatusTable.default (.ump32 0x20C50700) = .ok (.umpCvPc 0 5 0x07 0x00) ∧
  decode StatusTable.default (.ump32 0x10F21020) = .ok (.umpSysSpp 0 0x10 0x20)

/-! ### Steps -/

/-- A step accepts the first transaction at the port and runs the instruction it decodes to, and nothing else, where its
operands fit the block's `LEN_W` and `WC_W` (R5, R9, R35); with widths no smaller than the command word's, the defaults
among them, every transaction that decodes is run. So is an operation that is presented without a command word (R41). -/
def Obligations.StepRunsTheDecodedInstruction : Prop :=
  (∀ (s : State) (t : Transaction) (rest : List PortEvent) (i : Instr), s.port = .present t :: rest →
    decode s.cfg.status t = .ok i → i.wfIn s.cfg = true → step s = exec i (s.withPort rest)) ∧
  (∀ (s : State) (t : Transaction) (rest : List PortEvent) (i : Instr), s.port = .present t :: rest →
    decode s.cfg.status t = .ok i → 16 ≤ s.cfg.lenW → 12 ≤ s.cfg.wcW → step s = exec i (s.withPort rest)) ∧
  (∀ (s : State) (i : Instr) (rest : List PortEvent), s.port = .operation i :: rest →
    i.wfIn s.cfg = true → step s = exec i (s.withPort rest))

/-- With nothing presented the block is idle with its state held (R97, R111). That a step of the model with nothing
presented is a next state is its choice, log entry 2. -/
def Obligations.IdleStepHoldsTheState : Prop :=
  ∀ s : State, s.port = [] → step s = .next s

/-- A step is refused in three cases only: two agents drive the port at once (R36); a command word that is not reserved
comes with a payload that is not of the size its operand gives (log entry 10, the model's choice); an operand does not
fit the block's `LEN_W` or `WC_W`, or an operation presented without a command word is no term that an encoding stands
for (log entry 1, the model's choice). -/
def Obligations.WhatAStepRefuses : Prop :=
  ∀ (s : State) (r : Refusal), step s = .refused r ↔
    (∃ t u rest, s.port = .overlap t u :: rest ∧ r = .overlappingDrive) ∨
    (∃ w bytes words rest, s.port = .present (.cmd32 w bytes words) :: rest ∧ ¬ ReservedWord w ∧
      (bytes.length ≠ payloadBytes w ∧ r = .malformedTransaction (.byteCount (payloadBytes w) bytes.length) ∨
        bytes.length = payloadBytes w ∧ words.length ≠ payloadWords w ∧
          r = .malformedTransaction (.wordCount (payloadWords w) words.length))) ∨
    (∃ i rest, ((∃ t, s.port = .present t :: rest ∧ decode s.cfg.status t = .ok i) ∨ s.port = .operation i :: rest) ∧
      i.wfIn s.cfg = false ∧ r = .operandOutOfRange)

/-- R98: hardware reset has the effect of `CPB.INIT` followed by `FRM.RESET`, and nothing more. What the port answers
to a reset is the model's choice (log entry 14) and is left open here. -/
def Obligations.HardwareResetIsInitThenFramerReset : Prop :=
  ∀ (s : State) (rest : List PortEvent), s.port = .hardReset :: rest →
    ∃ u v t, exec .cpbInit (s.withPort rest) = .next u ∧ exec .frmReset u = .next v ∧ step s = .next t ∧
      t = { v with resp := t.resp }

/-- The cursors, `RS` and the two derived quantities after reset, for all parameters (10_state.md section 8,
70_reset_and_hazards.md section 1); and the default parameters (00_scope.md section 4; the three status
values are the spec's own general knowledge, log entry 12). -/
def Obligations.ResetValuesOfTheSpec : Prop :=
  (∀ c : Config, (State.resetWith c).cfg = c ∧ (State.resetWith c).readPos = 0 ∧ (State.resetWith c).writePos = 0 ∧
    (State.resetWith c).bufOff = 0 ∧ (State.resetWith c).bufLen = 0 ∧ (State.resetWith c).rs = 0x00 ∧
    (State.resetWith c).count = 0 ∧ (State.resetWith c).bufEnd = 0) ∧
  State.reset = State.resetWith
    { arenaCap := 1024, indexSlots := 32, lenW := 16, wcW := 12,
      status := { quarterFrame := 0xF1, songPosition := 0xF2, songSelect := 0xF3 } }

/-- The state after reset satisfies the invariants (R98): with the index entries (0, 0) of log entry 7 and the unwritten arena
of log entry 8, which are the model's choices, and, for all admissible parameters, with any contents of the two memories,
which R99 leaves unspecified. -/
def Obligations.ResetIsGood : Prop :=
  State.reset.Inv ∧
  ∀ (c : Config) (ring : List IdxEntry) (bytes : Memory), c.wf = true → ring.length = c.indexSlots →
    (∀ e ∈ ring, e.off < 2 ^ c.offW ∧ e.len < 2 ^ c.occW) → Memory.wf bytes = true →
    (∀ b ∈ bytes, b.1 < c.arenaCap) → { State.resetWith c with idx := ring, arena := bytes }.Inv

/-- Every step from a good state, whatever stands at the port, leads to a good state (R23, R24). -/
def Obligations.StepKeepsTheInvariants : Prop :=
  ∀ s t : State, s.Inv → step s = .next t → t.Inv

/-- No operation raises an exception, traps, faults, blocks or halts: in a good state every instruction, with every
operand, completes with a response and leaves a good state (R83, R93). -/
def Obligations.EveryInstructionCompletesInAGoodState : Prop :=
  ∀ (i : Instr) (s : State), s.Inv → ∃ t r, exec i s = .next t ∧ t.resp = some r ∧ t.Inv

/-- A step from a good state never faults (R83). -/
def Obligations.StepNeverFaultsInAGoodState : Prop :=
  ∀ (s : State) (f : Fault), s.Inv → step s ≠ .fault f

/-- Which instructions write which piece of state (10_state.md sections 1 to 4; the `MIDI8` rows by log entry 4); no
instruction changes a parameter or what else stands at the port. -/
def Obligations.WhoWritesWhat : Prop :=
  ∀ (i : Instr) (s t : State), exec i s = .next t →
    (t.rs ≠ s.rs → writesRs i = true) ∧
    (t.arena ≠ s.arena → ∃ d, i = .cpbPush d) ∧
    (t.idx ≠ s.idx → ∃ d, i = .cpbPush d) ∧
    (t.writePos ≠ s.writePos → i = .cpbInit ∨ ∃ d, i = .cpbPush d) ∧
    (t.readPos ≠ s.readPos ∨ t.bufOff ≠ s.bufOff ∨ t.bufLen ≠ s.bufLen →
      i = .cpbInit ∨ (∃ d, i = .cpbPush d) ∨ ∃ cap, i = .cpbPop cap) ∧
    t.cfg = s.cfg ∧ t.port = s.port

/-- Each step accepts exactly one event of the port, and the parameters never change (R5, R19, R35). -/
def Obligations.StepTakesOneEventAndKeepsTheParameters : Prop :=
  ∀ s t : State, step s = .next t → t.port = s.port.tail ∧ t.cfg = s.cfg

/-- No operation reads an earlier one's outcome (R20): what an instruction does is the same whatever the response
before it was. -/
def Obligations.NoInstructionReadsTheLastResponse : Prop :=
  ∀ (i : Instr) (s : State) (r : Response), exec i (s.withResp r) = exec i s

/-- Stale arena bytes and stale index entries never show (R22 (a)): from two good states that differ at most in
them, every instruction gives the same response and again two such states. -/
def Obligations.StaleContentsNeverShow : Prop :=
  ∀ (i : Instr) (s t : State), s.Inv → t.Inv → s.SameLive t →
    ∃ s' t', exec i s = .next s' ∧ exec i t = .next t' ∧ s'.resp = t'.resp ∧ s'.SameLive t'

/-- In a good state the registers fit the widths of R10. -/
def Obligations.RegistersFitTheirWidths : Prop :=
  ∀ s : State, s.Inv →
    s.readPos < 2 ^ s.cfg.posW ∧ s.writePos < 2 ^ s.cfg.posW ∧ s.bufOff < 2 ^ s.cfg.offW ∧
    s.bufLen < 2 ^ s.cfg.occW ∧ ∀ e ∈ s.idx, e.off < 2 ^ s.cfg.offW ∧ e.len < 2 ^ s.cfg.occW

/-- In a good state every response to an instruction whose operands fit the block's widths fits the widths of R44. -/
def Obligations.ResponsesFitTheirWidths : Prop :=
  ∀ (i : Instr) (s t : State) (r : Response), s.Inv → i.wfIn s.cfg = true → exec i s = .next t →
    t.resp = some r → r.fits s.cfg

/-- From any cursors and any running status, `CPB.INIT` and `FRM.RESET`, in either order, give a good, empty state, given
only that the memories are in their own form (R100). -/
def Obligations.InitAndFramerResetMakeAnyStateGood : Prop :=
  ∀ s : State, s.cfg.wf = true → s.idx.length = s.cfg.indexSlots →
    (∀ e ∈ s.idx, e.off < 2 ^ s.cfg.offW ∧ e.len < 2 ^ s.cfg.occW) →
    Memory.wf s.arena = true → (∀ c ∈ s.arena, c.1 < s.cfg.arenaCap) →
    (∃ t u, exec .cpbInit s = .next t ∧ exec .frmReset t = .next u ∧ u.Inv ∧ u.packets = [] ∧ u.rs = 0x00) ∧
    (∃ t u, exec .frmReset s = .next t ∧ exec .cpbInit t = .next u ∧ u.Inv ∧ u.packets = [] ∧ u.rs = 0x00)

/-! ### The Circular Packet Buffer -/

/-- R57: `CPB.INIT` sets the four cursors to 0 and changes nothing else; a second one changes nothing more. -/
def Obligations.InitEmptiesTheBuffer : Prop :=
  ∀ s : State, ∃ t, exec .cpbInit s = .next t ∧
    t = { s with readPos := 0, writePos := 0, bufOff := 0, bufLen := 0, resp := some .cpbInit } ∧
    exec .cpbInit t = .next t ∧ t.count = 0

/-- R90: a push of no bytes, or of more than the arena holds, is dropped with no state change. -/
def Obligations.PushOutsideTheDataModelIsDropped : Prop :=
  ∀ (d : List Byte) (s : State), (d.length = 0 ∨ s.cfg.arenaCap < d.length) →
    exec (.cpbPush d) s = .next (s.withResp (.cpbPush 0 true))

/-- A push that finds room evicts nothing: the payload is stored from `buf_end` on, its entry at `write_pos`, and two
cursors move; the state need not be a good one (R58 step 3). -/
def Obligations.PushWithRoomEvictsNothing : Prop :=
  ∀ (d : List Byte) (s : State), 1 ≤ d.length →
    (s.writePos + 1) % s.cfg.indexSlots ≠ s.readPos → s.bufLen + d.length ≤ s.cfg.arenaCap →
    exec (.cpbPush d) s = .next { s with
      arena := memWrite s.cfg.arenaCap s.arena ((s.bufOff + s.bufLen) % s.cfg.arenaCap) d
      idx := s.idx.set s.writePos ⟨(s.bufOff + s.bufLen) % s.cfg.arenaCap, d.length⟩
      writePos := (s.writePos + 1) % s.cfg.indexSlots
      bufLen := s.bufLen + d.length
      resp := some (.cpbPush 0 false) }

/-- A push of an admissible length evicts the `k` oldest packets, `k` the least number that leaves a free slot and room
for the bytes, reports `k`, and appends the packet; the packets are those of the queue before, less the evicted
ones (R58, R62 (e), R85). -/
def Obligations.PushEvictsTheFewestOldestAndAppends : Prop :=
  ∀ (d : List Byte) (s : State), s.Inv → 1 ≤ d.length → d.length ≤ s.cfg.arenaCap →
    ∃ k t, exec (.cpbPush d) s = .next t ∧ t.resp = some (.cpbPush k false) ∧
      t.packets = s.packets.drop k ++ [d] ∧
      k ≤ s.packets.length ∧ s.RoomAfter k d.length ∧ ∀ j < k, ¬ s.RoomAfter j d.length

/-- Where a push stores and what it leaves: with `k` packets evicted, the cursors move as R58 says, the payload's byte
`i` stands at `(buf_end + i) mod ARENA_CAP`, every other arena offset reads as before, only the entry at
`write_pos` is written, and `RS`, the parameters and the port are untouched. -/
def Obligations.PushCursorsStoresAndFrame : Prop :=
  ∀ (d : List Byte) (s : State), s.Inv → 1 ≤ d.length → d.length ≤ s.cfg.arenaCap →
    ∃ k t, exec (.cpbPush d) s = .next t ∧ t.resp = some (.cpbPush k false) ∧
      t.readPos = (s.readPos + k) % s.cfg.indexSlots ∧
      t.writePos = (s.writePos + 1) % s.cfg.indexSlots ∧
      t.bufOff = (s.bufOff + ((s.packets.take k).map List.length).sum) % s.cfg.arenaCap ∧
      t.bufLen = ((s.packets.drop k).map List.length).sum + d.length ∧
      (∀ i < d.length, Memory.read t.arena ((s.bufEnd + i) % s.cfg.arenaCap) = d[i]?) ∧
      (∀ a, (∀ i < d.length, a ≠ (s.bufEnd + i) % s.cfg.arenaCap) →
        Memory.read t.arena a = Memory.read s.arena a) ∧
      t.idx = s.idx.set s.writePos ⟨s.bufEnd, d.length⟩ ∧
      t.rs = s.rs ∧ t.cfg = s.cfg ∧ t.port = s.port

/-- R59: a pop of an empty buffer gives nothing and changes nothing; otherwise it delivers the first
`min(cap, len)` bytes of the oldest packet and retires it in full, and changes nothing but the three cursors. -/
def Obligations.PopDeliversAndRetiresTheOldest : Prop :=
  (∀ (cap : Nat) (s : State), s.readPos = s.writePos →
    exec (.cpbPop cap) s = .next (s.withResp (.cpbPop 0 []))) ∧
  (∀ (cap : Nat) (s : State) (p : List Byte) (ps : List (List Byte)), s.Inv → s.packets = p :: ps →
    ∃ t, exec (.cpbPop cap) s = .next t ∧
      t = { s with
        readPos := (s.readPos + 1) % s.cfg.indexSlots
        bufOff := (s.bufOff + p.length) % s.cfg.arenaCap
        bufLen := s.bufLen - p.length
        resp := some (.cpbPop (min cap p.length) (p.take cap)) } ∧
      t.packets = ps)

/-- R60: `CPB.COUNT` answers `(write_pos - read_pos) mod INDEX_SLOTS`, which is below `INDEX_SLOTS`, and changes nothing;
in a good state that is the number of live packets. -/
def Obligations.CountIsTheNumberOfLivePackets : Prop :=
  ∀ s : State, 0 < s.cfg.indexSlots →
    ∃ n : Nat, exec .cpbCount s = .next (s.withResp (.cpbCount n)) ∧
      (n : Int) = ((s.writePos : Int) - (s.readPos : Int)) % (s.cfg.indexSlots : Int) ∧
      n < s.cfg.indexSlots ∧ (s.Inv → n = s.packets.length)

/-- From an empty buffer, packets that fit together are all pushed without eviction and then popped in order with
identical bytes, each by a pop with capacity enough (R62 (a)). -/
def Obligations.FifoDeliversEverythingInOrder : Prop :=
  ∀ (s : State) (ps : List (List Byte)) (caps : List Nat), s.Inv → s.packets = [] →
    (∀ p ∈ ps, 1 ≤ p.length) → (ps.map List.length).sum ≤ s.cfg.arenaCap → ps.length ≤ s.cfg.pktMax →
    List.Forall₂ (fun p cap => p.length ≤ cap) ps caps →
    ∃ t, issueAll (ps.map Instr.cpbPush ++ caps.map Instr.cpbPop) s =
      .next (ps.map (fun _ => some (.cpbPush 0 false)) ++ ps.map (fun p => some (.cpbPop p.length p)), t) ∧
      t.packets = []

/-- Pushing one packet more than the ring holds, the arena having room, evicts exactly the oldest: the count is
unchanged, and the next pop returns the packet after it (R62 (b)). -/
def Obligations.OneMoreThanTheRingEvictsTheOldest : Prop :=
  ∀ (s : State) (d q : List Byte) (cap : Nat), s.Inv → s.packets.length = s.cfg.pktMax → 1 ≤ d.length →
    ((s.packets.drop 1).map List.length).sum + d.length ≤ s.cfg.arenaCap →
    (s.packets.drop 1 ++ [d]).head? = some q →
    ∃ t u, exec (.cpbPush d) s = .next t ∧ t.resp = some (.cpbPush 1 false) ∧ t.count = s.count ∧
      exec (.cpbPop cap) t = .next u ∧ u.resp = some (.cpbPop (min cap q.length) (q.take cap))

/-- A pop with less capacity than the packet has returns exactly that many bytes, and the next pop returns the packet
that followed, not the remainder (R62 (c), R104). -/
def Obligations.TruncatedPopLosesTheRest : Prop :=
  ∀ (s : State) (p q : List Byte) (ps : List (List Byte)) (c1 c2 : Nat), s.Inv → s.packets = p :: q :: ps →
    c1 < p.length →
    ∃ t u out, exec (.cpbPop c1) s = .next t ∧ t.resp = some (.cpbPop c1 out) ∧
      out = p.take c1 ∧ out.length = c1 ∧
      exec (.cpbPop c2) t = .next u ∧ u.resp = some (.cpbPop (min c2 q.length) (q.take c2))

/-- A packet whose bytes cross the arena's end comes back unsplit (R28, R62 (d)). -/
def Obligations.WrappingPacketComesBackUnsplit : Prop :=
  ∀ (s : State) (d : List Byte) (cap : Nat), s.Inv → s.packets = [] → d.length ≤ s.cfg.arenaCap →
    s.cfg.arenaCap < s.bufOff + d.length → d.length ≤ cap →
    ∃ t u, exec (.cpbPush d) s = .next t ∧ exec (.cpbPop cap) t = .next u ∧
      u.resp = some (.cpbPop d.length d)

/-- `n = 0` from a pop means an empty buffer when the capacity is at least 1, and says nothing when it is 0, though the
oldest packet is retired all the same (R105). -/
def Obligations.ZeroBytesPoppedMeansEmptyUnlessCapacityIsZero : Prop :=
  ∀ (cap : Nat) (s : State), s.Inv →
    ∃ t n out, exec (.cpbPop cap) s = .next t ∧ t.resp = some (.cpbPop n out) ∧ t.packets = s.packets.tail ∧
      (1 ≤ cap → (n = 0 ↔ s.packets = [])) ∧ (cap = 0 → n = 0)

/-- At most `min(INDEX_SLOTS - 1, ARENA_CAP)` packets are live; the occupancy is the sum of their lengths, is at most
`ARENA_CAP`, and is 0 just when no packet is live (R23 (a), (b), (f)). -/
def Obligations.LivePacketsAreBounded : Prop :=
  ∀ s : State, s.Inv → s.packets.length ≤ min s.cfg.pktMax s.cfg.arenaCap ∧
    s.bufLen = (s.packets.map List.length).sum ∧ s.bufLen ≤ s.cfg.arenaCap ∧
    (s.bufLen = 0 ↔ s.packets = []) ∧ (s.readPos = s.writePos ↔ s.packets = [])

/-! ### The Message Framer -/

/-- R65: `FRM.RESET` clears the running status and changes nothing else; it is idempotent. -/
def Obligations.FramerResetClearsRunningStatus : Prop :=
  ∀ s : State, ∃ t, exec .frmReset s = .next t ∧ t = { s with rs := 0x00, resp := some .frmReset } ∧
    exec .frmReset t = .next t

/-- R66: the effective status and the running status of each of the four classes of a leading byte; nothing else
changes. -/
def Obligations.ResolveFollowsTheByteClass : Prop :=
  ∀ (b : Byte) (s : State),
    (0xF8 ≤ b.toNat → exec (.frmResolve b) s = .next (s.withResp (.frmResolve true b))) ∧
    (0xF0 ≤ b.toNat → b.toNat ≤ 0xF7 →
      exec (.frmResolve b) s = .next ((s.withRs 0x00).withResp (.frmResolve true b))) ∧
    (0x80 ≤ b.toNat → b.toNat ≤ 0xEF →
      exec (.frmResolve b) s = .next ((s.withRs b).withResp (.frmResolve true b))) ∧
    (b.toNat < 0x80 → s.rs = 0x00 → exec (.frmResolve b) s = .next (s.withResp (.frmResolve false 0x00))) ∧
    (b.toNat < 0x80 → s.rs ≠ 0x00 → exec (.frmResolve b) s = .next (s.withResp (.frmResolve true s.rs)))

/-- The length of a message by its effective status, nothing written (41_framer.md section 3). The statuses of Quarter-Frame,
Song-Position and Song-Select are parameters (U1) with three different values among `0xF1..0xF6`: log entry 12. -/
def Obligations.MessageLengthByStatus : Prop :=
  ∀ (st : Byte) (s : State) (v : StatusTable), s.cfg.status = v → v.wf = true →
    (st.toNat < 0x80 → exec (.frmMsglen st) s = .next (s.withResp (.frmMsglen false 0))) ∧
    (0x80 ≤ st.toNat → st.toNat ≤ 0xBF → exec (.frmMsglen st) s = .next (s.withResp (.frmMsglen true 3))) ∧
    (0xC0 ≤ st.toNat → st.toNat ≤ 0xDF → exec (.frmMsglen st) s = .next (s.withResp (.frmMsglen true 2))) ∧
    (0xE0 ≤ st.toNat → st.toNat ≤ 0xEF → exec (.frmMsglen st) s = .next (s.withResp (.frmMsglen true 3))) ∧
    (st.toNat = 0xF0 → exec (.frmMsglen st) s = .next (s.withResp (.frmMsglen true 0))) ∧
    (st = v.quarterFrame ∨ st = v.songSelect → exec (.frmMsglen st) s = .next (s.withResp (.frmMsglen true 2))) ∧
    (st = v.songPosition → exec (.frmMsglen st) s = .next (s.withResp (.frmMsglen true 3))) ∧
    (0xF1 ≤ st.toNat → st ≠ v.quarterFrame → st ≠ v.songPosition → st ≠ v.songSelect →
      exec (.frmMsglen st) s = .next (s.withResp (.frmMsglen true 1)))

/-- What `FRM.NEXT` frames from the front of a byte sequence: nothing from an empty one; one byte lost to a framing
error; a system exclusive message up to its first `0xF7`; a message with explicit status; a message with the running
status put in front; and `INCOMPLETE` with nothing consumed where the sequence is too short. `RS` is written as
`FRM.RESOLVE` writes it, whatever the outcome, and nothing else changes. -/
def Obligations.NextFramesOneMessage : Prop :=
  ∀ s : State,
    exec (.frmNext []) s = .next (s.withResp (.frmNext .incomplete 0 0 [])) ∧
    (∀ (b : Byte) (t : List Byte), b.toNat < 0x80 → s.rs = 0x00 →
      exec (.frmNext (b :: t)) s = .next (s.withResp (.frmNext .framingError 1 0 []))) ∧
    (∀ t : List Byte, (0xF7 : Byte) ∉ t →
      exec (.frmNext (0xF0 :: t)) s = .next ((s.withRs 0x00).withResp (.frmNext .incomplete 0 0 []))) ∧
    (∀ u v : List Byte, (0xF7 : Byte) ∉ u →
      exec (.frmNext (0xF0 :: (u ++ 0xF7 :: v))) s =
        .next ((s.withRs 0x00).withResp
          (.frmNext .ok (u.length + 2) (u.length + 2) (0xF0 :: (u ++ [0xF7]))))) ∧
    (∀ (b : Byte) (t : List Byte), 0x80 ≤ b.toNat → b ≠ 0xF0 →
      exec (.frmNext (b :: t)) s =
        .next ((s.withRs (if 0xF8 ≤ b.toNat then s.rs else if 0xF0 ≤ b.toNat then 0x00 else b)).withResp
          (if t.length + 1 < (msgLen s.cfg.status b).len then .frmNext .incomplete 0 0 []
            else .frmNext .ok (msgLen s.cfg.status b).len (msgLen s.cfg.status b).len ((b :: t).take (msgLen s.cfg.status b).len)))) ∧
    (∀ (b : Byte) (t : List Byte), b.toNat < 0x80 → s.rs ≠ 0x00 → legalRs s.rs = true →
      exec (.frmNext (b :: t)) s =
        .next (s.withResp
          (if t.length + 2 < (msgLen s.cfg.status s.rs).len then .frmNext .incomplete 0 0 []
            else .frmNext .ok ((msgLen s.cfg.status s.rs).len - 1) (msgLen s.cfg.status s.rs).len
              (s.rs :: (b :: t).take ((msgLen s.cfg.status s.rs).len - 1)))))

/-- The framer touches nothing but `RS`: every instruction that may write it completes in every state, and leaves the
buffer, the parameters and the port as they were (R2, R10, R66, R68; the `MIDI8` rows by log entry 4). -/
def Obligations.FramerTouchesOnlyRunningStatus : Prop :=
  ∀ (i : Instr) (s : State), writesRs i = true →
    ∃ (v : Byte) (r : Response), exec i s = .next { s with rs := v, resp := some r }

/-- A framing error leaves the framer usable: `RS` stays none, the next channel-voice byte sets it, and any status byte is
resolved (R70, R84). -/
def Obligations.FramingErrorRecovers : Prop :=
  ∀ (s : State) (b c : Byte), s.rs = 0x00 → b.toNat < 0x80 → 0x80 ≤ c.toNat →
    ∃ t u, exec (.frmResolve b) s = .next t ∧ t = s.withResp (.frmResolve false 0x00) ∧
      exec (.frmResolve c) t = .next u ∧ u.resp = some (.frmResolve true c) ∧ (c.toNat ≤ 0xEF → u.rs = c)

/-- Framing a stream of well-formed messages gives back the messages, each with its explicit status, in order, and nothing
else, whichever of the statuses that may be left out the sender leaves out: some (R69 (a)), or none (R69 (b)). Realtime
messages among them come back as themselves (R69 (c)). No message is longer than one payload can hold (R68); a stream that
is longer than that is presented cut, the model's choice of log entry 19. -/
def Obligations.FramingUndoesRunningStatus : Prop :=
  ∀ (s : State) (ms : List (List Byte × Bool)), legalRs s.rs = true →
    (∀ m ∈ ms, wellFormedMessage s.cfg.status m.1 = true ∧ m.1.length < 2 ^ s.cfg.lenW) →
    ∃ rs t, frameStream ((compress s.rs ms).length + 1) (compress s.rs ms) s = .next (rs, t) ∧
      rs.map Response.framed = ms.map (fun m => some (.ok, m.1)) ++ [some (.incomplete, [])]

/-! ### The UMP codec -/

/-- R75: the codec is stateless: what either of its operations answers depends on its operands alone, and on the block's
status values, which are a parameter (U1), and neither changes anything. -/
def Obligations.CodecIsStateless : Prop :=
  (∀ (v : StatusTable) (words : List Word) (cap : Nat), ∃ r : Response, ∀ s : State, s.cfg.status = v →
    exec (.umpDecode words cap) s = .next (s.withResp r)) ∧
  (∀ bytes : List Byte, ∃ r : Response, ∀ s : State, exec (.umpEncode bytes) s = .next (s.withResp r))

/-- What `UMP.DECODE` makes of a packet, its fields read by arithmetic on the word (42_ump.md section 1). The statuses of
Quarter-Frame, Song-Position and Song-Select are parameters (U1) with three different values among `0xF1..0xF6`: log
entry 12. -/
def Obligations.DecodeByTypeAndStatus : Prop :=
  ∀ (w : Word) (ws : List Word) (cap : Nat) (s : State) (v : StatusTable) (mt : Nat) (b0 b1 b2 : Byte),
    s.cfg.status = v → v.wf = true →
    mt = w.toNat / 2 ^ 28 → b0 = BitVec.ofNat 8 (w.toNat / 2 ^ 16) → b1 = BitVec.ofNat 8 (w.toNat / 2 ^ 8) →
    b2 = BitVec.ofNat 8 w.toNat →
    exec (.umpDecode [] cap) s = .next (s.withResp (.umpDecode 0 false [])) ∧
    (mt ≠ 1 → mt ≠ 2 → exec (.umpDecode (w :: ws) cap) s = .next (s.withResp (.umpDecode 0 true []))) ∧
    (mt = 1 → b0 = v.quarterFrame ∨ b0 = v.songSelect → exec (.umpDecode (w :: ws) cap) s =
      .next (s.withResp (.umpDecode (min cap 2) false ([b0, b1].take cap)))) ∧
    (mt = 1 → b0 = v.songPosition → exec (.umpDecode (w :: ws) cap) s =
      .next (s.withResp (.umpDecode (min cap 3) false ([b0, b1, b2].take cap)))) ∧
    (mt = 1 → b0 ≠ v.quarterFrame → b0 ≠ v.songPosition → b0 ≠ v.songSelect → exec (.umpDecode (w :: ws) cap) s =
      .next (s.withResp (.umpDecode (min cap 1) false ([b0].take cap)))) ∧
    (mt = 2 → b0.toNat / 16 = 0xC ∨ b0.toNat / 16 = 0xD → exec (.umpDecode (w :: ws) cap) s =
      .next (s.withResp (.umpDecode (min cap 2) false ([b0, b1].take cap)))) ∧
    (mt = 2 → b0.toNat / 16 ≠ 0xC → b0.toNat / 16 ≠ 0xD → exec (.umpDecode (w :: ws) cap) s =
      .next (s.withResp (.umpDecode (min cap 3) false ([b0, b1, b2].take cap))))

/-- R72: a sequence that starts with `0xF0` is rejected; any other is packed three bytes to a word, each word's type
selected by its first byte, group 0, unused bytes 0. -/
def Obligations.EncodePacksThreeBytesToAWord : Prop :=
  (∀ (bs : List Byte) (s : State),
    exec (.umpEncode (0xF0 :: bs)) s = .next (s.withResp (.umpEncode 0 true []))) ∧
  (∀ (bytes : List Byte) (s : State), bytes.head? ≠ some 0xF0 →
    ∃ ws : List Word, exec (.umpEncode bytes) s =
        .next (s.withResp (.umpEncode ((bytes.length + 2) / 3) false ws)) ∧
      ws.length = (bytes.length + 2) / 3 ∧
      ∀ k < ws.length, (ws.getD k 0).toNat =
        (if bytes.getD (3 * k) 0 = 0xF7 then 3
          else if 0xF0 ≤ (bytes.getD (3 * k) 0).toNat then 1 else 2) * 2 ^ 28 +
        (bytes.getD (3 * k) 0).toNat * 2 ^ 16 + (bytes.getD (3 * k + 1) 0).toNat * 2 ^ 8 +
        (bytes.getD (3 * k + 2) 0).toNat)

/-- Encoding one proper message gives one word, and decoding that word with capacity enough gives the message back
(R73). -/
def Obligations.MessageSurvivesTheUmpRoundTrip : Prop :=
  ∀ (m : List Byte) (s t : State), properMessage t.cfg.status m = true →
    ∃ w : Word, exec (.umpEncode m) s = .next (s.withResp (.umpEncode 1 false [w])) ∧
      ∀ cap : Nat, m.length ≤ cap →
        exec (.umpDecode [w] cap) t = .next (t.withResp (.umpDecode m.length false m))

/-- In the other direction: a type 1 or 2 word of group 0 with a proper status and unused bytes 0 decodes to bytes that
encode to the word again; `0xF0` and `0xF7` in a type 1 word do not (R73). The statuses of Quarter-Frame,
Song-Position and Song-Select are parameters (U1): log entry 12. -/
def Obligations.ProperWordSurvivesTheUmpRoundTrip : Prop :=
  (∀ (mt : BitVec 4) (b0 b1 b2 : Byte) (s : State) (v : StatusTable), s.cfg.status = v → v.wf = true →
    (mt = 1 ∧ 0xF1 ≤ b0.toNat ∧ b0 ≠ 0xF7 ∧ (b0 = v.quarterFrame ∨ b0 = v.songSelect → b2 = 0) ∧
      (b0 ≠ v.quarterFrame → b0 ≠ v.songPosition → b0 ≠ v.songSelect → b1 = 0 ∧ b2 = 0) ∨
     mt = 2 ∧ 0x80 ≤ b0.toNat ∧ b0.toNat ≤ 0xEF ∧ (b0.toNat / 16 = 0xC ∨ b0.toNat / 16 = 0xD → b2 = 0)) →
    ∃ m : List Byte,
      exec (.umpDecode [umpWord mt 0 b0 b1 b2] 3) s = .next (s.withResp (.umpDecode m.length false m)) ∧
      exec (.umpEncode m) s = .next (s.withResp (.umpEncode 1 false [umpWord mt 0 b0 b1 b2]))) ∧
  (∀ s : State, s.cfg.status.wf = true →
    exec (.umpDecode [0x10F00000] 3) s = .next (s.withResp (.umpDecode 1 false [0xF0])) ∧
    exec (.umpEncode [0xF0]) s = .next (s.withResp (.umpEncode 0 true [])) ∧
    exec (.umpDecode [0x10F70000] 3) s = .next (s.withResp (.umpDecode 1 false [0xF7])) ∧
    exec (.umpEncode [0xF7]) s = .next (s.withResp (.umpEncode 1 false [0x30F70000])))

/-- R76: the decoder accepts any group and discards it; the encoder writes group 0 in every word. -/
def Obligations.GroupIsDiscardedAndWrittenZero : Prop :=
  (∀ (mt g g' : BitVec 4) (b0 b1 b2 : Byte) (ws : List Word) (cap : Nat) (s : State),
    ∃ r : Response, exec (.umpDecode (umpWord mt g b0 b1 b2 :: ws) cap) s = .next (s.withResp r) ∧
      exec (.umpDecode (umpWord mt g' b0 b1 b2 :: ws) cap) s = .next (s.withResp r)) ∧
  (∀ (bytes : List Byte) (s : State), ∃ (n : Nat) (u : Bool) (ws : List Word),
    exec (.umpEncode bytes) s = .next (s.withResp (.umpEncode n u ws)) ∧
      ∀ w ∈ ws, w.toNat / 2 ^ 24 % 16 = 0)

/-- R74: system exclusive is rejected in both directions, with no state change; a lone `0xF7` encodes to a type 3
word. -/
def Obligations.SysexIsRejectedBothWays : Prop :=
  (∀ (w : Word) (ws : List Word) (cap : Nat) (s : State), w.toNat / 2 ^ 28 = 3 →
    exec (.umpDecode (w :: ws) cap) s = .next (s.withResp (.umpDecode 0 true []))) ∧
  (∀ (bs : List Byte) (s : State),
    exec (.umpEncode (0xF0 :: bs)) s = .next (s.withResp (.umpEncode 0 true []))) ∧
  (∀ s : State, exec (.umpEncode [0xF7]) s = .next (s.withResp (.umpEncode 1 false [0x30F70000])))

/-! ### Repetition -/

/-- The operations that R33 calls idempotent, or says give the same answer when repeated: done again, each answers the same
and changes nothing more. -/
def Obligations.RepeatingChangesNothing : Prop :=
  ∀ (i : Instr) (s : State),
    (i = .cpbInit ∨ i = .cpbCount ∨ i = .frmReset ∨ (∃ b, i = .frmResolve b) ∨ (∃ st, i = .frmMsglen st) ∨
      (∃ ws cap, i = .umpDecode ws cap) ∨ (∃ bs, i = .umpEncode bs)) →
    ∃ t, exec i s = .next t ∧ exec i t = .next t

/-! ### The rows of the two other formats

That a `MIDI8` byte and a `UMP32` word are executed by themselves is the model's choice: log entries 4 and 5. -/

/-- The `MIDI8` rows: what `FRM.RESOLVE` and `FRM.MSGLEN` do with the row's byte, as the table's notes say (log entry
4). The statuses of Quarter-Frame, Song-Position and Song-Select are parameters (U1), whose default values the table's
patterns carry: log entry 12. -/
def Obligations.MidiRowsFollowTheTable : Prop :=
  ∀ s : State, s.cfg.status.wf = true →
    (∀ v : BitVec 3, exec (.stRt v) s =
      .next (s.withResp (.midiByte true (BitVec.ofNat 8 (0xF8 + v.toNat)) true 1))) ∧
    exec .stSysex s = .next ((s.withRs 0x00).withResp (.midiByte true 0xF0 true 0)) ∧
    exec .stQf s = .next ((s.withRs 0x00).withResp (.midiByte true s.cfg.status.quarterFrame true 2)) ∧
    exec .stSpp s = .next ((s.withRs 0x00).withResp (.midiByte true s.cfg.status.songPosition true 3)) ∧
    exec .stSs s = .next ((s.withRs 0x00).withResp (.midiByte true s.cfg.status.songSelect true 2)) ∧
    exec .stEox s = .next ((s.withRs 0x00).withResp (.midiByte true 0xF7 true 1)) ∧
    (∀ v : BitVec 3, (Instr.stSyscomOther v).wf s.cfg.status = true → exec (.stSyscomOther v) s =
      .next ((s.withRs 0x00).withResp (.midiByte true (BitVec.ofNat 8 (0xF0 + v.toNat)) true 1))) ∧
    (∀ c : BitVec 4, exec (.stCvPc c) s =
      .next ((s.withRs (BitVec.ofNat 8 (0xC0 + c.toNat))).withResp
        (.midiByte true (BitVec.ofNat 8 (0xC0 + c.toNat)) true 2))) ∧
    (∀ c : BitVec 4, exec (.stCvCp c) s =
      .next ((s.withRs (BitVec.ofNat 8 (0xD0 + c.toNat))).withResp
        (.midiByte true (BitVec.ofNat 8 (0xD0 + c.toNat)) true 2))) ∧
    (∀ k c : BitVec 4, (Instr.stCvOther k c).wf s.cfg.status = true → exec (.stCvOther k c) s =
      .next ((s.withRs (BitVec.ofNat 8 (16 * k.toNat + c.toNat))).withResp
        (.midiByte true (BitVec.ofNat 8 (16 * k.toNat + c.toNat)) true 3))) ∧
    (∀ v : BitVec 7, exec (.midiData v) s =
      .next (s.withResp (if s.rs = 0x00 then .midiByte false 0x00 false 0 else .midiByte true s.rs false 0)))

/-- The `UMP32` rows: the bytes each decodes to, or none and unsupported, as the table's notes say (log entry 5).
The statuses of Quarter-Frame, Song-Position and Song-Select are parameters (U1), whose default values the table's
patterns carry: log entry 12. -/
def Obligations.UmpRowsFollowTheTable : Prop :=
  ∀ (s : State) (g : BitVec 4) (b0 b1 b2 : Byte), s.cfg.status.wf = true →
    exec (.umpSysQf g b1 b2) s = .next (s.withResp (.umpDecode 2 false [s.cfg.status.quarterFrame, b1])) ∧
    exec (.umpSysSpp g b1 b2) s = .next (s.withResp (.umpDecode 3 false [s.cfg.status.songPosition, b1, b2])) ∧
    exec (.umpSysSs g b1 b2) s = .next (s.withResp (.umpDecode 2 false [s.cfg.status.songSelect, b1])) ∧
    ((Instr.umpSysOther g b0 b1 b2).wf s.cfg.status = true →
      exec (.umpSysOther g b0 b1 b2) s = .next (s.withResp (.umpDecode 1 false [b0]))) ∧
    (∀ c : BitVec 4, exec (.umpCvPc g c b1 b2) s =
      .next (s.withResp (.umpDecode 2 false [BitVec.ofNat 8 (0xC0 + c.toNat), b1]))) ∧
    (∀ c : BitVec 4, exec (.umpCvCp g c b1 b2) s =
      .next (s.withResp (.umpDecode 2 false [BitVec.ofNat 8 (0xD0 + c.toNat), b1]))) ∧
    ((Instr.umpCvOther g b0 b1 b2).wf s.cfg.status = true →
      exec (.umpCvOther g b0 b1 b2) s = .next (s.withResp (.umpDecode 3 false [b0, b1, b2]))) ∧
    exec (.umpData g b0 b1 b2) s = .next (s.withResp (.umpDecode 0 true [])) ∧
    exec (.umpRsvdMt0 g b0 b1 b2) s = .next (s.withResp (.umpDecode 0 true [])) ∧
    (∀ m : BitVec 2, exec (.umpRsvdMt4To7 m g b0 b1 b2) s = .next (s.withResp (.umpDecode 0 true []))) ∧
    (∀ m : BitVec 3, exec (.umpRsvdMt8To15 m g b0 b1 b2) s = .next (s.withResp (.umpDecode 0 true [])))

/-- A byte or a UMP word executed by itself does what the operations do with it: the byte what `FRM.RESOLVE` does, with
the answers of `FRM.RESOLVE` and `FRM.MSGLEN`; the word what `UMP.DECODE` of it does with a capacity of 3 (log
entries 4 and 5). -/
def Obligations.RowsAgreeWithTheOperations : Prop :=
  (∀ (b : Byte) (i : Instr) (s : State), decode s.cfg.status (.midi8 b) = .ok i →
    ∃ (v : Byte) (valid lenValid : Bool) (status : Byte) (len : Nat),
      exec (.frmResolve b) s = .next ((s.withRs v).withResp (.frmResolve valid status)) ∧
      exec (.frmMsglen b) s = .next (s.withResp (.frmMsglen lenValid len)) ∧
      exec i s = .next ((s.withRs v).withResp (.midiByte valid status lenValid len))) ∧
  (∀ (w : Word) (i : Instr) (s : State), decode s.cfg.status (.ump32 w) = .ok i →
    ∃ r : Response, exec (.umpDecode [w] 3) s = .next (s.withResp r) ∧ exec i s = .next (s.withResp r))

/-! ### Data paths

What other hosts issue between the operations of a pseudo-operation is an argument: log entry 15. -/

/-- `RX.BYTES` of a stream, in which any of the statuses that may be left out are, buffers every message, each with
explicit status, in order, where the empty buffer has room for them; it counts them, meets no error, and leaves nothing
over (R79, R69). This is the case in which no other host's operation falls between: log entry 15. -/
def Obligations.RxBytesBuffersEveryMessage : Prop :=
  ∀ (s : State) (ms : List (List Byte × Bool)), s.Inv → s.packets = [] →
    (∀ m ∈ ms, wellFormedMessage s.cfg.status m.1 = true) →
    (ms.map fun m => m.1.length).sum ≤ s.cfg.arenaCap → ms.length ≤ s.cfg.pktMax →
    ∃ t, rxBytes [] (compress s.rs ms) s =
        .next ({ pushed := ms.length, errors := 0, evicted := 0, dropped := 0, rest := [] }, t) ∧
      t.packets = ms.map Prod.fst ∧ t.Inv

/-- `RX.UMP`, with any of a consumer's operations, `CPB.COUNT`, `CPB.POP` and `UMP.ENCODE` (R96), before and between its two
(R36; log entry 15). Every capacity is taken, those wider than `LEN_W` bits by log entry 19. A word whose type is unsupported, or a
capacity of 0, pushes nothing. A word that decodes pushes its message, cut to the capacity, behind what the consumer left
of the packets, and reports the packets evicted for it; where that is more than the arena holds, the push is issued and
dropped. `RS` is untouched (R80). With nothing between, the consumer left everything, and what pushes nothing changes
nothing. -/
def Obligations.RxUmpBuffersTheDecodedMessage : Prop :=
  ∀ (gaps : List (List Instr)) (w : Word) (cap : Nat) (s : State), s.Inv → (∀ g ∈ gaps, ∀ i ∈ g, consumes i = true) →
    (umpMessage s.cfg.status w = none → ∃ t, rxUmp gaps w cap s = .next ({ pushed := 0, unsupported := true, evicted := 0 }, t) ∧
      t.packets <:+ s.packets ∧ t.rs = s.rs ∧ t.Inv ∧ (gaps = [] → t = { s with resp := t.resp })) ∧
    (∀ m, umpMessage s.cfg.status w = some m → cap = 0 →
      ∃ t, rxUmp gaps w cap s = .next ({ pushed := 0, unsupported := false, evicted := 0 }, t) ∧
        t.packets <:+ s.packets ∧ t.rs = s.rs ∧ t.Inv ∧ (gaps = [] → t = { s with resp := t.resp })) ∧
    (∀ m, umpMessage s.cfg.status w = some m → 1 ≤ cap → s.cfg.arenaCap < (m.take cap).length →
      ∃ t, rxUmp gaps w cap s = .next ({ pushed := 1, unsupported := false, evicted := 0 }, t) ∧
        t.packets <:+ s.packets ∧ t.rs = s.rs ∧ t.Inv ∧ (gaps = [] → t = { s with resp := t.resp })) ∧
    (∀ m, umpMessage s.cfg.status w = some m → 1 ≤ cap → (m.take cap).length ≤ s.cfg.arenaCap →
      ∃ k q t, rxUmp gaps w cap s = .next ({ pushed := 1, unsupported := false, evicted := k }, t) ∧
        q <:+ s.packets ∧ (gaps = [] → q = s.packets) ∧ k ≤ q.length ∧ t.packets = q.drop k ++ [m.take cap] ∧
        t.rs = s.rs ∧ t.Inv)

/-- `TX.BYTES` is `UMP.ENCODE` (R81), and a transport's operations are the block's (R78): `init` gives a good, empty block
from a good one where no other host's operation falls into it (log entry 15), `read` pops, `avail` counts, `write`
encodes. A message of more than `2^LEN_W - 1` bytes, or a capacity greater than that, is handed on as it is: the model's
choice of log entry 19. -/
def Obligations.TransportOperationsAreTheBlocks : Prop :=
  ∀ (s : State) (msg : List Byte) (capacity : Nat),
    txBytes msg s = exec (.umpEncode msg) s ∧ transportWrite msg s = exec (.umpEncode msg) s ∧
    transportRead capacity s = exec (.cpbPop capacity) s ∧ transportAvail s = exec .cpbCount s ∧
    (s.Inv → ∃ t, transportInit [] s = .next t ∧ t.Inv ∧ t.packets = [] ∧ t.rs = 0x00)

/-- `RX.BYTES` of a stream of messages, stray data bytes and an unfinished tail, whatever operations of a consumer,
`CPB.COUNT`, `CPB.POP` and `UMP.ENCODE` (R96), fall before its first and between any two of its own (R79, R36; log entry
15). From any good state each message that the arena can hold is pushed, each longer one is dropped, each stray byte is an
error, and the tail is left over. The packets after it are the last of those there were and those pushed, and what is gone
of them was evicted or taken by the consumer. `RS` is left as the messages and the tail's first byte leave it (R68 (e)).
A stream of more than `2^LEN_W - 1` bytes is presented cut, the model's choice of log entry 19. -/
def Obligations.RxBytesAmongAConsumersOperations : Prop :=
  ∀ (gaps : List (List Instr)) (s : State) (items : List StreamItem) (tail : List Byte), s.Inv →
    (∀ g ∈ gaps, ∀ i ∈ g, consumes i = true) →
    streamWf s.cfg s.rs items = true → UnfinishedTail s.cfg.status (streamRs s.rs items) tail →
    ∃ k t, rxBytes gaps (streamBytes s.rs items ++ tail) s =
        .next ({ pushed := ((streamMessages items).filter fun m => m.length ≤ s.cfg.arenaCap).length
                 errors := items.countP fun i => i.message?.isNone
                 evicted := k
                 dropped := (streamMessages items).countP fun m => s.cfg.arenaCap < m.length
                 rest := tail }, t) ∧
      t.Inv ∧ t.rs = (match tail with
        | [] => streamRs s.rs items
        | b :: _ => (resolve (streamRs s.rs items) b).rs) ∧
      t.packets <:+ s.packets ++ (streamMessages items).filter (fun m => m.length ≤ s.cfg.arenaCap) ∧
      t.packets.length + k ≤
        s.packets.length + ((streamMessages items).filter fun m => m.length ≤ s.cfg.arenaCap).length ∧
      (gaps = [] → t.packets.length + k =
        s.packets.length + ((streamMessages items).filter fun m => m.length ≤ s.cfg.arenaCap).length)

/-! ### The status values that are a parameter -/

/-- The rows of Quarter-Frame, Song-Position and Song-Select are selected by the block's status values, and nothing else of
the decoder depends on these: no byte outside `0xF1..0xF6`, no UMP word that is not of type 1, no command (U1). That the
three are different and among `0xF1..0xF6` is read from R45 and R46: log entry 12. -/
def Obligations.StatusValuesSelectTheirRows : Prop :=
  ∀ v u : StatusTable, v.wf = true → u.wf = true →
    (∀ b : Byte, (decode v (.midi8 b) = .ok .stQf ↔ b = v.quarterFrame) ∧
      (decode v (.midi8 b) = .ok .stSpp ↔ b = v.songPosition) ∧ (decode v (.midi8 b) = .ok .stSs ↔ b = v.songSelect) ∧
      (b.toNat ≤ 0xF0 ∨ 0xF7 ≤ b.toNat → decode v (.midi8 b) = decode u (.midi8 b))) ∧
    (∀ w : Word,
      ((∃ g b1 b2, decode v (.ump32 w) = .ok (.umpSysQf g b1 b2)) ↔
        w.toNat / 2 ^ 28 = 1 ∧ BitVec.ofNat 8 (w.toNat / 2 ^ 16) = v.quarterFrame) ∧
      ((∃ g b1 b2, decode v (.ump32 w) = .ok (.umpSysSpp g b1 b2)) ↔
        w.toNat / 2 ^ 28 = 1 ∧ BitVec.ofNat 8 (w.toNat / 2 ^ 16) = v.songPosition) ∧
      ((∃ g b1 b2, decode v (.ump32 w) = .ok (.umpSysSs g b1 b2)) ↔
        w.toNat / 2 ^ 28 = 1 ∧ BitVec.ofNat 8 (w.toNat / 2 ^ 16) = v.songSelect) ∧
      (w.toNat / 2 ^ 28 ≠ 1 → decode v (.ump32 w) = decode u (.ump32 w))) ∧
    (∀ (w : Word) (bytes : List Byte) (words : List Word),
      decode v (.cmd32 w bytes words) = decode u (.cmd32 w bytes words))
end

