-- ==== Sys2Proof/Laws/Memory.lean ====
section
/-! SUPPORT. The laws of one cell of the arena and of `MemRead` and `MemWrite` (spec/20_memory.md R28): a read after a write
gives what was written, a write leaves every other cell alone, and every write keeps the canonical form. -/

namespace Sys2Proof.Machine

/-! ### One cell -/

theorem Memory.read_write_same (m : Memory) (a : Nat) (b : Byte) :
    Memory.read (Memory.write m a b) a = some b := by
  induction m with
  | nil => simp [Memory.write, Memory.read]
  | cons c m ih =>
    obtain ⟨k, v⟩ := c
    simp only [Memory.write]
    split_ifs with h1 h2
    · simp [Memory.read]
    · simp [Memory.read]
    · simp [Memory.read, ih, Ne.symm h2]

theorem Memory.read_write_other (m : Memory) {a c : Nat} (b : Byte) (h : c ≠ a) :
    Memory.read (Memory.write m a b) c = Memory.read m c := by
  induction m with
  | nil => simp [Memory.write, Memory.read, Ne.symm h]
  | cons x m ih =>
    obtain ⟨k, v⟩ := x
    simp only [Memory.write]
    split_ifs with h1 h2
    · simp [Memory.read, Ne.symm h]
    · subst h2; simp [Memory.read, Ne.symm h]
    · simp [Memory.read, ih]

theorem Memory.read_write (m : Memory) (a c : Nat) (b : Byte) :
    Memory.read (Memory.write m a b) c = if c = a then some b else Memory.read m c := by
  split_ifs with h
  · rw [h, Memory.read_write_same]
  · exact Memory.read_write_other m b h

/-- The canonical form says that the first offset is below all others. -/
theorem Memory.wf_cons (k : Nat) (v : Byte) (m : Memory) :
    Memory.wf ((k, v) :: m) = true ↔ (∀ c ∈ m, k < c.1) ∧ Memory.wf m = true := by
  induction m generalizing k v with
  | nil => simp [Memory.wf]
  | cons x m ih =>
    obtain ⟨l, w⟩ := x
    rw [Memory.wf, Bool.and_eq_true, decide_eq_true_eq, ih]
    constructor
    · rintro ⟨hkl, hall, hwf⟩
      exact ⟨fun c hc => by
        rcases List.mem_cons.1 hc with rfl | hc
        · exact hkl
        · exact Nat.lt_trans hkl (hall c hc), hall, hwf⟩
    · rintro ⟨hk, hall, hwf⟩
      exact ⟨hk _ List.mem_cons_self, hall, hwf⟩

theorem Memory.mem_write {m : Memory} {a : Nat} {b : Byte} {c : Host.Cell} (h : c ∈ Memory.write m a b) :
    c = (a, b) ∨ c ∈ m := by
  induction m with
  | nil => simpa [Memory.write] using h
  | cons x m ih =>
    obtain ⟨k, v⟩ := x
    simp only [Memory.write] at h
    split_ifs at h with h1 h2
    · simpa using h
    · rcases List.mem_cons.1 h with h | h
      · exact .inl h
      · exact .inr (List.mem_cons_of_mem _ h)
    · rcases List.mem_cons.1 h with h | h
      · exact .inr (h ▸ List.mem_cons_self)
      · exact (ih h).imp_right (List.mem_cons_of_mem _)

theorem Memory.write_wf {m : Memory} (a : Nat) (b : Byte) (h : Memory.wf m = true) :
    Memory.wf (Memory.write m a b) = true := by
  induction m with
  | nil => simp [Memory.write, Memory.wf]
  | cons x m ih =>
    obtain ⟨k, v⟩ := x
    have hm := (Memory.wf_cons k v m).1 h
    simp only [Memory.write]
    split_ifs with h1 h2
    · refine (Memory.wf_cons _ _ _).2 ⟨fun c hc => ?_, h⟩
      rcases List.mem_cons.1 hc with rfl | hc
      · exact h1
      · exact Nat.lt_trans h1 (hm.1 c hc)
    · subst h2
      exact (Memory.wf_cons _ _ _).2 hm
    · refine (Memory.wf_cons _ _ _).2 ⟨fun c hc => ?_, ih hm.2⟩
      rcases Memory.mem_write hc with rfl | hc
      · simp only; omega
      · exact hm.1 c hc

/-! ### `MemRead` and `MemWrite` -/

theorem add_mod_inj {cap i j : Nat} (a : Nat) (hi : i < cap) (hj : j < cap) (h : (a + i) % cap = (a + j) % cap) :
    i = j := by
  have h1 : i % cap = j % cap := Nat.ModEq.add_left_cancel' a h
  rwa [Nat.mod_eq_of_lt hi, Nat.mod_eq_of_lt hj] at h1

/-- Fewer than `cap` steps on from an offset never lead back to it. -/
theorem add_mod_ne {cap k : Nat} (a : Nat) (h0 : 0 < k) (hk : k < cap) : (a + k) % cap ≠ a % cap := by
  intro h
  have := add_mod_inj a hk (by omega : 0 < cap) (by simpa using h)
  omega

theorem memWrite_wf (cap : Nat) (d : List Byte) :
    ∀ (m : Memory) (a : Nat), Memory.wf m = true → Memory.wf (memWrite cap m a d) = true := by
  induction d with
  | nil => intro m a h; exact h
  | cons b d ih => intro m a h; exact ih _ _ (Memory.write_wf _ _ h)

theorem mem_memWrite {cap : Nat} (hcap : 0 < cap) (d : List Byte) :
    ∀ (m : Memory) (a : Nat), (∀ c ∈ m, c.1 < cap) → ∀ c ∈ memWrite cap m a d, c.1 < cap := by
  induction d with
  | nil => intro m a h; exact h
  | cons b d ih =>
    intro m a h
    refine ih _ _ fun c hc => ?_
    rcases Memory.mem_write hc with rfl | hc
    · exact Nat.mod_lt _ hcap
    · exact h c hc

/-- `MemWrite` leaves every offset alone that it does not write. -/
theorem read_memWrite_other {cap x : Nat} (d : List Byte) :
    ∀ (m : Memory) (a : Nat), (∀ i < d.length, x ≠ (a + i) % cap) →
      Memory.read (memWrite cap m a d) x = Memory.read m x := by
  induction d with
  | nil => intro m a _; rfl
  | cons b d ih =>
    intro m a h
    rw [memWrite, ih]
    · exact Memory.read_write_other m b (by simpa using h 0 (by simp))
    · intro i hi
      have := h (i + 1) (by simpa using hi)
      rwa [show a + (i + 1) = a + 1 + i by omega] at this

/-- Byte `i` written by `MemWrite` stands at `(addr + i) mod ARENA_CAP` (R28, R29). -/
theorem read_memWrite_at {cap : Nat} (d : List Byte) :
    ∀ (m : Memory) (a i : Nat), d.length ≤ cap → i < d.length →
      Memory.read (memWrite cap m a d) ((a + i) % cap) = d[i]? := by
  induction d with
  | nil => intro m a i _ h; simp at h
  | cons b d ih =>
    intro m a i hd hi
    simp only [List.length_cons] at hd hi
    cases i with
    | zero =>
      rw [memWrite, read_memWrite_other]
      · simp [Memory.read_write_same]
      · intro i hi
        rw [show a + 1 + i = a + (1 + i) by omega]
        simpa using (add_mod_ne a (k := 1 + i) (by omega) (by omega)).symm
    | succ i =>
      rw [memWrite, show a + (i + 1) = a + 1 + i by omega, ih _ _ i (by omega) (by omega)]
      simp

/-- What `MemRead` answers: the bytes at the offsets it reads, in order (R28). -/
theorem memRead_ok_iff (cap : Nat) (m : Memory) (n : Nat) :
    ∀ (a : Nat) (bs : List Byte), memRead cap m a n = .ok bs ↔
      bs.length = n ∧ ∀ i < n, Memory.read m ((a + i) % cap) = bs[i]? := by
  induction n with
  | zero =>
    intro a bs
    simp only [memRead, Except.ok.injEq]
    constructor
    · rintro rfl; simp
    · rintro ⟨h, -⟩; exact (List.eq_nil_of_length_eq_zero h).symm
  | succ n ih =>
    intro a bs
    rw [memRead]
    cases hr : Memory.read m (a % cap) with
    | none =>
      simp only [reduceCtorEq, false_iff, not_and]
      intro hl h
      have := h 0 (by omega)
      rw [Nat.add_zero, hr] at this
      cases bs with
      | nil => simp at hl
      | cons => simp at this
    | some b =>
      cases hm : memRead cap m (a + 1) n with
      | error e =>
        simp only [reduceCtorEq, false_iff, not_and]
        intro hl h
        have : memRead cap m (a + 1) n = .ok (bs.drop 1) := (ih _ _).2 ⟨by simp [hl], fun i hi => by
          have := h (i + 1) (by omega)
          rw [show a + (i + 1) = a + 1 + i by omega] at this
          rw [this, List.getElem?_drop, Nat.add_comm]⟩
        rw [hm] at this
        cases this
      | ok cs =>
        have hcs := (ih _ _).1 hm
        simp only [Except.ok.injEq]
        constructor
        · rintro rfl
          refine ⟨by simp [hcs.1], fun i hi => ?_⟩
          cases i with
          | zero => simpa using hr
          | succ i =>
            rw [show a + (i + 1) = a + 1 + i by omega, hcs.2 i (by omega)]
            simp
        · rintro ⟨hl, h⟩
          cases bs with
          | nil => simp at hl
          | cons c bs =>
            have h0 := h 0 (by omega)
            rw [Nat.add_zero, hr] at h0
            have : memRead cap m (a + 1) n = .ok bs := (ih _ _).2 ⟨by simpa using hl, fun i hi => by
              have := h (i + 1) (by omega)
              rw [show a + (i + 1) = a + 1 + i by omega] at this
              simpa using this⟩
            rw [hm] at this
            cases this
            simp_all

/-- `MemRead` answers where every offset it reads has been written. -/
theorem memRead_complete {cap : Nat} {m : Memory} (n : Nat) :
    ∀ a : Nat, (∀ i < n, (Memory.read m ((a + i) % cap)).isSome = true) → ∃ bs, memRead cap m a n = .ok bs := by
  induction n with
  | zero => intro a _; exact ⟨[], rfl⟩
  | succ n ih =>
    intro a h
    obtain ⟨b, hb⟩ := Option.isSome_iff_exists.1 (h 0 (by omega))
    obtain ⟨bs, hbs⟩ := ih (a + 1) fun i hi => by
      have := h (i + 1) (by omega)
      rwa [show a + (i + 1) = a + 1 + i by omega] at this
    exact ⟨b :: bs, by rw [memRead, show a % cap = (a + 0) % cap by simp, hb, hbs]⟩

/-- Reading fewer bytes gives the first of them. -/
theorem memRead_take {cap : Nat} {m : Memory} {a n k : Nat} {bs : List Byte} (h : memRead cap m a n = .ok bs)
    (hk : k ≤ n) : memRead cap m a k = .ok (bs.take k) := by
  have := (memRead_ok_iff _ _ _ _ _).1 h
  refine (memRead_ok_iff _ _ _ _ _).2 ⟨by simp; omega, fun i hi => ?_⟩
  rw [this.2 i (by omega), List.getElem?_take_of_lt hi]

/-- `MemRead` after `MemWrite` at the same place gives back the bytes, where they wrap too (R28, R29). -/
theorem memRead_memWrite_same {cap : Nat} (m : Memory) (a : Nat) (d : List Byte) (h : d.length ≤ cap) :
    memRead cap (memWrite cap m a d) a d.length = .ok d :=
  (memRead_ok_iff _ _ _ _ _).2 ⟨rfl, fun i hi => read_memWrite_at d m a i h hi⟩

/-- Two arenas that agree on the offsets read give the same `MemRead`. -/
theorem memRead_congr {cap : Nat} {m m' : Memory} (n : Nat) :
    ∀ a : Nat, (∀ i < n, Memory.read m ((a + i) % cap) = Memory.read m' ((a + i) % cap)) →
      memRead cap m a n = memRead cap m' a n := by
  induction n with
  | zero => intro a _; rfl
  | succ n ih =>
    intro a h
    have h0 := h 0 (by omega)
    rw [Nat.add_zero] at h0
    rw [memRead, memRead, h0, ih (a + 1) fun i hi => by
      have := h (i + 1) (by omega)
      rwa [show a + (i + 1) = a + 1 + i by omega] at this]

end Sys2Proof.Machine
end

