-- ==== Sys2Proof/Laws/State.lean ====
section
/-! SUPPORT. One lemma per field of State per update, and the derived quantities of spec/10_state.md R15 under the updates
that leave the buffer alone; all by rfl, for simp. -/

namespace Sys2Proof.Machine

variable (s : State)

/-! ### withResp -/

@[simp] theorem State.withResp_cfg (r : Response) : (s.withResp r).cfg = s.cfg := rfl
@[simp] theorem State.withResp_readPos (r : Response) : (s.withResp r).readPos = s.readPos := rfl
@[simp] theorem State.withResp_writePos (r : Response) : (s.withResp r).writePos = s.writePos := rfl
@[simp] theorem State.withResp_bufOff (r : Response) : (s.withResp r).bufOff = s.bufOff := rfl
@[simp] theorem State.withResp_bufLen (r : Response) : (s.withResp r).bufLen = s.bufLen := rfl
@[simp] theorem State.withResp_idx (r : Response) : (s.withResp r).idx = s.idx := rfl
@[simp] theorem State.withResp_arena (r : Response) : (s.withResp r).arena = s.arena := rfl
@[simp] theorem State.withResp_rs (r : Response) : (s.withResp r).rs = s.rs := rfl
@[simp] theorem State.withResp_resp (r : Response) : (s.withResp r).resp = some r := rfl
@[simp] theorem State.withResp_port (r : Response) : (s.withResp r).port = s.port := rfl

/-! ### withRs -/

@[simp] theorem State.withRs_cfg (v : Byte) : (s.withRs v).cfg = s.cfg := rfl
@[simp] theorem State.withRs_readPos (v : Byte) : (s.withRs v).readPos = s.readPos := rfl
@[simp] theorem State.withRs_writePos (v : Byte) : (s.withRs v).writePos = s.writePos := rfl
@[simp] theorem State.withRs_bufOff (v : Byte) : (s.withRs v).bufOff = s.bufOff := rfl
@[simp] theorem State.withRs_bufLen (v : Byte) : (s.withRs v).bufLen = s.bufLen := rfl
@[simp] theorem State.withRs_idx (v : Byte) : (s.withRs v).idx = s.idx := rfl
@[simp] theorem State.withRs_arena (v : Byte) : (s.withRs v).arena = s.arena := rfl
@[simp] theorem State.withRs_rs (v : Byte) : (s.withRs v).rs = v := rfl
@[simp] theorem State.withRs_resp (v : Byte) : (s.withRs v).resp = s.resp := rfl
@[simp] theorem State.withRs_port (v : Byte) : (s.withRs v).port = s.port := rfl

/-! ### withPort -/

@[simp] theorem State.withPort_cfg (p : List PortEvent) : (s.withPort p).cfg = s.cfg := rfl
@[simp] theorem State.withPort_readPos (p : List PortEvent) : (s.withPort p).readPos = s.readPos := rfl
@[simp] theorem State.withPort_writePos (p : List PortEvent) : (s.withPort p).writePos = s.writePos := rfl
@[simp] theorem State.withPort_bufOff (p : List PortEvent) : (s.withPort p).bufOff = s.bufOff := rfl
@[simp] theorem State.withPort_bufLen (p : List PortEvent) : (s.withPort p).bufLen = s.bufLen := rfl
@[simp] theorem State.withPort_idx (p : List PortEvent) : (s.withPort p).idx = s.idx := rfl
@[simp] theorem State.withPort_arena (p : List PortEvent) : (s.withPort p).arena = s.arena := rfl
@[simp] theorem State.withPort_rs (p : List PortEvent) : (s.withPort p).rs = s.rs := rfl
@[simp] theorem State.withPort_resp (p : List PortEvent) : (s.withPort p).resp = s.resp := rfl
@[simp] theorem State.withPort_port (p : List PortEvent) : (s.withPort p).port = p := rfl

/-! ### initCursors -/

@[simp] theorem State.initCursors_cfg : s.initCursors.cfg = s.cfg := rfl
@[simp] theorem State.initCursors_readPos : s.initCursors.readPos = 0 := rfl
@[simp] theorem State.initCursors_writePos : s.initCursors.writePos = 0 := rfl
@[simp] theorem State.initCursors_bufOff : s.initCursors.bufOff = 0 := rfl
@[simp] theorem State.initCursors_bufLen : s.initCursors.bufLen = 0 := rfl
@[simp] theorem State.initCursors_idx : s.initCursors.idx = s.idx := rfl
@[simp] theorem State.initCursors_arena : s.initCursors.arena = s.arena := rfl
@[simp] theorem State.initCursors_rs : s.initCursors.rs = s.rs := rfl
@[simp] theorem State.initCursors_resp : s.initCursors.resp = s.resp := rfl
@[simp] theorem State.initCursors_port : s.initCursors.port = s.port := rfl

/-! ### retireOldest -/

@[simp] theorem State.retireOldest_cfg : s.retireOldest.cfg = s.cfg := rfl
@[simp] theorem State.retireOldest_readPos : s.retireOldest.readPos = (s.readPos + 1) % s.cfg.indexSlots := rfl
@[simp] theorem State.retireOldest_writePos : s.retireOldest.writePos = s.writePos := rfl
@[simp] theorem State.retireOldest_bufOff :
    s.retireOldest.bufOff = (s.bufOff + (s.entry s.readPos).len) % s.cfg.arenaCap := rfl
@[simp] theorem State.retireOldest_bufLen : s.retireOldest.bufLen = s.bufLen - (s.entry s.readPos).len := rfl
@[simp] theorem State.retireOldest_idx : s.retireOldest.idx = s.idx := rfl
@[simp] theorem State.retireOldest_arena : s.retireOldest.arena = s.arena := rfl
@[simp] theorem State.retireOldest_rs : s.retireOldest.rs = s.rs := rfl
@[simp] theorem State.retireOldest_resp : s.retireOldest.resp = s.resp := rfl
@[simp] theorem State.retireOldest_port : s.retireOldest.port = s.port := rfl

/-! ### appendPacket -/

@[simp] theorem State.appendPacket_cfg (d : List Byte) : (s.appendPacket d).cfg = s.cfg := rfl
@[simp] theorem State.appendPacket_readPos (d : List Byte) : (s.appendPacket d).readPos = s.readPos := rfl
@[simp] theorem State.appendPacket_writePos (d : List Byte) :
    (s.appendPacket d).writePos = (s.writePos + 1) % s.cfg.indexSlots := rfl
@[simp] theorem State.appendPacket_bufOff (d : List Byte) : (s.appendPacket d).bufOff = s.bufOff := rfl
@[simp] theorem State.appendPacket_bufLen (d : List Byte) : (s.appendPacket d).bufLen = s.bufLen + d.length := rfl
@[simp] theorem State.appendPacket_idx (d : List Byte) :
    (s.appendPacket d).idx = s.idx.set s.writePos ⟨s.bufEnd, d.length⟩ := rfl
@[simp] theorem State.appendPacket_arena (d : List Byte) :
    (s.appendPacket d).arena = memWrite s.cfg.arenaCap s.arena s.bufEnd d := rfl
@[simp] theorem State.appendPacket_rs (d : List Byte) : (s.appendPacket d).rs = s.rs := rfl
@[simp] theorem State.appendPacket_resp (d : List Byte) : (s.appendPacket d).resp = s.resp := rfl
@[simp] theorem State.appendPacket_port (d : List Byte) : (s.appendPacket d).port = s.port := rfl

/-! ### Derived quantities -/

@[simp] theorem State.withResp_count (r : Response) : (s.withResp r).count = s.count := rfl
@[simp] theorem State.withResp_isEmpty (r : Response) : (s.withResp r).isEmpty = s.isEmpty := rfl
@[simp] theorem State.withResp_isFull (r : Response) : (s.withResp r).isFull = s.isFull := rfl
@[simp] theorem State.withResp_bufEnd (r : Response) : (s.withResp r).bufEnd = s.bufEnd := rfl
@[simp] theorem State.withResp_liveEntries (r : Response) : (s.withResp r).liveEntries = s.liveEntries := rfl
@[simp] theorem State.withResp_packets (r : Response) : (s.withResp r).packets = s.packets := rfl
@[simp] theorem State.withResp_entry (r : Response) (i : Nat) : (s.withResp r).entry i = s.entry i := rfl
@[simp] theorem State.withResp_packetAt (r : Response) (e : IdxEntry) : (s.withResp r).packetAt e = s.packetAt e := rfl
@[simp] theorem State.withRs_count (v : Byte) : (s.withRs v).count = s.count := rfl
@[simp] theorem State.withRs_isEmpty (v : Byte) : (s.withRs v).isEmpty = s.isEmpty := rfl
@[simp] theorem State.withRs_isFull (v : Byte) : (s.withRs v).isFull = s.isFull := rfl
@[simp] theorem State.withRs_bufEnd (v : Byte) : (s.withRs v).bufEnd = s.bufEnd := rfl
@[simp] theorem State.withRs_liveEntries (v : Byte) : (s.withRs v).liveEntries = s.liveEntries := rfl
@[simp] theorem State.withRs_packets (v : Byte) : (s.withRs v).packets = s.packets := rfl
@[simp] theorem State.withRs_entry (v : Byte) (i : Nat) : (s.withRs v).entry i = s.entry i := rfl
@[simp] theorem State.withRs_packetAt (v : Byte) (e : IdxEntry) : (s.withRs v).packetAt e = s.packetAt e := rfl
@[simp] theorem State.withPort_count (p : List PortEvent) : (s.withPort p).count = s.count := rfl
@[simp] theorem State.withPort_isEmpty (p : List PortEvent) : (s.withPort p).isEmpty = s.isEmpty := rfl
@[simp] theorem State.withPort_isFull (p : List PortEvent) : (s.withPort p).isFull = s.isFull := rfl
@[simp] theorem State.withPort_bufEnd (p : List PortEvent) : (s.withPort p).bufEnd = s.bufEnd := rfl
@[simp] theorem State.withPort_liveEntries (p : List PortEvent) : (s.withPort p).liveEntries = s.liveEntries := rfl
@[simp] theorem State.withPort_packets (p : List PortEvent) : (s.withPort p).packets = s.packets := rfl
@[simp] theorem State.withPort_entry (p : List PortEvent) (i : Nat) : (s.withPort p).entry i = s.entry i := rfl
@[simp] theorem State.withPort_packetAt (p : List PortEvent) (e : IdxEntry) : (s.withPort p).packetAt e = s.packetAt e := rfl

/-- A second response replaces the first. -/
@[simp] theorem State.withResp_withResp (r q : Response) : (s.withResp r).withResp q = s.withResp q := rfl

/-- `answer` completes. -/
@[simp] theorem answer_eq (r : Response) : answer r s = .next (s.withResp r) := rfl

end Sys2Proof.Machine
end

