-- ==== Sys2Proof/Laws/Buffer.lean ====
section
/-! SUPPORT. The index ring as a queue (spec/10_state.md R11 to R17): the count, the live entries under retiring the oldest and
appending a new packet, and the packets they stand for. -/

namespace Sys2Proof.Machine

variable {s : State}

/-! ### The count -/

/-- The count without the remainder (R15). -/
theorem State.count_eq (hr : s.readPos < s.cfg.indexSlots) (hw : s.writePos < s.cfg.indexSlots) :
    s.count = if s.readPos ≤ s.writePos then s.writePos - s.readPos
      else s.writePos + s.cfg.indexSlots - s.readPos := by
  unfold State.count
  split_ifs with h
  · rw [Int.emod_eq_of_lt (by omega) (by omega)]; omega
  · have : ((s.writePos : Int) - s.readPos) % (s.cfg.indexSlots : Int)
        = ((s.writePos : Int) - s.readPos + s.cfg.indexSlots) % (s.cfg.indexSlots : Int) := by simp
    rw [this, Int.emod_eq_of_lt (by omega) (by omega)]; omega

theorem State.count_lt (hr : s.readPos < s.cfg.indexSlots) (hw : s.writePos < s.cfg.indexSlots) :
    s.count < s.cfg.indexSlots := by
  rw [State.count_eq hr hw]; split_ifs <;> omega

/-- `write_pos` is `count` positions on from `read_pos` (R11, R12). -/
theorem State.read_add_count (hr : s.readPos < s.cfg.indexSlots) (hw : s.writePos < s.cfg.indexSlots) :
    (s.readPos + s.count) % s.cfg.indexSlots = s.writePos := by
  rw [State.count_eq hr hw]
  split_ifs with h
  · rw [Nat.add_sub_cancel' h, Nat.mod_eq_of_lt hw]
  · rw [show s.readPos + (s.writePos + s.cfg.indexSlots - s.readPos) = s.writePos + s.cfg.indexSlots by omega,
      Nat.add_mod_right, Nat.mod_eq_of_lt hw]

theorem State.isEmpty_iff (hr : s.readPos < s.cfg.indexSlots) (hw : s.writePos < s.cfg.indexSlots) :
    s.isEmpty = true ↔ s.count = 0 := by
  rw [State.count_eq hr hw, State.isEmpty, beq_iff_eq]
  split_ifs <;> omega

theorem succ_mod {n S : Nat} (h : n < S) : (n + 1) % S = if n + 1 = S then 0 else n + 1 := by
  split_ifs with h'
  · rw [h', Nat.mod_self]
  · exact Nat.mod_eq_of_lt (by omega)

/-- The ring is full when `count` is `INDEX_SLOTS - 1` (R15). -/
theorem State.isFull_iff (hr : s.readPos < s.cfg.indexSlots) (hw : s.writePos < s.cfg.indexSlots) :
    s.isFull = true ↔ s.count = s.cfg.indexSlots - 1 := by
  rw [State.count_eq hr hw, State.isFull, beq_iff_eq, succ_mod hw]
  split_ifs <;> omega

theorem State.count_retireOldest (hr : s.readPos < s.cfg.indexSlots) (hw : s.writePos < s.cfg.indexSlots)
    (h : 0 < s.count) : s.retireOldest.count = s.count - 1 := by
  have hr' : s.retireOldest.readPos < s.retireOldest.cfg.indexSlots := by
    simpa using Nat.mod_lt _ (by omega)
  have hp : s.retireOldest.readPos = if s.readPos + 1 = s.cfg.indexSlots then 0 else s.readPos + 1 := by
    simpa using succ_mod hr
  rw [State.count_eq hr' (by simpa using hw)]
  rw [State.count_eq hr hw] at h ⊢
  simp only [State.retireOldest_writePos, State.retireOldest_cfg, hp]
  split_ifs at h ⊢ <;> omega

theorem State.count_appendPacket (d : List Byte) (hr : s.readPos < s.cfg.indexSlots)
    (hw : s.writePos < s.cfg.indexSlots) (h : s.isFull = false) :
    (s.appendPacket d).count = s.count + 1 := by
  have hw' : (s.appendPacket d).writePos < (s.appendPacket d).cfg.indexSlots := by
    simpa using Nat.mod_lt _ (by omega)
  have hp : (s.appendPacket d).writePos = if s.writePos + 1 = s.cfg.indexSlots then 0 else s.writePos + 1 := by
    simpa using succ_mod hw
  have hf : ¬ (s.writePos + 1) % s.cfg.indexSlots = s.readPos := by
    simpa [State.isFull] using h
  rw [succ_mod hw] at hf
  rw [State.count_eq (by simpa using hr) hw', State.count_eq hr hw]
  simp only [State.appendPacket_readPos, State.appendPacket_cfg, hp]
  split_ifs at hf ⊢ <;> omega

/-! ### The live entries -/

@[simp] theorem State.liveEntries_length (s : State) : s.liveEntries.length = s.count := by
  simp [State.liveEntries]

@[simp] theorem State.packets_length (s : State) : s.packets.length = s.count := by
  simp [State.packets]

theorem State.entry_retireOldest (s : State) (p : Nat) : s.retireOldest.entry p = s.entry p := rfl

/-- The oldest packet's entry stands at `read_pos`, and retiring it leaves the others (R11, R17). -/
theorem State.liveEntries_eq_cons (hr : s.readPos < s.cfg.indexSlots) (hw : s.writePos < s.cfg.indexSlots)
    (h : 0 < s.count) : s.liveEntries = s.entry s.readPos :: s.retireOldest.liveEntries := by
  obtain ⟨n, hn⟩ : ∃ n, s.count = n + 1 := ⟨s.count - 1, by omega⟩
  have hc : s.retireOldest.count = n := by rw [State.count_retireOldest hr hw h]; omega
  simp only [State.liveEntries, hn, hc, List.range_succ_eq_map, List.map_cons, List.map_map, Nat.add_zero,
    Nat.mod_eq_of_lt hr, List.cons.injEq, true_and]
  refine List.map_congr_left fun i _ => ?_
  simp only [Function.comp_apply, State.entry_retireOldest, State.retireOldest_readPos, State.retireOldest_cfg,
    Nat.mod_add_mod]
  rw [show s.readPos + i.succ = s.readPos + 1 + i by omega]

/-- A new packet's entry comes after all live ones (R12, R17). -/
theorem State.liveEntries_appendPacket (d : List Byte) (hr : s.readPos < s.cfg.indexSlots)
    (hw : s.writePos < s.cfg.indexSlots) (hl : s.idx.length = s.cfg.indexSlots) (h : s.isFull = false) :
    (s.appendPacket d).liveEntries = s.liveEntries ++ [⟨s.bufEnd, d.length⟩] := by
  have hlt : s.count < s.cfg.indexSlots - 1 := by
    have h1 := State.count_lt hr hw
    have h2 : ¬ s.count = s.cfg.indexSlots - 1 := fun e => by
      rw [(State.isFull_iff hr hw).2 e] at h; cases h
    omega
  simp only [State.liveEntries, State.count_appendPacket d hr hw h, List.range_succ, List.map_append,
    List.map_cons, List.map_nil, State.appendPacket_readPos, State.appendPacket_cfg]
  congr 1
  · refine List.map_congr_left fun i hi => ?_
    have hi : i < s.count := List.mem_range.1 hi
    have hne : s.writePos ≠ (s.readPos + i) % s.cfg.indexSlots := by
      rw [← State.read_add_count hr hw]
      intro e
      have := add_mod_inj s.readPos (by omega : s.count < s.cfg.indexSlots) (by omega) e
      omega
    simp [State.entry, List.getD_eq_getElem?_getD, List.getElem?_set_ne hne]
  · rw [State.read_add_count hr hw]
    simp [State.entry, List.getD_eq_getElem?_getD, List.getElem?_set_self (hl ▸ hw)]

/-! ### Tiling -/

theorem totalLen_cons (e : IdxEntry) (es : List IdxEntry) : totalLen (e :: es) = e.len + totalLen es := by
  simp [totalLen]

theorem totalLen_append (es fs : List IdxEntry) : totalLen (es ++ fs) = totalLen es + totalLen fs := by
  simp [totalLen]

theorem tiles_cons {cap off : Nat} {e : IdxEntry} {es : List IdxEntry} :
    tiles cap off (e :: es) = true ↔ e.off = off ∧ tiles cap ((off + e.len) % cap) es = true := by
  simp [tiles]

/-- Entries tile a window and one more follows: together they tile (R23 (c)). -/
theorem tiles_append {cap : Nat} (es : List IdxEntry) (n : Nat) :
    ∀ off : Nat, off < cap → tiles cap off es = true →
      tiles cap off (es ++ [⟨(off + totalLen es) % cap, n⟩]) = true := by
  induction es with
  | nil => intro off h _; simp [tiles, totalLen, Nat.mod_eq_of_lt h]
  | cons e es ih =>
    intro off h ht
    obtain ⟨he, ht⟩ := tiles_cons.1 ht
    refine tiles_cons.2 ⟨he, ?_⟩
    have := ih ((off + e.len) % cap) (Nat.mod_lt _ (by omega)) ht
    rwa [Nat.mod_add_mod, Nat.add_assoc, ← totalLen_cons] at this

/-- Tiling entries lie inside the window: entry `e` starts some `k` on from the window's start and ends within
the window's length (R23 (c)). -/
theorem tiles_mem {cap : Nat} (es : List IdxEntry) :
    ∀ off : Nat, off < cap → tiles cap off es = true → ∀ e ∈ es,
      ∃ k, e.off = (off + k) % cap ∧ k + e.len ≤ totalLen es := by
  induction es with
  | nil => intro off _ _ e he; simp at he
  | cons x es ih =>
    intro off h ht e he
    obtain ⟨hx, ht⟩ := tiles_cons.1 ht
    rw [totalLen_cons]
    rcases List.mem_cons.1 he with rfl | he
    · exact ⟨0, by simp [hx, Nat.mod_eq_of_lt h], by omega⟩
    · obtain ⟨k, hk, hle⟩ := ih _ (Nat.mod_lt _ (by omega)) ht e he
      exact ⟨x.len + k, by rw [hk, Nat.mod_add_mod, Nat.add_assoc], by omega⟩

end Sys2Proof.Machine
end

