-- ==== Sys2Proof/Laws/Encoding.lean ====
section
/-! SUPPORT. The fields of a word put together from its fields, and a word put together from its own fields (spec/30_encoding.md
R41, R45, R48). -/

namespace Sys2Proof

/-! ### Command words -/

@[simp] theorem cmdOp_cmdWord (op : BitVec 4) (a : BitVec 12) (b : BitVec 16) : cmdOp (cmdWord op a b) = op := by
  ext i hi
  simp only [cmdOp, cmdWord, BitVec.getElem_extractLsb', BitVec.getLsbD_append]
  have h1 : ¬ 28 + i < 16 := by omega
  have h2 : ¬ 28 + i - 16 < 12 := by omega
  have h3 : 28 + i - 16 - 12 = i := by omega
  simp [h1, h2, h3, BitVec.getLsbD_eq_getElem hi]

@[simp] theorem cmdA_cmdWord (op : BitVec 4) (a : BitVec 12) (b : BitVec 16) : cmdA (cmdWord op a b) = a := by
  ext i hi
  simp only [cmdA, cmdWord, BitVec.getElem_extractLsb', BitVec.getLsbD_append]
  have h1 : ¬ 16 + i < 16 := by omega
  simp [h1, hi]

@[simp] theorem cmdB_cmdWord (op : BitVec 4) (a : BitVec 12) (b : BitVec 16) : cmdB (cmdWord op a b) = b := by
  ext i hi
  simp only [cmdB, cmdWord, BitVec.getElem_extractLsb', BitVec.getLsbD_append]
  simp [hi]

theorem cmdWord_fields (w : Word) : cmdWord (cmdOp w) (cmdA w) (cmdB w) = w := by
  apply BitVec.eq_of_getLsbD_eq
  intro i hi
  simp only [cmdOp, cmdA, cmdB, cmdWord, BitVec.getLsbD_append, BitVec.getLsbD_extractLsb']
  by_cases h1 : i < 16
  · simp [h1]
  · by_cases h2 : i - 16 < 12
    · have : 16 + (i - 16) = i := by omega
      simp [h1, h2, this]
    · have : 28 + (i - 16 - 12) = i := by omega
      have : i - 16 - 12 < 4 := by omega
      simp [*]

/-! ### UMP words -/

@[simp] theorem umpMt_umpWord (mt group : BitVec 4) (b0 b1 b2 : Byte) : umpMt (umpWord mt group b0 b1 b2) = mt := by
  ext i hi
  simp only [umpMt, umpWord, BitVec.getElem_extractLsb', BitVec.getLsbD_append]
  have h1 : ¬ 28 + i < 8 := by omega
  have h2 : ¬ 28 + i - 8 < 8 := by omega
  have h3 : ¬ 28 + i - 8 - 8 < 8 := by omega
  have h4 : ¬ 28 + i - 8 - 8 - 8 < 4 := by omega
  have h5 : 28 + i - 8 - 8 - 8 - 4 = i := by omega
  simp [h1, h2, h3, h4, h5, BitVec.getLsbD_eq_getElem hi]

@[simp] theorem umpGroup_umpWord (mt group : BitVec 4) (b0 b1 b2 : Byte) :
    umpGroup (umpWord mt group b0 b1 b2) = group := by
  ext i hi
  simp only [umpGroup, umpWord, BitVec.getElem_extractLsb', BitVec.getLsbD_append]
  have h1 : ¬ 24 + i < 8 := by omega
  have h2 : ¬ 24 + i - 8 < 8 := by omega
  have h3 : ¬ 24 + i - 8 - 8 < 8 := by omega
  have h5 : 24 + i - 8 - 8 - 8 = i := by omega
  simp [h1, h2, h3, h5, hi]

@[simp] theorem umpB0_umpWord (mt group : BitVec 4) (b0 b1 b2 : Byte) : umpB0 (umpWord mt group b0 b1 b2) = b0 := by
  ext i hi
  simp only [umpB0, umpWord, BitVec.getElem_extractLsb', BitVec.getLsbD_append]
  have h1 : ¬ 16 + i < 8 := by omega
  have h2 : ¬ 16 + i - 8 < 8 := by omega
  have h5 : 16 + i - 8 - 8 = i := by omega
  simp [h1, h2, h5, hi]

@[simp] theorem umpB1_umpWord (mt group : BitVec 4) (b0 b1 b2 : Byte) : umpB1 (umpWord mt group b0 b1 b2) = b1 := by
  ext i hi
  simp only [umpB1, umpWord, BitVec.getElem_extractLsb', BitVec.getLsbD_append]
  have h1 : ¬ 8 + i < 8 := by omega
  simp [h1, hi]

@[simp] theorem umpB2_umpWord (mt group : BitVec 4) (b0 b1 b2 : Byte) : umpB2 (umpWord mt group b0 b1 b2) = b2 := by
  ext i hi
  simp only [umpB2, umpWord, BitVec.getElem_extractLsb', BitVec.getLsbD_append]
  simp [hi]

theorem umpWord_fields (w : Word) : umpWord (umpMt w) (umpGroup w) (umpB0 w) (umpB1 w) (umpB2 w) = w := by
  apply BitVec.eq_of_getLsbD_eq
  intro i hi
  simp only [umpMt, umpGroup, umpB0, umpB1, umpB2, umpWord, BitVec.getLsbD_append, BitVec.getLsbD_extractLsb']
  by_cases h1 : i < 8
  · simp [h1]
  · by_cases h2 : i - 8 < 8
    · have : 8 + (i - 8) = i := by omega
      simp [h1, h2, this]
    · by_cases h3 : i - 8 - 8 < 8
      · have : 16 + (i - 8 - 8) = i := by omega
        simp [h1, h2, h3, this]
      · by_cases h4 : i - 8 - 8 - 8 < 4
        · have : 24 + (i - 8 - 8 - 8) = i := by omega
          simp [h1, h2, h3, h4, this]
        · have : 28 + (i - 8 - 8 - 8 - 4) = i := by omega
          have : i - 8 - 8 - 8 - 4 < 4 := by omega
          simp [*]

/-! ### Masks -/

/-- A mask acts field by field on a command word. -/
theorem cmdWord_and (op op' : BitVec 4) (a a' : BitVec 12) (b b' : BitVec 16) :
    cmdWord op a b &&& cmdWord op' a' b' = cmdWord (op &&& op') (a &&& a') (b &&& b') := by
  refine (BitVec.and_append (x₁ := op ++ a) (x₂ := op' ++ a')).trans ?_
  rw [BitVec.and_append]
  rfl

theorem cmdWord_inj {op op' : BitVec 4} {a a' : BitVec 12} {b b' : BitVec 16} :
    cmdWord op a b = cmdWord op' a' b' ↔ op = op' ∧ a = a' ∧ b = b' := by
  constructor
  · intro h
    exact ⟨by simpa using congrArg cmdOp h, by simpa using congrArg cmdA h, by simpa using congrArg cmdB h⟩
  · rintro ⟨rfl, rfl, rfl⟩; rfl

/-- A command word selects a row of R42 when its fields, masked, are the row's. -/
theorem cmd_and_eq_iff (w : Word) (mo po : BitVec 4) (ma pa : BitVec 12) (mb pb : BitVec 16) :
    w &&& cmdWord mo ma mb = cmdWord po pa pb ↔
      cmdOp w &&& mo = po ∧ cmdA w &&& ma = pa ∧ cmdB w &&& mb = pb := by
  conv_lhs => rw [← cmdWord_fields w]
  rw [cmdWord_and, cmdWord_inj]

/-- A mask acts field by field on a UMP word. -/
theorem umpWord_and (mt mt' g g' : BitVec 4) (b0 b0' b1 b1' b2 b2' : Byte) :
    umpWord mt g b0 b1 b2 &&& umpWord mt' g' b0' b1' b2' =
      umpWord (mt &&& mt') (g &&& g') (b0 &&& b0') (b1 &&& b1') (b2 &&& b2') := by
  refine (BitVec.and_append (x₁ := mt ++ g ++ b0 ++ b1) (x₂ := mt' ++ g' ++ b0' ++ b1')).trans ?_
  rw [BitVec.and_append, BitVec.and_append, BitVec.and_append]
  rfl

theorem umpWord_inj {mt mt' g g' : BitVec 4} {b0 b0' b1 b1' b2 b2' : Byte} :
    umpWord mt g b0 b1 b2 = umpWord mt' g' b0' b1' b2' ↔
      mt = mt' ∧ g = g' ∧ b0 = b0' ∧ b1 = b1' ∧ b2 = b2' := by
  constructor
  · intro h
    exact ⟨by simpa using congrArg umpMt h, by simpa using congrArg umpGroup h, by simpa using congrArg umpB0 h,
      by simpa using congrArg umpB1 h, by simpa using congrArg umpB2 h⟩
  · rintro ⟨rfl, rfl, rfl, rfl, rfl⟩; rfl

/-- A UMP word selects a row when its fields, masked, are the row's. -/
theorem ump_and_eq_iff (w : Word) (mm pm mg pg : BitVec 4) (m0 p0 m1 p1 m2 p2 : Byte) :
    w &&& umpWord mm mg m0 m1 m2 = umpWord pm pg p0 p1 p2 ↔
      umpMt w &&& mm = pm ∧ umpGroup w &&& mg = pg ∧ umpB0 w &&& m0 = p0 ∧ umpB1 w &&& m1 = p1 ∧
      umpB2 w &&& m2 = p2 := by
  conv_lhs => rw [← umpWord_fields w]
  rw [umpWord_and, umpWord_inj]

/-! ### Bytes -/

@[simp] theorem hiNibble_cvByte (k c : BitVec 4) : hiNibble (cvByte k c) = k := by
  ext i hi
  simp only [hiNibble, cvByte, BitVec.getElem_extractLsb', BitVec.getLsbD_append]
  have h1 : ¬ 4 + i < 4 := by omega
  simp [h1, BitVec.getLsbD_eq_getElem hi]

@[simp] theorem loNibble_cvByte (k c : BitVec 4) : loNibble (cvByte k c) = c := by
  ext i hi
  simp only [loNibble, cvByte, BitVec.getElem_extractLsb', BitVec.getLsbD_append]
  simp [hi]

theorem cvByte_nibbles (b : Byte) : cvByte (hiNibble b) (loNibble b) = b := by
  revert b; decide

@[simp] theorem low_of_zero_append (b : Byte) : (0#8 ++ b : BitVec 16).extractLsb' 0 8 = b := by
  ext i hi
  simp only [BitVec.getElem_extractLsb', BitVec.getLsbD_append]
  simp [hi]

@[simp] theorem high_of_zero_append (b : Byte) : (0#8 ++ b : BitVec 16).extractLsb' 8 8 = 0#8 := by
  ext i hi
  simp only [BitVec.getElem_extractLsb', BitVec.getLsbD_append]
  have h1 : ¬ 8 + i < 8 := by omega
  simp [h1]

end Sys2Proof
end

