-- ==== Sys2Proof/Laws/Fields.lean ====
section
/-! SUPPORT. What the response fields are computed to be: the byte classes, `FRM.RESOLVE` by class (spec/41_framer.md R66), the
running status `FRM.NEXT` leaves (R68 (e)), the legality of `RS` (spec/10_state.md R24), the words `UMP.ENCODE` packs
(spec/42_ump.md R72). -/

namespace Sys2Proof.Machine

/-! ### Byte classes as ranges -/

theorem isRealtime_eq : ∀ b : Byte, isRealtime b = decide (0xF8 ≤ b.toNat) := by decide

theorem isSystemCommon_eq : ∀ b : Byte, isSystemCommon b = decide (0xF0 ≤ b.toNat ∧ b.toNat ≤ 0xF7) := by decide

theorem isChannelVoice_eq : ∀ b : Byte, isChannelVoice b = decide (0x80 ≤ b.toNat ∧ b.toNat ≤ 0xEF) := by decide

theorem isData_eq : ∀ b : Byte, isData b = decide (b.toNat < 0x80) := by decide

theorem hiNibble_eq_iff : ∀ (b : Byte) (k : BitVec 4), hiNibble b = k ↔ b.toNat / 16 = k.toNat := by
  intro b k
  rw [← BitVec.toNat_inj]
  simp [hiNibble, BitVec.extractLsb'_toNat, Nat.shiftRight_eq_div_pow]
  have := b.isLt
  omega

/-! ### `FRM.RESOLVE` -/

theorem resolve_realtime (rs : Byte) {b : Byte} (h : 0xF8 ≤ b.toNat) : resolve rs b = ⟨true, b, rs⟩ := by
  simp [resolve, isRealtime_eq, h]

theorem resolve_systemCommon (rs : Byte) {b : Byte} (h : 0xF0 ≤ b.toNat) (h' : b.toNat ≤ 0xF7) :
    resolve rs b = ⟨true, b, 0x00#8⟩ := by
  have : ¬ 0xF8 ≤ b.toNat := by omega
  simp [resolve, isRealtime_eq, isSystemCommon_eq, h, h', this]

theorem resolve_channelVoice (rs : Byte) {b : Byte} (h : 0x80 ≤ b.toNat) (h' : b.toNat ≤ 0xEF) :
    resolve rs b = ⟨true, b, b⟩ := by
  have h1 : ¬ 0xF8 ≤ b.toNat := by omega
  have h2 : ¬ 0xF0 ≤ b.toNat := by omega
  simp [resolve, isRealtime_eq, isSystemCommon_eq, isChannelVoice_eq, h, h', h1, h2]

theorem resolve_data (rs : Byte) {b : Byte} (h : b.toNat < 0x80) :
    resolve rs b = if rs = 0x00#8 then ⟨false, 0x00#8, rs⟩ else ⟨true, rs, rs⟩ := by
  have h1 : ¬ 0xF8 ≤ b.toNat := by omega
  have h2 : ¬ 0xF0 ≤ b.toNat := by omega
  have h3 : ¬ 0x80 ≤ b.toNat := by omega
  simp [resolve, isRealtime_eq, isSystemCommon_eq, isChannelVoice_eq, h1, h2, h3]

/-- A status byte is its own effective status (R66, cases 1 to 3). -/
theorem resolve_status (rs : Byte) {b : Byte} (h : 0x80 ≤ b.toNat) :
    resolve rs b = ⟨true, b, if 0xF8 ≤ b.toNat then rs else if 0xF0 ≤ b.toNat then 0x00#8 else b⟩ := by
  by_cases h1 : 0xF8 ≤ b.toNat
  · simp [resolve_realtime rs h1, h1]
  · by_cases h2 : 0xF0 ≤ b.toNat
    · simp [resolve_systemCommon rs h2 (by omega), h1, h2]
    · simp [resolve_channelVoice rs h (by omega), h1, h2]

/-- Resolving a byte a second time gives the same again (20_memory.md R33). -/
theorem resolve_resolve (rs b : Byte) : resolve (resolve rs b).rs b = resolve rs b := by
  by_cases h : 0x80 ≤ b.toNat
  · rw [resolve_status rs h, resolve_status _ h]
    split_ifs <;> rfl
  · rw [resolve_data rs (by omega)]
    by_cases h' : rs = 0x00#8 <;> simp [h', resolve_data _ (Nat.lt_of_not_le h)]

/-- `FRM.RESOLVE` leaves a legal running status (R24). -/
theorem resolve_legal {rs : Byte} (b : Byte) (h : legalRs rs = true) : legalRs (resolve rs b).rs = true := by
  by_cases hb : 0x80 ≤ b.toNat
  · rw [resolve_status rs hb]
    dsimp only
    split_ifs
    · exact h
    · rfl
    · have : b.toNat ≤ 0xEF := by omega
      simp [legalRs, isChannelVoice_eq, hb, this]
  · rw [resolve_data rs (by omega)]
    split_ifs <;> exact h

/-! ### `FRM.NEXT` -/

/-- The running status that `FRM.NEXT` leaves is that of the embedded `FRM.RESOLVE` (R68 (e)). -/
theorem frameNext_rs (v : StatusTable) (rs b : Byte) (t : List Byte) : (frameNext v rs (b :: t)).rs = (resolve rs b).rs := by
  unfold frameNext
  dsimp only
  repeat' split
  all_goals rfl

theorem frameNext_legal (v : StatusTable) {rs : Byte} (bs : List Byte) (h : legalRs rs = true) :
    legalRs (frameNext v rs bs).rs = true := by
  cases bs with
  | nil => exact h
  | cons b t => rw [frameNext_rs]; exact resolve_legal b h

/-- The length of a channel-voice message does not depend on the status values of U1 (R67). -/
theorem msgLen_channelVoice (v : StatusTable) {st : Byte} (h : 0x80 ≤ st.toNat) (h' : st.toNat ≤ 0xEF) :
    msgLen v st = ⟨true, if st.toNat / 16 = 0xC ∨ st.toNat / 16 = 0xD then 2 else 3⟩ := by
  have hd : ¬ st.toNat < 0x80 := by omega
  have hs : st < (0xF0 : Byte) := Nat.lt_of_le_of_lt h' (by decide)
  simp only [msgLen, isData_eq, decide_eq_true_eq, hd, if_false, hiNibble_eq_iff, hs, if_true]
  have hpc : kindPC.toNat = 0xC := rfl
  have hcp : kindCP.toNat = 0xD := rfl
  rw [hpc, hcp]
  split_ifs <;> rfl

/-- A running status that is not none has a length of 2 or 3 (R67, R24). -/
theorem msgLen_of_legal (v : StatusTable) {r : Byte} (h : legalRs r = true) (h0 : r ≠ 0x00#8) :
    0x80 ≤ r.toNat ∧ r.toNat ≤ 0xEF ∧ (msgLen v r).valid = true ∧ 2 ≤ (msgLen v r).len ∧ (msgLen v r).len ≤ 3 := by
  simp only [legalRs, isChannelVoice_eq, Bool.or_eq_true, beq_iff_eq, decide_eq_true_eq] at h
  replace h := h.resolve_left h0
  refine ⟨h.1, h.2, ?_⟩
  rw [msgLen_channelVoice v h.1 h.2]
  dsimp only
  split_ifs <;> decide

/-- The lengths of the three messages of U1, whatever their status values are (R67). -/
theorem msgLen_named {v : StatusTable} (h : v.wf = true) :
    msgLen v v.quarterFrame = ⟨true, 2⟩ ∧ msgLen v v.songPosition = ⟨true, 3⟩ ∧ msgLen v v.songSelect = ⟨true, 2⟩ := by
  obtain ⟨q, p, e⟩ := v
  simp only [StatusTable.wf, Bool.and_eq_true, bne_iff_ne] at h
  obtain ⟨⟨⟨⟨⟨hq, hp⟩, he⟩, hqp⟩, hqe⟩, hpe⟩ := h
  have key : ∀ b : Byte, isNamedSystemCommon b = true →
      isData b = false ∧ hiNibble b ≠ kindPC ∧ hiNibble b ≠ kindCP ∧ ¬ b < 0xF0#8 ∧ b ≠ statusSysex := by decide
  obtain ⟨q1, q2, q3, q4, q5⟩ := key q hq
  obtain ⟨p1, p2, p3, p4, p5⟩ := key p hp
  obtain ⟨e1, e2, e3, e4, e5⟩ := key e he
  simp [msgLen, q1, q2, q3, q4, q5, p1, p2, p3, p4, p5, e1, e2, e3, e4, e5, hqp.symm, hpe]

/-- System exclusive with no `0xF7` has no end. -/
theorem sysexEnd_none {b : Byte} {t : List Byte} (h : 0xF7#8 ∉ t) : sysexEnd (b :: t) = none := by
  simp only [sysexEnd, List.drop_succ_cons, List.drop_zero, Option.map_eq_none_iff, List.findIdx?_eq_none_iff, beq_eq_false_iff_ne]
  rintro x hx rfl
  exact h hx

/-- System exclusive ends at its first `0xF7` (R68 (c)). -/
theorem sysexEnd_some {b : Byte} {u : List Byte} (v : List Byte) (h : 0xF7#8 ∉ u) :
    sysexEnd (b :: (u ++ 0xF7#8 :: v)) = some (u.length + 1) := by
  have hu : List.findIdx? (· == 0xF7#8) u = none := by
    rw [List.findIdx?_eq_none_iff]
    rintro x hx
    rw [beq_eq_false_iff_ne]
    rintro rfl
    exact h hx
  simp [sysexEnd, List.findIdx?_append, statusEOX, List.findIdx?_cons]
  rw [hu]
  simp

/-! ### `UMP.ENCODE` -/

/-- The header and three placed bytes are the word of these bytes in group 0 (R51). -/
theorem umpHeader_or_places (mt : BitVec 4) (k : Nat) (b0 b1 b2 : Byte) :
    umpHeader mt ||| umpPlace (3 * k) b0 ||| umpPlace (3 * k + 1) b1 ||| umpPlace (3 * k + 2) b2 = umpWord mt 0 b0 b1 b2 := by
  have e0 : 3 * k % 3 = 0 := by omega
  have e1 : (3 * k + 1) % 3 = 1 := by omega
  have e2 : (3 * k + 2) % 3 = 2 := by omega
  simp only [umpPlace, umpHeader, umpWord, e0, e1, e2]
  apply BitVec.eq_of_getLsbD_eq
  intro i hi
  simp only [BitVec.getLsbD_or, BitVec.getLsbD_shiftLeft, BitVec.getLsbD_setWidth, BitVec.getLsbD_append, BitVec.getLsbD_zero]
  interval_cases i <;> simp

@[simp] theorem umpPlace_zero (i : Nat) : umpPlace i 0#8 = 0#32 := by simp [umpPlace]

/-- A packed word is the word of its three bytes, those past the end of the input 0, in group 0 (R72, R51). -/
theorem umpPack_eq (bytes : List Byte) (k : Nat) :
    umpPack bytes k = umpWord (umpTypeOf (bytes.getD (3 * k) 0)) 0 (bytes.getD (3 * k) 0) (bytes.getD (3 * k + 1) 0)
      (bytes.getD (3 * k + 2) 0) := by
  rw [← umpHeader_or_places _ k]
  unfold umpPack
  generalize umpTypeOf (bytes.getD (3 * k) 0) = mt
  simp only [List.foldl, List.getD_eq_getElem?_getD]
  cases bytes[3 * k]? <;> cases bytes[3 * k + 1]? <;> cases bytes[3 * k + 2]? <;> simp

/-- The number a UMP word is. -/
theorem umpWord_toNat (mt g : BitVec 4) (b0 b1 b2 : Byte) :
    (umpWord mt g b0 b1 b2).toNat =
      mt.toNat * 2 ^ 28 + g.toNat * 2 ^ 24 + b0.toNat * 2 ^ 16 + b1.toNat * 2 ^ 8 + b2.toNat := by
  simp only [umpWord, BitVec.toNat_append]
  have := g.isLt
  have := b0.isLt
  have := b1.isLt
  have := b2.isLt
  rw [← Nat.shiftLeft_add_eq_or_of_lt (by omega), ← Nat.shiftLeft_add_eq_or_of_lt (by omega),
    ← Nat.shiftLeft_add_eq_or_of_lt (by omega), ← Nat.shiftLeft_add_eq_or_of_lt (by omega)]
  simp only [Nat.shiftLeft_eq]
  omega

end Sys2Proof.Machine
end

