-- ==== Sys2Proof/Laws/Invariant.lean ====
section
/-! SUPPORT. What the invariants of spec/10_state.md R23 give, and that the two updates of the buffer keep them: retiring the
oldest packet and appending a new one (spec/40_cpb.md R56, R58, R59), with the packets each leaves. -/

namespace Sys2Proof.Machine

/-! ### The widths of R5 hold the values they are for -/

theorem lt_two_pow_ceilLog2 {n x : Nat} (h : x < n) : x < 2 ^ ceilLog2 n := by
  unfold ceilLog2
  split
  · simp; omega
  · have := Nat.lt_log2_self (n := n - 1)
    omega

theorem Config.lt_two_pow_offW {c : Config} {x : Nat} (h : x < c.arenaCap) : x < 2 ^ c.offW :=
  Nat.lt_of_lt_of_le (lt_two_pow_ceilLog2 h) (Nat.pow_le_pow_right (by decide) (Nat.le_max_right _ _))

theorem Config.lt_two_pow_occW {c : Config} {x : Nat} (h : x ≤ c.arenaCap) : x < 2 ^ c.occW :=
  lt_two_pow_ceilLog2 (Nat.lt_succ_of_le h)

theorem Config.lt_two_pow_posW {c : Config} {x : Nat} (h : x < c.indexSlots) : x < 2 ^ c.posW :=
  lt_two_pow_ceilLog2 h

namespace State.Inv

variable {s : State}

theorem capPos (h : s.Inv) : 0 < s.cfg.arenaCap := Nat.lt_of_le_of_lt (Nat.zero_le _) h.offLt

theorem slotsGe (h : s.Inv) : 2 ≤ s.cfg.indexSlots := by
  have := h.cfgWf
  simp only [Config.wf, Bool.and_eq_true, decide_eq_true_eq] at this
  exact this.1.1.2

theorem capLe (h : s.Inv) : s.cfg.arenaCap ≤ 2 ^ s.cfg.lenW - 1 := by
  have := h.cfgWf
  simp only [Config.wf, Bool.and_eq_true, decide_eq_true_eq] at this
  exact this.1.2

theorem statusWf (h : s.Inv) : s.cfg.status.wf = true := by
  have := h.cfgWf
  simp only [Config.wf, Bool.and_eq_true] at this
  exact this.2

theorem isEmpty_iff (h : s.Inv) : s.isEmpty = true ↔ s.count = 0 := State.isEmpty_iff h.readLt h.writeLt

theorem isFull_iff (h : s.Inv) : s.isFull = true ↔ s.count = s.cfg.indexSlots - 1 :=
  State.isFull_iff h.readLt h.writeLt

theorem count_lt (h : s.Inv) : s.count < s.cfg.indexSlots := State.count_lt h.readLt h.writeLt

theorem live_eq_cons (h : s.Inv) (hc : 0 < s.count) :
    s.liveEntries = s.entry s.readPos :: s.retireOldest.liveEntries :=
  State.liveEntries_eq_cons h.readLt h.writeLt hc

/-- Each live packet has at least one byte, so there are at most as many packets as bytes (R23 (f)). -/
theorem count_le_bufLen (h : s.Inv) : s.count ≤ s.bufLen := by
  rw [h.occSum, ← State.liveEntries_length]
  have : ∀ es : List IdxEntry, (∀ e ∈ es, 1 ≤ e.len) → es.length ≤ totalLen es := by
    intro es
    induction es with
    | nil => intro _; simp
    | cons e es ih =>
      intro he
      have h1 := he e List.mem_cons_self
      have h2 := ih fun x hx => he x (List.mem_cons_of_mem _ hx)
      rw [totalLen_cons, List.length_cons]
      omega
  exact this _ h.liveLen

theorem bufLen_pos_iff (h : s.Inv) : 0 < s.bufLen ↔ 0 < s.count := by
  refine ⟨fun hb => ?_, fun hc => Nat.lt_of_lt_of_le hc h.count_le_bufLen⟩
  by_contra hc
  have h0 : s.liveEntries = [] := List.eq_nil_of_length_eq_zero (by rw [State.liveEntries_length]; omega)
  have := h.occSum
  rw [h0] at this
  simp [totalLen] at this
  omega

/-- A live packet's bytes have all been written (R22, R23 (c)). -/
theorem memRead_live (h : s.Inv) {e : IdxEntry} (he : e ∈ s.liveEntries) :
    memRead s.cfg.arenaCap s.arena e.off e.len = .ok (s.packetAt e) := by
  obtain ⟨k, hk, hle⟩ := tiles_mem _ _ h.offLt h.tiling e he
  rw [← h.occSum] at hle
  obtain ⟨bs, hbs⟩ := memRead_complete (cap := s.cfg.arenaCap) (m := s.arena) e.len e.off fun i hi => by
    rw [hk, Nat.mod_add_mod, Nat.add_assoc]
    exact h.liveWritten (k + i) (by omega)
  simp [State.packetAt, hbs]

theorem packetAt_length (h : s.Inv) {e : IdxEntry} (he : e ∈ s.liveEntries) : (s.packetAt e).length = e.len :=
  ((memRead_ok_iff _ _ _ _ _).1 (h.memRead_live he)).1

theorem map_length_packets (h : s.Inv) : s.packets.map List.length = s.liveEntries.map IdxEntry.len := by
  simp only [State.packets, List.map_map]
  exact List.map_congr_left fun e he => h.packetAt_length he

/-- `buf_len` is the number of bytes of the live packets (R14, R23 (b)). -/
theorem bufLen_eq (h : s.Inv) : s.bufLen = (s.packets.map List.length).sum := by
  rw [h.map_length_packets, h.occSum, totalLen]

theorem packet_pos (h : s.Inv) : ∀ p ∈ s.packets, 1 ≤ p.length := by
  intro p hp
  obtain ⟨e, he, rfl⟩ := List.mem_map.1 hp
  rw [h.packetAt_length he]
  exact h.liveLen e he

/-! ### Updates that leave the buffer alone -/

theorem withResp (h : s.Inv) (r : Response) : (s.withResp r).Inv :=
  ⟨h.cfgWf, h.readLt, h.writeLt, h.offLt, h.occLe, h.idxLength, h.idxFits, h.liveLen, h.occSum, h.tiling, h.arenaWf,
    h.arenaIn, h.liveWritten, h.rsLegal⟩

theorem withPort (h : s.Inv) (p : List PortEvent) : (s.withPort p).Inv :=
  ⟨h.cfgWf, h.readLt, h.writeLt, h.offLt, h.occLe, h.idxLength, h.idxFits, h.liveLen, h.occSum, h.tiling, h.arenaWf,
    h.arenaIn, h.liveWritten, h.rsLegal⟩

theorem withRs (h : s.Inv) {v : Byte} (hv : legalRs v = true) : (s.withRs v).Inv :=
  ⟨h.cfgWf, h.readLt, h.writeLt, h.offLt, h.occLe, h.idxLength, h.idxFits, h.liveLen, h.occSum, h.tiling, h.arenaWf,
    h.arenaIn, h.liveWritten, hv⟩

/-- All cursors at 0 and nothing live, whatever the cursors were before (R100). -/
theorem initCursors (hcfg : s.cfg.wf = true) (hidx : s.idx.length = s.cfg.indexSlots)
    (hfit : ∀ e ∈ s.idx, e.off < 2 ^ s.cfg.offW ∧ e.len < 2 ^ s.cfg.occW) (hwf : Memory.wf s.arena = true)
    (hin : ∀ c ∈ s.arena, c.1 < s.cfg.arenaCap) (hrs : legalRs s.rs = true) : s.initCursors.Inv := by
  have hc : s.initCursors.count = 0 := by simp [State.count]
  have hl : s.initCursors.liveEntries = [] := by
    apply List.eq_nil_of_length_eq_zero; rw [State.liveEntries_length, hc]
  have hcfg' := hcfg
  simp only [Config.wf, Bool.and_eq_true, decide_eq_true_eq] at hcfg
  refine ⟨hcfg', ?_, ?_, ?_, Nat.zero_le _, hidx, hfit, ?_, ?_, ?_, hwf, hin, ?_, hrs⟩
  · simp; omega
  · simp; omega
  · simp; omega
  · simp [hl]
  · simp [hl, totalLen]
  · simp [hl, tiles]
  · simp

/-! ### Retiring the oldest packet -/

theorem head_mem (h : s.Inv) (hc : 0 < s.count) : s.entry s.readPos ∈ s.liveEntries := by
  rw [h.live_eq_cons hc]; exact List.mem_cons_self

/-- The oldest packet starts at `buf_off` (R23 (c)). -/
theorem head_off (h : s.Inv) (hc : 0 < s.count) : (s.entry s.readPos).off = s.bufOff := by
  have := h.tiling
  rw [h.live_eq_cons hc] at this
  exact (tiles_cons.1 this).1

theorem bufLen_cons (h : s.Inv) (hc : 0 < s.count) :
    s.bufLen = (s.entry s.readPos).len + totalLen s.retireOldest.liveEntries := by
  rw [h.occSum, h.live_eq_cons hc, totalLen_cons]

theorem retireOldest (h : s.Inv) (hc : 0 < s.count) : s.retireOldest.Inv where
  cfgWf := h.cfgWf
  readLt := by simpa using Nat.mod_lt _ (by have := h.slotsGe; omega)
  writeLt := h.writeLt
  offLt := by simpa using Nat.mod_lt _ h.capPos
  occLe := by have := h.occLe; simp; omega
  idxLength := h.idxLength
  idxFits := h.idxFits
  liveLen := fun e he => h.liveLen e (by rw [h.live_eq_cons hc]; exact List.mem_cons_of_mem _ he)
  occSum := by have := h.bufLen_cons hc; simp only [State.retireOldest_bufLen]; omega
  tiling := by
    have := h.tiling
    rw [h.live_eq_cons hc] at this
    simpa using (tiles_cons.1 this).2
  arenaWf := h.arenaWf
  arenaIn := h.arenaIn
  liveWritten := fun i hi => by
    have hb := h.bufLen_cons hc
    simp only [State.retireOldest_bufLen] at hi
    simp only [State.retireOldest_arena, State.retireOldest_bufOff, State.retireOldest_cfg, Nat.mod_add_mod,
      Nat.add_assoc]
    exact h.liveWritten _ (by omega)
  rsLegal := h.rsLegal

theorem packets_eq_cons (h : s.Inv) (hc : 0 < s.count) :
    s.packets = s.packetAt (s.entry s.readPos) :: s.retireOldest.packets := by
  rw [State.packets, h.live_eq_cons hc, List.map_cons]
  rfl

/-- Retiring the oldest packet leaves the place of the next one (R15). -/
theorem bufEnd_retireOldest (h : s.Inv) (hc : 0 < s.count) : s.retireOldest.bufEnd = s.bufEnd := by
  have := h.bufLen_cons hc
  simp only [State.bufEnd, State.retireOldest_bufOff, State.retireOldest_bufLen, State.retireOldest_cfg,
    Nat.mod_add_mod]
  congr 1
  omega

/-! ### Appending a packet -/

/-- No offset of the live window is among those a fitting packet is written to. -/
theorem live_ne_tail (_h : s.Inv) {i j n : Nat} (hn : s.bufLen + n ≤ s.cfg.arenaCap) (hi : i < s.bufLen)
    (hj : j < n) : (s.bufOff + i) % s.cfg.arenaCap ≠ (s.bufEnd + j) % s.cfg.arenaCap := by
  rw [State.bufEnd, Nat.mod_add_mod, Nat.add_assoc]
  intro e
  have := add_mod_inj s.bufOff (by omega) (by omega) e
  omega

theorem appendPacket (h : s.Inv) {d : List Byte} (hf : s.isFull = false) (hd : 1 ≤ d.length)
    (hroom : s.bufLen + d.length ≤ s.cfg.arenaCap) : (s.appendPacket d).Inv := by
  have hlive := State.liveEntries_appendPacket d h.readLt h.writeLt h.idxLength hf
  have hslots := h.slotsGe
  have hend : s.bufEnd < s.cfg.arenaCap := Nat.mod_lt _ h.capPos
  refine ⟨h.cfgWf, h.readLt, ?_, h.offLt, ?_, ?_, ?_, ?_, ?_, ?_, ?_, ?_, ?_, h.rsLegal⟩
  · simpa using Nat.mod_lt _ (by omega)
  · simpa using hroom
  · simpa using h.idxLength
  · intro e he
    simp only [State.appendPacket_cfg, State.appendPacket_idx] at he ⊢
    rcases List.mem_or_eq_of_mem_set he with he | rfl
    · exact h.idxFits e he
    · exact ⟨Config.lt_two_pow_offW hend, Config.lt_two_pow_occW (by simp only; omega)⟩
  · intro e he
    rw [hlive] at he
    rcases List.mem_append.1 he with he | he
    · exact h.liveLen e he
    · rw [List.mem_singleton.1 he]; exact hd
  · rw [hlive, totalLen_append, ← h.occSum]; simp [totalLen]
  · rw [hlive]
    have := tiles_append s.liveEntries d.length _ h.offLt h.tiling
    rw [← h.occSum] at this
    exact this
  · exact memWrite_wf _ _ _ _ h.arenaWf
  · exact mem_memWrite h.capPos _ _ _ h.arenaIn
  · intro i hi
    simp only [State.appendPacket_bufLen] at hi
    simp only [State.appendPacket_arena, State.appendPacket_bufOff, State.appendPacket_cfg]
    by_cases hib : i < s.bufLen
    · rw [read_memWrite_other _ _ _ fun j hj => h.live_ne_tail hroom hib hj]
      exact h.liveWritten i hib
    · have : (s.bufOff + i) % s.cfg.arenaCap = (s.bufEnd + (i - s.bufLen)) % s.cfg.arenaCap := by
        rw [State.bufEnd, Nat.mod_add_mod, Nat.add_assoc, Nat.add_sub_cancel' (by omega)]
      rw [this, read_memWrite_at d _ _ _ (by omega) (by omega), List.getElem?_eq_getElem (by omega)]
      rfl

theorem packets_appendPacket (h : s.Inv) {d : List Byte} (hf : s.isFull = false)
    (hroom : s.bufLen + d.length ≤ s.cfg.arenaCap) : (s.appendPacket d).packets = s.packets ++ [d] := by
  rw [State.packets, State.liveEntries_appendPacket d h.readLt h.writeLt h.idxLength hf, List.map_append]
  congr 1
  · refine List.map_congr_left fun e he => ?_
    obtain ⟨k, hk, hle⟩ := tiles_mem _ _ h.offLt h.tiling e he
    rw [← h.occSum] at hle
    have : memRead s.cfg.arenaCap (memWrite s.cfg.arenaCap s.arena s.bufEnd d) e.off e.len
        = memRead s.cfg.arenaCap s.arena e.off e.len := memRead_congr _ _ fun i hi => by
      rw [hk, Nat.mod_add_mod, Nat.add_assoc]
      exact read_memWrite_other _ _ _ fun j hj => h.live_ne_tail hroom (by omega) hj
    simp [State.packetAt, this]
  · simp only [List.map_cons, List.map_nil, State.packetAt, State.appendPacket_cfg, State.appendPacket_arena]
    rw [memRead_memWrite_same _ _ _ (by omega)]

end State.Inv

end Sys2Proof.Machine
end

