-- ==== Sys2Proof/Laws/PerInstr.lean ====
section
/-! SUPPORT. Decoding gives back every encoded well-formed instruction, constructor by constructor (spec/30_encoding.md R42,
R45, R48). -/

namespace Sys2Proof.Laws.DecodeEncode

/-- The decoder gives back an encoded well-formed instruction, whatever the block's status values are. -/
def Statement (i : Instr) : Prop := ∀ v : StatusTable, v.wf = true → i.wf v = true → decode v (encode v i) = .ok i

/-- What the decoder asks of a byte, answered for the system-common bytes that can be the status values of U1. -/
theorem namedSystemCommon_spec : ∀ b : Byte, isNamedSystemCommon b = true →
    b.extractLsb' 3 5 ≠ 0b11111#5 ∧ b ≠ statusSysex ∧ b ≠ statusEOX ∧ b.extractLsb' 3 5 = 0b11110#5 := by
  decide

/-- The status values one by one (U1). -/
theorem statusTable_spec {v : StatusTable} (h : v.wf = true) :
    isNamedSystemCommon v.quarterFrame = true ∧ isNamedSystemCommon v.songPosition = true ∧
      isNamedSystemCommon v.songSelect = true ∧ v.quarterFrame ≠ v.songPosition ∧ v.quarterFrame ≠ v.songSelect ∧
      v.songPosition ≠ v.songSelect := by
  simpa [StatusTable.wf, and_assoc] using h

/-- A byte outside `0xF1..0xF6` is none of the three (U1). -/
theorem ne_status {v : StatusTable} (h : v.wf = true) {b : Byte} (hb : isNamedSystemCommon b = false) :
    b ≠ v.quarterFrame ∧ b ≠ v.songPosition ∧ b ≠ v.songSelect := by
  obtain ⟨hq, hp, hs, -⟩ := statusTable_spec h
  refine ⟨?_, ?_, ?_⟩ <;> rintro rfl <;> simp_all

theorem toNat_ofNat_16 {n : Nat} (h : n < 2 ^ 16) : (BitVec.ofNat 16 n).toNat = n := by
  rw [BitVec.toNat_ofNat]; exact Nat.mod_eq_of_lt h

theorem toNat_ofNat_12 {n : Nat} (h : n < 2 ^ 12) : (BitVec.ofNat 12 n).toNat = n := by
  rw [BitVec.toNat_ofNat]; exact Nat.mod_eq_of_lt h

theorem cpbInit : Statement .cpbInit := by
  intro v hv _
  simp [decode, encode, decodeCmd, cmdSelects, decodeOperation, withPayload]

theorem cpbPush (data : List Byte) : Statement (.cpbPush data) := by
  intro v hv h
  have := toNat_ofNat_16 (of_decide_eq_true h)
  simp [decode, encode, decodeCmd, cmdSelects, decodeOperation, withPayload, this]

theorem cpbPop (cap : Nat) : Statement (.cpbPop cap) := by
  intro v hv h
  have := toNat_ofNat_16 (of_decide_eq_true h)
  simp [decode, encode, decodeCmd, cmdSelects, decodeOperation, withPayload, this]

theorem cpbCount : Statement .cpbCount := by
  intro v hv _
  simp [decode, encode, decodeCmd, cmdSelects, decodeOperation, withPayload]

theorem frmReset : Statement .frmReset := by
  intro v hv _
  simp [decode, encode, decodeCmd, cmdSelects, decodeOperation, withPayload]

theorem frmResolve (b : Byte) : Statement (.frmResolve b) := by
  intro v hv _
  simp [decode, encode, decodeCmd, cmdSelects, decodeOperation, withPayload]

theorem frmMsglen (st : Byte) : Statement (.frmMsglen st) := by
  intro v hv _
  simp [decode, encode, decodeCmd, cmdSelects, decodeOperation, withPayload]

theorem frmNext (s : List Byte) : Statement (.frmNext s) := by
  intro v hv h
  have := toNat_ofNat_16 (of_decide_eq_true h)
  simp [decode, encode, decodeCmd, cmdSelects, decodeOperation, withPayload, this]

theorem umpDecode (words : List Word) (cap : Nat) : Statement (.umpDecode words cap) := by
  intro v hv h
  obtain ⟨h1, h2⟩ := Bool.and_eq_true_iff.1 h
  have h1 := toNat_ofNat_12 (of_decide_eq_true h1)
  have h2 := toNat_ofNat_16 (of_decide_eq_true h2)
  simp [decode, encode, decodeCmd, cmdSelects, decodeOperation, withPayload, h1, h2]

theorem umpEncode (bytes : List Byte) : Statement (.umpEncode bytes) := by
  intro v hv h
  have := toNat_ofNat_16 (of_decide_eq_true h)
  simp [decode, encode, decodeCmd, cmdSelects, decodeOperation, withPayload, this]

theorem cmdReserved (op : BitVec 4) (a : BitVec 12) (b : BitVec 16) : Statement (.cmdReserved op a b) := by
  intro v hv h
  simp only [Instr.wf, Instr.wfIn, Bool.not_eq_true'] at h
  simp [decode, encode, decodeCmd, h]

theorem stRt (value : BitVec 3) : Statement (.stRt value) := by
  intro v hv _
  have key : ∀ x : BitVec 3, (rtByte x).extractLsb' 3 5 = 0b11111#5 ∧ (rtByte x).extractLsb' 0 3 = x := by decide
  simp [decode, encode, decodeMidi, key value]

theorem stSysex : Statement .stSysex := by
  intro v hv _
  simp [decode, encode, decodeMidi, statusSysex]

theorem stQf : Statement .stQf := by
  intro v hv _
  obtain ⟨hq, -⟩ := statusTable_spec hv
  have key := namedSystemCommon_spec _ hq
  simp [decode, encode, decodeMidi, key]

theorem stSpp : Statement .stSpp := by
  intro v hv _
  obtain ⟨-, hp, -, hqp, -⟩ := statusTable_spec hv
  have key := namedSystemCommon_spec _ hp
  simp [decode, encode, decodeMidi, key, hqp.symm]

theorem stSs : Statement .stSs := by
  intro v hv _
  obtain ⟨-, -, hs, -, hqs, hps⟩ := statusTable_spec hv
  have key := namedSystemCommon_spec _ hs
  simp [decode, encode, decodeMidi, key, hqs.symm, hps.symm]

theorem stEox : Statement .stEox := by
  intro v hv _
  obtain ⟨h1, h2, h3⟩ := ne_status hv (b := statusEOX) rfl
  have : statusEOX.extractLsb' 3 5 ≠ 0b11111#5 ∧ statusEOX ≠ statusSysex := by decide
  simp [decode, encode, decodeMidi, h1, h2, h3, this]

theorem stSyscomOther (value : BitVec 3) : Statement (.stSyscomOther value) := by
  intro v hv h
  simp only [Instr.wf, Instr.wfIn, Bool.and_eq_true, bne_iff_ne] at h
  obtain ⟨⟨⟨hn, h1⟩, h2⟩, h3⟩ := h
  have key := namedSystemCommon_spec _ hn
  have low : ∀ x : BitVec 3, (syscomByte x).extractLsb' 0 3 = x := by decide
  simp [decode, encode, decodeMidi, key, h1, h2, h3, low value]

/-- A byte that is no realtime or system-common status is decoded by its class (R45). -/
theorem decodeMidi_of_not_system {v : StatusTable} (hv : v.wf = true) (b : Byte) (hb : hiNibble b ≠ 0xF#4) :
    decodeMidi v b = if hiNibble b = kindPC then .stCvPc (loNibble b)
      else if hiNibble b = kindCP then .stCvCp (loNibble b)
      else if b.extractLsb' 7 1 = 1 then .stCvOther (hiNibble b) (loNibble b)
      else .midiData (b.extractLsb' 0 7) := by
  have key : ∀ b : Byte, hiNibble b ≠ 0xF#4 → b.extractLsb' 3 5 ≠ 0b11111#5 ∧ b ≠ statusSysex ∧ b ≠ statusEOX ∧
      b.extractLsb' 3 5 ≠ 0b11110#5 ∧ isNamedSystemCommon b = false := by decide
  obtain ⟨k1, k2, k3, k4, k5⟩ := key b hb
  obtain ⟨h1, h2, h3⟩ := ne_status hv k5
  simp [decodeMidi, k1, k2, k3, k4, h1, h2, h3]

theorem stCvPc (channel : BitVec 4) : Statement (.stCvPc channel) := by
  intro v hv _
  simp [decode, encode, decodeMidi_of_not_system hv, kindPC]

theorem stCvCp (channel : BitVec 4) : Statement (.stCvCp channel) := by
  intro v hv _
  simp [decode, encode, decodeMidi_of_not_system hv, kindPC, kindCP]

theorem stCvOther (kind channel : BitVec 4) : Statement (.stCvOther kind channel) := by
  intro v hv h
  simp only [Instr.wf, Instr.wfIn, Bool.and_eq_true, bne_iff_ne] at h
  obtain ⟨⟨⟨h7, hpc⟩, hcp⟩, hf⟩ := h
  have key : ∀ k c : BitVec 4, k.getLsbD 3 = true → (cvByte k c).extractLsb' 7 1 = 1#1 := by decide
  have hb : hiNibble (cvByte kind channel) ≠ 0xF#4 := by simpa using hf
  simp [decode, encode, decodeMidi_of_not_system hv _ hb, hpc, hcp, key kind channel h7]

theorem midiData (value : BitVec 7) : Statement (.midiData value) := by
  intro v hv _
  have key : ∀ x : BitVec 7, hiNibble (dataByte x) ≠ 0xF#4 ∧ hiNibble (dataByte x) ≠ kindPC ∧
      hiNibble (dataByte x) ≠ kindCP ∧ (dataByte x).extractLsb' 7 1 ≠ 1#1 ∧ (dataByte x).extractLsb' 0 7 = x := by decide
  obtain ⟨h1, h2, h3, h4, h5⟩ := key value
  simp [decode, encode, decodeMidi_of_not_system hv _ h1, h2, h3, h4, h5]

theorem umpSysQf (group : BitVec 4) (b1 b2 : Byte) : Statement (.umpSysQf group b1 b2) := by
  intro v hv _
  simp [decode, encode, decodeUmp]

theorem umpSysSpp (group : BitVec 4) (b1 b2 : Byte) : Statement (.umpSysSpp group b1 b2) := by
  intro v hv _
  obtain ⟨-, -, -, hqp, -⟩ := statusTable_spec hv
  simp [decode, encode, decodeUmp, hqp.symm]

theorem umpSysSs (group : BitVec 4) (b1 b2 : Byte) : Statement (.umpSysSs group b1 b2) := by
  intro v hv _
  obtain ⟨-, -, -, -, hqs, hps⟩ := statusTable_spec hv
  simp [decode, encode, decodeUmp, hqs.symm, hps.symm]

theorem umpSysOther (group : BitVec 4) (b0 b1 b2 : Byte) : Statement (.umpSysOther group b0 b1 b2) := by
  intro v hv h
  simp only [Instr.wf, Instr.wfIn, Bool.and_eq_true, bne_iff_ne] at h
  simp_all [decode, encode, decodeUmp]

theorem umpCvPc (group channel : BitVec 4) (b1 b2 : Byte) : Statement (.umpCvPc group channel b1 b2) := by
  intro v hv _
  simp [decode, encode, decodeUmp]

theorem umpCvCp (group channel : BitVec 4) (b1 b2 : Byte) : Statement (.umpCvCp group channel b1 b2) := by
  intro v hv _
  simp [decode, encode, decodeUmp, kindPC, kindCP]

theorem umpCvOther (group : BitVec 4) (b0 b1 b2 : Byte) : Statement (.umpCvOther group b0 b1 b2) := by
  intro v hv h
  simp only [Instr.wf, Instr.wfIn, Bool.and_eq_true, bne_iff_ne] at h
  simp_all [decode, encode, decodeUmp]

theorem umpData (group : BitVec 4) (b0 b1 b2 : Byte) : Statement (.umpData group b0 b1 b2) := by
  intro v hv _
  simp [decode, encode, decodeUmp]

theorem umpRsvdMt0 (group : BitVec 4) (b0 b1 b2 : Byte) : Statement (.umpRsvdMt0 group b0 b1 b2) := by
  intro v hv _
  simp [decode, encode, decodeUmp]

theorem umpRsvdMt4To7 (mtLow : BitVec 2) (group : BitVec 4) (b0 b1 b2 : Byte) :
    Statement (.umpRsvdMt4To7 mtLow group b0 b1 b2) := by
  intro v hv _
  have h : ∀ m : BitVec 2, (0b01#2 ++ m ≠ 1#4) ∧ (0b01#2 ++ m ≠ 2#4) ∧ (0b01#2 ++ m ≠ 3#4) ∧ (0b01#2 ++ m ≠ 0#4) ∧
      (0b01#2 ++ m : BitVec 4).extractLsb' 3 1 = 0#1 ∧ (0b01#2 ++ m : BitVec 4).extractLsb' 0 2 = m := by decide
  obtain ⟨h1, h2, h3, h0, hi, lo⟩ := h mtLow
  simp [decode, encode, decodeUmp, h1, h2, h3, h0, hi, lo]

theorem umpRsvdMt8To15 (mtLow : BitVec 3) (group : BitVec 4) (b0 b1 b2 : Byte) :
    Statement (.umpRsvdMt8To15 mtLow group b0 b1 b2) := by
  intro v hv _
  have h : ∀ m : BitVec 3, (0b1#1 ++ m ≠ 1#4) ∧ (0b1#1 ++ m ≠ 2#4) ∧ (0b1#1 ++ m ≠ 3#4) ∧ (0b1#1 ++ m ≠ 0#4) ∧
      (0b1#1 ++ m : BitVec 4).extractLsb' 3 1 ≠ 0#1 ∧ (0b1#1 ++ m : BitVec 4).extractLsb' 0 3 = m := by decide
  obtain ⟨h1, h2, h3, h0, hi, lo⟩ := h mtLow
  simp [decode, encode, decodeUmp, h1, h2, h3, h0, hi, lo]

end Sys2Proof.Laws.DecodeEncode
end

