-- ==== Sys2Proof/Laws/Push.lean ====
section
/-! SUPPORT. What making room does (spec/40_cpb.md R58 steps 1 and 2): it evicts the fewest oldest packets that leave room, and
changes nothing but the three cursors of the read side. -/

namespace Sys2Proof.Machine

variable {s : State}

/-- `k` evictions leave everything but `read_pos`, `buf_off` and `buf_len`. -/
theorem iterate_retireOldest_frame (s : State) (k : Nat) :
    (State.retireOldest^[k] s).cfg = s.cfg ∧ (State.retireOldest^[k] s).writePos = s.writePos ∧
    (State.retireOldest^[k] s).idx = s.idx ∧ (State.retireOldest^[k] s).arena = s.arena ∧
    (State.retireOldest^[k] s).rs = s.rs ∧ (State.retireOldest^[k] s).resp = s.resp ∧
    (State.retireOldest^[k] s).port = s.port := by
  induction k generalizing s with
  | zero => simp
  | succ k ih => simpa using ih s.retireOldest

/-- What `k` evictions leave of a good state with at least `k` packets. -/
structure EvictedTo (s : State) (k : Nat) : Prop where
  inv : (State.retireOldest^[k] s).Inv
  count : (State.retireOldest^[k] s).count = s.count - k
  packets : (State.retireOldest^[k] s).packets = s.packets.drop k
  bufEnd : (State.retireOldest^[k] s).bufEnd = s.bufEnd

theorem State.Inv.evictedTo (h : s.Inv) {k : Nat} (hk : k ≤ s.count) : EvictedTo s k := by
  induction k generalizing s with
  | zero => exact ⟨h, rfl, rfl, rfl⟩
  | succ k ih =>
    have hc : 0 < s.count := by omega
    have hc1 := State.count_retireOldest h.readLt h.writeLt hc
    have := ih (h.retireOldest hc) (by omega)
    refine ⟨this.inv, ?_, ?_, ?_⟩
    · rw [Function.iterate_succ_apply, this.count]; omega
    · rw [Function.iterate_succ_apply, this.packets, h.packets_eq_cons hc, List.drop_succ_cons]
    · rw [Function.iterate_succ_apply, this.bufEnd, h.bufEnd_retireOldest hc]

/-- Step 2 of `CPB.PUSH` in a good state: it ends, having evicted the fewest packets that leave room for the
bytes (R58). -/
theorem State.Inv.evictUntilFits (h : s.Inv) {len ev : Nat} (hlen : len ≤ s.cfg.arenaCap) :
    ∃ k ≤ s.count, evictUntilFits len s.count s ev = some (State.retireOldest^[k] s, ev + k) ∧
      (State.retireOldest^[k] s).bufLen + len ≤ s.cfg.arenaCap ∧
      ∀ j < k, s.cfg.arenaCap < ((s.packets.drop j).map List.length).sum + len := by
  generalize hn : s.count = n
  induction n generalizing s ev with
  | zero =>
    refine ⟨0, Nat.le_refl _, ?_, ?_, by omega⟩
    all_goals
      have hb : s.bufLen = 0 := by have := h.bufLen_pos_iff; omega
      simp [Machine.evictUntilFits, hb, hlen]
  | succ n ih =>
    by_cases hfit : s.bufLen + len ≤ s.cfg.arenaCap
    · exact ⟨0, by omega, by simp [Machine.evictUntilFits, hfit], hfit, by omega⟩
    · have hc : 0 < s.count := by omega
      obtain ⟨k, hk, he, hroom, hmin⟩ := ih (ev := ev + 1) (h.retireOldest hc) hlen
        (by rw [State.count_retireOldest h.readLt h.writeLt hc]; omega)
      refine ⟨k + 1, by omega, ?_, hroom, ?_⟩
      · rw [Machine.evictUntilFits, if_neg hfit, he, Function.iterate_succ_apply]
        simp; omega
      · intro j hj
        cases j with
        | zero => have := h.bufLen_eq; simp only [List.drop_zero]; omega
        | succ j =>
          have := hmin j (by omega)
          rwa [h.packets_eq_cons hc, List.drop_succ_cons]

/-- Steps 1 and 2 of `CPB.PUSH` in a good state, for a length the arena can hold: room is made by evicting the
`k` oldest packets, `k` the least number that leaves room (R58). -/
theorem State.Inv.makeRoom (h : s.Inv) {len : Nat} (hlen : len ≤ s.cfg.arenaCap) :
    ∃ k ≤ s.count, s.makeRoom len = some (State.retireOldest^[k] s, k) ∧
      (State.retireOldest^[k] s).isFull = false ∧
      (State.retireOldest^[k] s).bufLen + len ≤ s.cfg.arenaCap ∧
      s.RoomAfter k len ∧ ∀ j < k, ¬ s.RoomAfter j len := by
  have hslots := h.slotsGe
  have hcl := h.count_lt
  have key : ∀ k, k ≤ s.count → s.count - k < s.cfg.indexSlots - 1 →
      (State.retireOldest^[k] s).bufLen + len ≤ s.cfg.arenaCap →
      (State.retireOldest^[k] s).isFull = false ∧ s.RoomAfter k len := by
    intro k hk hcnt hroom
    have he := h.evictedTo hk
    constructor
    · by_contra hf
      rw [Bool.not_eq_false, he.inv.isFull_iff, he.count, (iterate_retireOldest_frame s k).1] at hf
      omega
    · refine ⟨by rw [State.packets_length, Config.pktMax]; exact hcnt, ?_⟩
      rw [← he.packets, ← he.inv.bufLen_eq]
      exact hroom
  by_cases hfull : s.isFull = true
  · have hcnt := h.isFull_iff.1 hfull
    have hc : 0 < s.count := by omega
    have hc1 := State.count_retireOldest h.readLt h.writeLt hc
    obtain ⟨k, hk, he, hroom, hmin⟩ := (h.retireOldest hc).evictUntilFits (ev := 1) hlen
    obtain ⟨h1, h2⟩ := key (k + 1) (by omega) (by omega) hroom
    refine ⟨k + 1, by omega, ?_, h1, hroom, h2, ?_⟩
    · simp only [State.makeRoom, State.evictIfFull, hfull, if_true]
      rw [he, Function.iterate_succ_apply, Nat.add_comm]
    · rintro (_ | j) hj ⟨r1, r2⟩
      · rw [State.packets_length, Config.pktMax] at r1; omega
      · have := hmin j (by omega)
        rw [h.packets_eq_cons hc, List.drop_succ_cons] at r2
        rw [State.retireOldest_cfg] at this
        omega
  · have hcnt : s.count ≠ s.cfg.indexSlots - 1 := fun e => hfull (h.isFull_iff.2 e)
    obtain ⟨k, hk, he, hroom, hmin⟩ := h.evictUntilFits (ev := 0) hlen
    obtain ⟨h1, h2⟩ := key k hk (by omega) hroom
    refine ⟨k, hk, ?_, h1, hroom, h2, ?_⟩
    · simp only [State.makeRoom, State.evictIfFull, hfull]
      simpa using he
    · rintro j hj ⟨_, r2⟩
      have := hmin j hj
      omega

end Sys2Proof.Machine
end

