-- ==== Sys2Proof/Laws/Step.lean ====
section
/-! SUPPORT. What a step can do, said once (spec/20_memory.md R35, spec/70_reset_and_hazards.md R98). -/

namespace Sys2Proof.Machine

/-- What can stand first at the port, and what a step does with it. -/
theorem step_eq (s : State) :
    (s.port = [] ∧ step s = .next s) ∨
    (∃ rest, s.port = .hardReset :: rest ∧ step s = .next (hardReset (s.withPort rest))) ∨
    (∃ t u rest, s.port = .overlap t u :: rest ∧ step s = .refused .overlappingDrive) ∨
    (∃ t rest e, s.port = .present t :: rest ∧ decode s.cfg.status t = .error e ∧ step s = .refused (.malformedTransaction e)) ∨
    ∃ i rest, ((∃ t, s.port = .present t :: rest ∧ decode s.cfg.status t = .ok i) ∨ s.port = .operation i :: rest) ∧
      step s = if i.wfIn s.cfg then exec i (s.withPort rest) else .refused .operandOutOfRange := by
  have adm : ∀ i rest, (match acceptFitting i (s.withPort rest) with
      | .idle => Host.Outcome.next s
      | .instr i s' => exec i s'
      | .hardReset s' => .next (hardReset s')
      | .refuse r => .refused r) =
      if i.wfIn s.cfg then exec i (s.withPort rest) else .refused .operandOutOfRange := by
    intro i rest
    by_cases h : i.wfIn s.cfg = true <;> simp [acceptFitting, h]
  unfold step fetch
  rcases hp : s.port with _ | ⟨e, rest⟩
  · exact .inl ⟨rfl, rfl⟩
  · cases e with
    | hardReset => exact .inr (.inl ⟨rest, rfl, rfl⟩)
    | overlap t u => exact .inr (.inr (.inl ⟨t, u, rest, rfl, rfl⟩))
    | operation i => exact .inr (.inr (.inr (.inr ⟨i, rest, .inr rfl, adm i rest⟩)))
    | present t =>
      cases hd : decode s.cfg.status t with
      | error e => exact .inr (.inr (.inr (.inl ⟨t, rest, e, rfl, hd, by simp only [hd]⟩)))
      | ok i => exact .inr (.inr (.inr (.inr ⟨i, rest, .inl ⟨t, rfl, hd⟩, by simp only [hd]; exact adm i rest⟩)))

/-- A step whose answer is a next state held an idle block, reset it, or ran the instruction first at the port. -/
theorem step_cases {s t : State} (h : step s = .next t) :
    (s.port = [] ∧ t = s) ∨
    (∃ rest, s.port = .hardReset :: rest ∧ t = hardReset (s.withPort rest)) ∨
    ∃ i rest, ((∃ tr, s.port = .present tr :: rest ∧ decode s.cfg.status tr = .ok i) ∨ s.port = .operation i :: rest) ∧
      exec i (s.withPort rest) = .next t := by
  rcases step_eq s with ⟨hp, e⟩ | ⟨rest, hp, e⟩ | ⟨_, _, _, _, e⟩ | ⟨_, _, _, _, _, e⟩ | ⟨i, rest, hp, e⟩ <;> rw [h] at e
  · cases e; exact .inl ⟨hp, rfl⟩
  · cases e; exact .inr (.inl ⟨rest, hp, rfl⟩)
  · cases e
  · cases e
  · split_ifs at e
    exact .inr (.inr ⟨i, rest, hp, e.symm⟩)

/-- A step faults only where the instruction first at the port does. -/
theorem step_fault_cases {s : State} {f : Fault} (h : step s = .fault f) :
    ∃ i rest, ((∃ tr, s.port = .present tr :: rest ∧ decode s.cfg.status tr = .ok i) ∨ s.port = .operation i :: rest) ∧
      exec i (s.withPort rest) = .fault f := by
  rcases step_eq s with ⟨_, e⟩ | ⟨_, _, e⟩ | ⟨_, _, _, _, e⟩ | ⟨_, _, _, _, _, e⟩ | ⟨i, rest, hp, e⟩ <;> rw [h] at e
  · cases e
  · cases e
  · cases e
  · cases e
  · split_ifs at e
    exact ⟨i, rest, hp, e.symm⟩

end Sys2Proof.Machine
end

