-- ==== Sys2Proof/Tests/Slice0.lean ====
section
/-! SUPPORT. The model's own tests: the checks of WellFormed, words written out from the spec's encodings, one-step vectors of
spec/95_test_vectors.md, and for every statement that has hypotheses a witness that meets them. -/

namespace Sys2Proof.Tests

open Sys2Proof Sys2Proof.Machine

/-! ### Helpers -/

/-- The small configuration of 95_test_vectors.md: `ARENA_CAP = 8`, `INDEX_SLOTS = 4`, after reset. -/
def small : State :=
  State.resetWith { Config.default with arenaCap := 8, indexSlots := 4 }

/-- Other status values for Quarter-Frame, Song-Position and Song-Select (U1). -/
def otherStatus : StatusTable := { quarterFrame := 0xF4, songPosition := 0xF1, songSelect := 0xF6 }

/-- The small configuration with them. -/
def smallOther : State := { small with cfg := { small.cfg with status := otherStatus } }

/-- The state after a list of instructions. -/
def after (is : List Instr) (s : State) : State :=
  match issueAll is s with
  | .next (_, t) => t
  | _ => s

/-- The response of an instruction. -/
def respOf (i : Instr) (s : State) : Option Response :=
  match exec i s with
  | .next t => t.resp
  | _ => none

/-- `read_pos write_pos buf_off buf_len`, as the vectors write them. -/
def cursors (s : State) : List Nat := [s.readPos, s.writePos, s.bufOff, s.bufLen]

/-- V5 after its two first pushes. -/
def two : State := after [.cpbPush [0x11, 0x12, 0x13], .cpbPush [0x21, 0x22, 0x23]] small

/-- V2 after its three first pushes: the ring is full. -/
def three : State := after [.cpbPush [0x01], .cpbPush [0x02], .cpbPush [0x03]] small

/-- V5 after its third push: the second packet wraps. -/
def wrapped : State := after [.cpbPush [0x31, 0x32, 0x33, 0x34]] two

/-- An empty buffer whose next packet starts at offset 6. -/
def atSix : State := after [.cpbPop 16, .cpbPop 16] two

/-! ### WellFormed: each check refuses an ill-formed term -/

theorem test_wf_push_too_long :
    (Instr.cpbPush (List.replicate 65536 0)).wf StatusTable.default = false ∧ (Instr.cpbPush (List.replicate 65535 0)).wf StatusTable.default = true := by
  simp only [Instr.wf, Instr.wfIn, List.length_replicate]
  decide

theorem test_wf_next_too_long :
    (Instr.frmNext (List.replicate 65536 0)).wf StatusTable.default = false ∧ (Instr.frmNext (List.replicate 65535 0)).wf StatusTable.default = true := by
  simp only [Instr.wf, Instr.wfIn, List.length_replicate]
  decide

theorem test_wf_encode_too_long :
    (Instr.umpEncode (List.replicate 65536 0)).wf StatusTable.default = false ∧ (Instr.umpEncode (List.replicate 65535 0)).wf StatusTable.default = true := by
  simp only [Instr.wf, Instr.wfIn, List.length_replicate]
  decide

theorem test_wf_decode_too_many_words :
    (Instr.umpDecode (List.replicate 4096 0) 0).wf StatusTable.default = false ∧ (Instr.umpDecode (List.replicate 4095 0) 0).wf StatusTable.default = true := by
  simp only [Instr.wf, Instr.wfIn, List.length_replicate]
  decide

theorem test_wf_capacity_too_great :
    (Instr.cpbPop 65536).wf StatusTable.default = false ∧ (Instr.cpbPop 65535).wf StatusTable.default = true ∧ (Instr.umpDecode [0] 65536).wf StatusTable.default = false ∧
      (Instr.umpDecode [0] 65535).wf StatusTable.default = true := by decide

/-- R5: the widths are the block's, and not the command word's. -/
theorem test_wf_in_other_widths :
    (Instr.cpbPop 16).wfIn { Config.default with lenW := 4 } = false ∧
      (Instr.cpbPop 15).wfIn { Config.default with lenW := 4 } = true ∧
      (Instr.cpbPop 65536).wfIn { Config.default with lenW := 20 } = true ∧
      (Instr.umpDecode [0, 0] 3).wfIn { Config.default with wcW := 1 } = false := by decide

theorem test_wf_reserved_that_selects : (Instr.cmdReserved 0x1 0 3).wf StatusTable.default = false := by decide

/-- `0xF0`, `0xF1` and `0xF7` are no other system common, and with other status values `0xF1` or `0xF4` is none. -/
theorem test_wf_syscom_other_of_another_row :
    [0, 1, 2, 3, 7].all (fun x => (Instr.stSyscomOther x).wf StatusTable.default == false) = true ∧
      [4, 5, 6].all (fun x => (Instr.stSyscomOther x).wf StatusTable.default) = true ∧
      (Instr.stSyscomOther 4).wf otherStatus = false ∧ (Instr.stSyscomOther 2).wf otherStatus = true := by decide

/-- Status values that are equal, that are system exclusive's end, or that are no system-common status. -/
theorem test_status_table_ill_formed :
    StatusTable.wf ⟨0xF1, 0xF1, 0xF3⟩ = false ∧ StatusTable.wf ⟨0xF1, 0xF2, 0xF7⟩ = false ∧
      StatusTable.wf ⟨0xF8, 0xF2, 0xF3⟩ = false ∧ StatusTable.default.wf = true ∧ otherStatus.wf = true := by decide

theorem test_wf_cv_other_of_another_row :
    (Instr.stCvOther 0xC 0).wf StatusTable.default = false ∧ (Instr.stCvOther 0xD 0).wf StatusTable.default = false ∧ (Instr.stCvOther 0xF 0).wf StatusTable.default = false ∧
      (Instr.stCvOther 0x7 0).wf StatusTable.default = false := by decide

theorem test_wf_ump_sys_other_of_another_row :
    (Instr.umpSysOther 0 0xF1 0 0).wf StatusTable.default = false ∧ (Instr.umpSysOther 0 0xF2 0 0).wf StatusTable.default = false ∧
      (Instr.umpSysOther 0 0xF3 0 0).wf StatusTable.default = false := by decide

theorem test_wf_ump_cv_other_of_another_row :
    (Instr.umpCvOther 0 0xC3 0 0).wf StatusTable.default = false ∧ (Instr.umpCvOther 0 0xD3 0 0).wf StatusTable.default = false := by decide

/-! ### Decoding: words written out from R42, R45, R48 (V30 for the command words) -/

theorem test_decode_cpb :
    decode StatusTable.default (.cmd32 0b00000000000000000000000000000000 [] []) = .ok .cpbInit ∧
    decode StatusTable.default (.cmd32 0b00010000000000000000000000000011 [0xA1, 0xA2, 0xA3] []) = .ok (.cpbPush [0xA1, 0xA2, 0xA3]) ∧
    decode StatusTable.default (.cmd32 0b00010000000000000000000000000000 [] []) = .ok (.cpbPush []) ∧
    decode StatusTable.default (.cmd32 0b00100000000000000000010000000000 [] []) = .ok (.cpbPop 1024) ∧
    decode StatusTable.default (.cmd32 0b00110000000000000000000000000000 [] []) = .ok .cpbCount := by decide

theorem test_decode_frm :
    decode StatusTable.default (.cmd32 0b01000000000000000000000000000000 [] []) = .ok .frmReset ∧
    decode StatusTable.default (.cmd32 0b01010000000000000000000010010000 [] []) = .ok (.frmResolve 0x90) ∧
    decode StatusTable.default (.cmd32 0b01100000000000000000000010010000 [] []) = .ok (.frmMsglen 0x90) ∧
    decode StatusTable.default (.cmd32 0b01110000000000000000000000000101 [0x90, 0x40, 0x7F, 0x41, 0x7F] []) =
      .ok (.frmNext [0x90, 0x40, 0x7F, 0x41, 0x7F]) := by decide

theorem test_decode_ump_commands :
    decode StatusTable.default (.cmd32 0b10000000000000010000000000010000 [] [0x20913C64]) = .ok (.umpDecode [0x20913C64] 16) ∧
    decode StatusTable.default (.cmd32 0b10010000000000000000000000000011 [0x91, 0x3C, 0x64] []) = .ok (.umpEncode [0x91, 0x3C, 0x64]) := by
  decide

/-- The reserved words of V30. -/
theorem test_decode_reserved :
    [0xA0000000, 0xFFFFFFFF, 0x00010000, 0x30000001, 0x40000001, 0x10010003, 0x50000190, 0x60010090].all
      (fun w => decide (decode StatusTable.default (.cmd32 w [] []) = .ok (.cmdReserved (cmdOp w) (cmdA w) (cmdB w)))) = true := by decide

theorem test_decode_midi :
    decode StatusTable.default (.midi8 0b11111101) = .ok (.stRt 0b101) ∧ decode StatusTable.default (.midi8 0b11110000) = .ok .stSysex ∧
    decode StatusTable.default (.midi8 0b11110001) = .ok .stQf ∧ decode StatusTable.default (.midi8 0b11110010) = .ok .stSpp ∧
    decode StatusTable.default (.midi8 0b11110011) = .ok .stSs ∧ decode StatusTable.default (.midi8 0b11110111) = .ok .stEox ∧
    decode StatusTable.default (.midi8 0b11110110) = .ok (.stSyscomOther 0b110) ∧ decode StatusTable.default (.midi8 0b11000101) = .ok (.stCvPc 0b0101) ∧
    decode StatusTable.default (.midi8 0b11010110) = .ok (.stCvCp 0b0110) ∧ decode StatusTable.default (.midi8 0b10010001) = .ok (.stCvOther 0b1001 0b0001) ∧
    decode StatusTable.default (.midi8 0b01000000) = .ok (.midiData 0b1000000) := by decide

theorem test_decode_ump :
    decode StatusTable.default (.ump32 0b00010100111100010100000001000001) = .ok (.umpSysQf 0b0100 0x40 0x41) ∧
    decode StatusTable.default (.ump32 0b00010000111100100001000000100000) = .ok (.umpSysSpp 0 0x10 0x20) ∧
    decode StatusTable.default (.ump32 0b00010000111100110000011100000000) = .ok (.umpSysSs 0 0x07 0x00) ∧
    decode StatusTable.default (.ump32 0b00010000111110000000000000000000) = .ok (.umpSysOther 0 0xF8 0 0) ∧
    decode StatusTable.default (.ump32 0b00100000110001010000011100000000) = .ok (.umpCvPc 0 0b0101 0x07 0) ∧
    decode StatusTable.default (.ump32 0b00100000110101100100000000000000) = .ok (.umpCvCp 0 0b0110 0x40 0) ∧
    decode StatusTable.default (.ump32 0b00100000100100010011110001100100) = .ok (.umpCvOther 0 0x91 0x3C 0x64) ∧
    decode StatusTable.default (.ump32 0b00110000111101110000000000000000) = .ok (.umpData 0 0xF7 0 0) ∧
    decode StatusTable.default (.ump32 0b00000000000000010000001000000011) = .ok (.umpRsvdMt0 0 1 2 3) ∧
    decode StatusTable.default (.ump32 0b01100000000000010000001000000011) = .ok (.umpRsvdMt4To7 0b10 0 1 2 3) ∧
    decode StatusTable.default (.ump32 0b11010000000000010000001000000011) = .ok (.umpRsvdMt8To15 0b101 0 1 2 3) := by decide

/-- U1: a block with other status values reads them, and what they leave is other system common. -/
theorem test_decode_other_status_values :
    decode otherStatus (.midi8 0xF4) = .ok .stQf ∧ decode otherStatus (.midi8 0xF1) = .ok .stSpp ∧
    decode otherStatus (.midi8 0xF6) = .ok .stSs ∧ decode otherStatus (.midi8 0xF2) = .ok (.stSyscomOther 0b010) ∧
    decode otherStatus (.ump32 0x10F43500) = .ok (.umpSysQf 0 0x35 0) ∧
    decode otherStatus (.ump32 0x10F23500) = .ok (.umpSysOther 0 0xF2 0x35 0) := by decide

/-- A payload of the wrong size is rejected by name. -/
theorem test_decode_payload_size :
    decode StatusTable.default (.cmd32 0x10000003 [1, 2] []) = .error (.byteCount 3 2) ∧
    decode StatusTable.default (.cmd32 0x80020003 [] [0]) = .error (.wordCount 2 1) := by decide

/-! ### Bare table words -/

theorem test_table_words_cmd :
    [0x00000000, 0x10000002, 0x20000010, 0x30000000, 0x40000000, 0x50000040, 0x60000090, 0x70000001, 0x80010003,
      0x90000001, 0xA0000000].map (fun w => (decodeTableWord 32 w).map Instr.mnemonic) =
    cmdRows.map (fun r => some r.mnemonic) := by decide

theorem test_table_words_midi :
    [0xF8, 0xF0, 0xF1, 0xF2, 0xF3, 0xF7, 0xF4, 0xC0, 0xD0, 0x80, 0x00].map
      (fun w => (decodeTableWord 8 w).map Instr.mnemonic) = midiRows.map (fun r => some r.mnemonic) := by decide

/-- The `UMP32` rows but the last, whose words are all command words (log entry 6). -/
theorem test_table_words_ump :
    [0x10F10000, 0x10F20000, 0x10F30000, 0x10F80000, 0x20C50700, 0x20D50700, 0x20913C64, 0x30F70000, 0x00010203,
      0x40010203].map (fun w => (decodeTableWord 32 w).map Instr.mnemonic) =
    (umpRows.take 10).map (fun r => some r.mnemonic) := by decide

/-- A word placed for the fetch is the very next thing that runs, as the first instruction after reset. -/
theorem test_fetch_word_runs_next :
    step (State.reset.withFetchWord 32 0x50000090) = exec (.frmResolve 0x90) State.reset ∧
    step (State.reset.withFetchWord 32 0x10000002) = exec (.cpbPush [0, 0]) State.reset ∧
    step (State.reset.withFetchWord 8 0xC5) = exec (.stCvPc 5) State.reset ∧
    step (State.reset.withFetchWord 32 0x20C50700) = exec (.umpCvPc 0 5 7 0) State.reset := ⟨rfl, rfl, rfl, rfl⟩

/-- R5: a block of another `LEN_W` takes operands of that width: a greater one without a command word, and not one that
does not fit. -/
theorem test_other_widths_at_the_port :
    step ({ small with cfg := { small.cfg with lenW := 20 } }.withPort [.operation (.cpbPop 65536)]) =
      exec (.cpbPop 65536) { small with cfg := { small.cfg with lenW := 20 } } ∧
    step ({ small with cfg := { small.cfg with lenW := 4 } }.withPort [.present (.cmd32 0x20000010 [] [])]) =
      .refused .operandOutOfRange := ⟨rfl, rfl⟩

/-! ### One step of each instruction (95_test_vectors.md; the table's notes for the two other formats) -/

/-- V16. -/
theorem test_init_empties : cursors (after [.cpbInit] two) = [0, 0, 0, 0] ∧ (after [.cpbInit] two).arena = two.arena := by
  decide

/-- V2, the fourth push. -/
theorem test_push_ring_full :
    respOf (.cpbPush [0x04]) three = some (.cpbPush 1 false) ∧ cursors (after [.cpbPush [0x04]] three) = [1, 0, 1, 3] := by
  decide

/-- V5, the third push. -/
theorem test_push_arena_short :
    respOf (.cpbPush [0x31, 0x32, 0x33, 0x34]) two = some (.cpbPush 1 false) ∧ cursors wrapped = [1, 3, 3, 7] ∧
      wrapped.entry 2 = ⟨6, 4⟩ ∧
      wrapped.arena = [(0, 0x33), (1, 0x34), (2, 0x13), (3, 0x21), (4, 0x22), (5, 0x23), (6, 0x31), (7, 0x32)] := by
  decide

/-- V3, a truncating pop. -/
theorem test_pop_truncates :
    respOf (.cpbPop 2) two = some (.cpbPop 2 [0x11, 0x12]) ∧ cursors (after [.cpbPop 2] two) = [1, 2, 3, 3] := by decide

/-- V5, the fifth line: the read wraps. -/
theorem test_pop_wraps :
    respOf (.cpbPop 16) (after [.cpbPop 16] wrapped) = some (.cpbPop 4 [0x31, 0x32, 0x33, 0x34]) := by decide

/-- V16: `write_pos = 0`, `read_pos = 1`. -/
theorem test_count_wraps : respOf .cpbCount (after [.cpbPush [0x04]] three) = some (.cpbCount 3) := by decide

/-- V17. -/
theorem test_reset_framer : (after [.frmReset] (small.withRs 0x90)).rs = 0x00 := by decide

/-- V12: a data byte under running status; a realtime byte leaves it. -/
theorem test_resolve_data_and_realtime :
    respOf (.frmResolve 0x40) (small.withRs 0x90) = some (.frmResolve true 0x90) ∧
      (after [.frmResolve 0xF8] (small.withRs 0x90)).rs = 0x90 := by decide

/-- V12: `0xF7` clears the running status; `0xEF` sets it. -/
theorem test_resolve_boundaries :
    (after [.frmResolve 0xF7] (small.withRs 0xC2)).rs = 0x00 ∧ (after [.frmResolve 0xEF] small).rs = 0xEF := by decide

/-- V13, spot values. -/
theorem test_msglen_boundaries :
    [0x7F, 0x80, 0xBF, 0xC0, 0xDF, 0xE0, 0xEF, 0xF0, 0xF1, 0xF2, 0xF3, 0xF4, 0xFF].map (fun b => respOf (.frmMsglen b) small) =
      [(false, 0), (true, 3), (true, 3), (true, 2), (true, 2), (true, 3), (true, 3), (true, 0), (true, 2), (true, 3),
        (true, 2), (true, 1), (true, 1)].map (fun p => some (.frmMsglen p.1 p.2)) := by decide

/-- U1, R67, R71: other status values. -/
theorem test_msglen_and_decode_other_status_values :
    [0xF1, 0xF2, 0xF4, 0xF6].map (fun b => respOf (.frmMsglen b) smallOther) =
      [3, 1, 2, 2].map (fun n => some (.frmMsglen true n)) ∧
    respOf (.umpDecode [0x10F11020] 3) smallOther = some (.umpDecode 3 false [0xF1, 0x10, 0x20]) := by decide

/-- V10. -/
theorem test_next_running_status :
    respOf (.frmNext [0x41, 0x7F]) (small.withRs 0x90) = some (.frmNext .ok 2 3 [0x90, 0x41, 0x7F]) := by decide

/-- R68, the example: `INCOMPLETE`, and the running status is written all the same. -/
theorem test_next_incomplete :
    respOf (.frmNext [0xB1, 0x07]) small = some (.frmNext .incomplete 0 0 []) ∧
      (after [.frmNext [0xB1, 0x07]] small).rs = 0xB1 := by decide

/-- V20. -/
theorem test_decode_note_on :
    respOf (.umpDecode [0x20913C64] 16) small = some (.umpDecode 3 false [0x91, 0x3C, 0x64]) := by decide

/-- R74 (a), R71: a type 3 word; no words at all. -/
theorem test_decode_unsupported_and_empty :
    respOf (.umpDecode [0x30F70000] 16) small = some (.umpDecode 0 true []) ∧
      respOf (.umpDecode [] 16) small = some (.umpDecode 0 false []) := by decide

/-- V20. -/
theorem test_encode_note_on : respOf (.umpEncode [0x91, 0x3C, 0x64]) small = some (.umpEncode 1 false [0x20913C64]) := by
  decide

/-- R72: more than one word, the last one short; R74 (b): system exclusive. -/
theorem test_encode_two_words_and_sysex :
    respOf (.umpEncode [0x91, 0x3C, 0x64, 0xF7]) small = some (.umpEncode 2 false [0x20913C64, 0x30F70000]) ∧
      respOf (.umpEncode [0xF0, 0xF7]) small = some (.umpEncode 0 true []) := by decide

/-- R43. -/
theorem test_reserved_is_illegal : respOf (.cmdReserved 0x1 1 3) two = some .illegal ∧ cursors (after [.cmdReserved 0x1 1 3] two) = cursors two := by
  decide

/-- The notes of the system rows: the byte is its own status, `RS` cleared, and the row's length. -/
theorem test_midi_system :
    [Instr.stSysex, .stQf, .stSpp, .stSs, .stEox, .stSyscomOther 6].map (fun i => respOf i small) =
      [(0xF0, 0), (0xF1, 2), (0xF2, 3), (0xF3, 2), (0xF7, 1), (0xF6, 1)].map (fun p => some (.midiByte true p.1 true p.2)) ∧
    [Instr.stSysex, .stQf, .stSpp, .stSs, .stEox, .stSyscomOther 6].all
      (fun i => (after [i] (small.withRs 0x90)).rs == 0x00) = true := by decide

/-- The notes of the channel-voice rows: `RS` becomes the byte. -/
theorem test_midi_channel :
    [Instr.stCvPc 5, .stCvCp 6, .stCvOther 9 1].map (fun i => (respOf i small, (after [i] small).rs)) =
      [(some (.midiByte true 0xC5 true 2), 0xC5), (some (.midiByte true 0xD6 true 2), 0xD6),
        (some (.midiByte true 0x91 true 3), 0x91)] := by decide

/-- The notes of the realtime and data rows: `RS` is untouched. -/
theorem test_midi_realtime_and_data :
    (respOf (.stRt 0) (small.withRs 0x90), (after [.stRt 0] (small.withRs 0x90)).rs) =
      (some (.midiByte true 0xF8 true 1), 0x90) ∧
    respOf (.midiData 0x40) (small.withRs 0x90) = some (.midiByte true 0x90 false 0) ∧
    respOf (.midiData 0x40) small = some (.midiByte false 0x00 false 0) := by decide

/-- The notes of the `UMP32` rows (V23, V26). -/
theorem test_ump_rows :
    [Instr.umpSysQf 4 0x40 9, .umpSysSpp 0 0x10 0x20, .umpSysSs 0 7 9, .umpSysOther 0 0xF8 8 9, .umpCvPc 0 5 7 9,
      .umpCvCp 0 6 0x40 9, .umpCvOther 15 0x91 0x3C 0x64].map (fun i => respOf i small) =
      [[0xF1, 0x40], [0xF2, 0x10, 0x20], [0xF3, 7], [0xF8], [0xC5, 7], [0xD6, 0x40], [0x91, 0x3C, 0x64]].map
        (fun l => some (.umpDecode l.length false l)) ∧
    [Instr.umpData 0 0xF7 0 0, .umpRsvdMt0 0 1 2 3, .umpRsvdMt4To7 2 0 1 2 3, .umpRsvdMt8To15 5 0 1 2 3].all
      (fun i => respOf i small == some (.umpDecode 0 true [])) = true := by decide

/-! ### Pseudo-operations -/

/-- What a run of `RX.BYTES` returns, but for the bytes left over: pushed, errors, evicted, dropped. -/
def rxCounts (gaps : List (List Instr)) (bs : List Byte) (s : State) : List Nat :=
  match rxBytes gaps bs s with
  | .next (a, _) => [a.pushed, a.errors, a.evicted, a.dropped]
  | _ => []

/-- The bytes that a run of `RX.BYTES` leaves over. -/
def rxRest (bs : List Byte) (s : State) : List Byte :=
  match rxBytes [] bs s with
  | .next (a, _) => a.rest
  | _ => []

/-- R79's example. -/
theorem test_rx_bytes : rxCounts [] [0x90, 0x40, 0x7F, 0x41, 0x7F] small = [2, 0, 0, 0] := by decide

/-- R79: a stray data byte, a system exclusive message longer than the arena, a message, and an unfinished one. -/
theorem test_rx_bytes_counts :
    rxCounts [] [0x40, 0xF0, 1, 2, 3, 4, 5, 6, 7, 0xF7, 0xC2, 5, 0x90, 0x40] small = [1, 1, 0, 1] ∧
      rxRest [0x40, 0xF0, 1, 2, 3, 4, 5, 6, 7, 0xF7, 0xC2, 5, 0x90, 0x40] small = [0x90, 0x40] := by decide

/-- R79, R36: a pop between the framing and the push makes room, and nothing is evicted (V2's full ring). -/
theorem test_rx_bytes_with_a_pop_between :
    rxCounts [] [0xF8] three = [1, 0, 1, 0] ∧ rxCounts [[], [.cpbPop 16]] [0xF8] three = [1, 0, 0, 0] := by decide

/-! ### Good states -/

theorem test_small_good : small.Inv := by constructor <;> decide

theorem test_two_good : two.Inv := by constructor <;> decide

theorem test_three_good : three.Inv := by constructor <;> decide

theorem test_wrapped_good : wrapped.Inv := by constructor <;> decide

theorem test_atSix_good : atSix.Inv := by constructor <;> decide

theorem test_reset_memory_wf : Memory.wf State.reset.arena = true := rfl

/-! ### Witnesses: for every statement that has hypotheses, a state and operands that meet them together -/

theorem test_witness_DecodeOfEncodeIsTheInstruction :
    StatusTable.default.wf = true ∧ otherStatus.wf = true ∧ (Instr.stSyscomOther 2).wf otherStatus = true ∧
      (Instr.cpbPush (List.replicate 65535 0)).wf StatusTable.default = true ∧ (Instr.umpSysOther 15 0xFF 0 1).wf StatusTable.default = true ∧
      (Instr.stCvOther 0xE 15).wf StatusTable.default = true ∧ (Instr.cmdReserved 0xF 1 2).wf StatusTable.default = true :=
  ⟨by decide, by decide, by decide, test_wf_push_too_long.2, by decide⟩

/-- A payload of its size; a reserved word; a word that is none. -/
theorem test_witness_EveryWordDecodesAndReadsBack :
    ([1, 2, 3] : List Byte).length = payloadBytes 0x10000003 ∧ ([] : List Word).length = payloadWords 0x10000003 ∧
    ([] : List Byte).length = payloadBytes 0x80010003 ∧ ([5] : List Word).length = payloadWords 0x80010003 ∧
    ([1, 2, 3] : List Byte).length = payloadBytes 0x10010003 ∧ ReservedWord 0x10010003 ∧
    ¬ ReservedWord 0x10000003 := by
  unfold ReservedWord
  decide

theorem test_witness_DecoderFollowsTheOpcodeTable :
    decode StatusTable.default (.cmd32 0x5000007F [] []) = .ok (.frmResolve 0x7F) ∧ decode StatusTable.default (.midi8 0xF8) = .ok (.stRt 0) ∧
      decode StatusTable.default (.ump32 0x2FEF0102) = .ok (.umpCvOther 15 0xEF 1 2) := by decide

/-- One word of each clause of R43, and one at the port. -/
theorem test_witness_ReservedCommandsAreAnsweredIllegal :
    ReservedWord 0xA0000000 ∧ ReservedWord 0x00000001 ∧ ReservedWord 0x10010000 ∧ ReservedWord 0x50000100 ∧
      (small.withPort [.present (.cmd32 0x10010003 [1, 2, 3] [])]).port = .present (.cmd32 0x10010003 [1, 2, 3] []) :: [] := by
  refine ⟨?_, ?_, ?_, ?_, rfl⟩ <;> (unfold ReservedWord; decide)

theorem test_witness_StepRunsTheDecodedInstruction :
    (small.withPort [.present (.midi8 0x90), .hardReset]).port = .present (.midi8 0x90) :: [.hardReset] ∧
      decode StatusTable.default (.midi8 0x90) = .ok (.stCvOther 9 0) ∧ (Instr.stCvOther 9 0).wfIn small.cfg = true ∧
      16 ≤ small.cfg.lenW ∧ 12 ≤ small.cfg.wcW ∧
      (small.withPort [.operation (.cpbPop 65535)]).port = .operation (.cpbPop 65535) :: [] ∧
      (Instr.cpbPop 65535).wfIn small.cfg = true := by decide

theorem test_witness_IdleStepHoldsTheState : two.port = [] := by decide

/-- Each of the cases. -/
theorem test_witness_WhatAStepRefuses :
    (small.withPort [.overlap (.midi8 0) (.midi8 1)]).port = .overlap (.midi8 0) (.midi8 1) :: [] ∧
      (([] : List Byte).length ≠ payloadBytes 0x10000003 ∧ ¬ ReservedWord 0x10000003) ∧
      (([] : List Byte).length = payloadBytes 0x80010003 ∧ ([] : List Word).length ≠ payloadWords 0x80010003 ∧
        ¬ ReservedWord 0x80010003) ∧
      ((small.withPort [.operation (.cpbPop 65536)]).port = .operation (.cpbPop 65536) :: [] ∧
        (Instr.cpbPop 65536).wfIn small.cfg = false) := by
  refine ⟨by decide, ?_, ?_, by decide⟩ <;> (unfold ReservedWord; decide)

theorem test_witness_HardwareResetIsInitThenFramerReset :
    (wrapped.withPort [.hardReset]).port = .hardReset :: [] := by decide

/-- A ring that holds all that an entry's bits can, and an arena with stale bytes (R99). -/
theorem test_witness_ResetIsGood :
    small.cfg.wf = true ∧ ([⟨7, 15⟩, ⟨0, 0⟩, ⟨3, 9⟩, ⟨7, 15⟩] : List IdxEntry).length = small.cfg.indexSlots ∧
      (∀ e ∈ ([⟨7, 15⟩, ⟨0, 0⟩, ⟨3, 9⟩, ⟨7, 15⟩] : List IdxEntry), e.off < 2 ^ small.cfg.offW ∧ e.len < 2 ^ small.cfg.occW) ∧
      Memory.wf [(2, 0xEE), (7, 0x01)] = true ∧
      ∀ b ∈ ([(2, 0xEE), (7, 0x01)] : Memory), b.1 < small.cfg.arenaCap := by decide

theorem test_witness_StepKeepsTheInvariants :
    (wrapped.withPort [.present (.cmd32 0x10000001 [9] [])]).Inv ∧
      ∃ t, step (wrapped.withPort [.present (.cmd32 0x10000001 [9] [])]) = .next t :=
  ⟨test_wrapped_good.withPort _, _, rfl⟩

theorem test_witness_EveryInstructionCompletesInAGoodState : wrapped.Inv := test_wrapped_good

theorem test_witness_StepNeverFaultsInAGoodState : (wrapped.withPort [.present (.cmd32 0x20000010 [] [])]).Inv :=
  test_wrapped_good.withPort _

/-- An instruction that writes each piece of state of the statement. -/
theorem test_witness_WhoWritesWhat :
    (∃ t, exec (.frmResolve 0x90) small = .next t ∧ t.rs ≠ small.rs) ∧
    (∃ t, exec (.cpbPush [1]) three = .next t ∧ t.arena ≠ three.arena ∧ t.idx ≠ three.idx ∧
      t.writePos ≠ three.writePos ∧ t.readPos ≠ three.readPos) ∧
    (∃ t, exec (.cpbPop 0) three = .next t ∧ t.bufOff ≠ three.bufOff ∧ t.bufLen ≠ three.bufLen) :=
  ⟨⟨_, rfl, by decide⟩, ⟨_, rfl, by decide⟩, ⟨_, rfl, by decide⟩⟩

theorem test_witness_StepTakesOneEventAndKeepsTheParameters :
    ∃ t, step (small.withPort [.present (.midi8 0x90), .hardReset]) = .next t := ⟨_, rfl⟩

/-- `wrapped` with its stale arena byte and its two stale index entries changed. -/
def wrappedStale : State :=
  { wrapped with arena := Memory.write wrapped.arena 2 0xEE, idx := (wrapped.idx.set 0 ⟨5, 5⟩).set 3 ⟨7, 15⟩ }

theorem test_witness_StaleContentsNeverShow :
    wrapped.Inv ∧ wrappedStale.Inv ∧ wrapped.SameLive wrappedStale ∧ wrapped.arena ≠ wrappedStale.arena ∧
      wrapped.idx ≠ wrappedStale.idx :=
  ⟨test_wrapped_good, by constructor <;> decide, by constructor <;> decide, by decide, by decide⟩

theorem test_witness_RegistersFitTheirWidths : wrapped.Inv := test_wrapped_good

theorem test_witness_ResponsesFitTheirWidths :
    wrapped.Inv ∧ (Instr.cpbPop 3).wfIn wrapped.cfg = true ∧
      ∃ t, exec (.cpbPop 3) wrapped = .next t ∧ t.resp = some (.cpbPop 3 [0x21, 0x22, 0x23]) :=
  ⟨test_wrapped_good, rfl, _, rfl, rfl⟩

/-- Cursors and a running status that no run gives. -/
def powerOn : State := { wrapped with readPos := 9, writePos := 7, bufOff := 100, bufLen := 200, rs := 0x41, idx := [⟨7, 15⟩, ⟨0, 0⟩, ⟨3, 9⟩, ⟨7, 15⟩] }

theorem test_witness_InitAndFramerResetMakeAnyStateGood :
    powerOn.cfg.wf = true ∧ powerOn.idx.length = powerOn.cfg.indexSlots ∧
      (∀ e ∈ powerOn.idx, e.off < 2 ^ powerOn.cfg.offW ∧ e.len < 2 ^ powerOn.cfg.occW) ∧
      Memory.wf powerOn.arena = true ∧ ∀ c ∈ powerOn.arena, c.1 < powerOn.cfg.arenaCap := by decide

/-- V8: no bytes, and one byte more than the arena holds. -/
theorem test_witness_PushOutsideTheDataModelIsDropped :
    ([] : List Byte).length = 0 ∧ small.cfg.arenaCap < ([1, 2, 3, 4, 5, 6, 7, 8, 9] : List Byte).length := by decide

/-- A packet that fits exactly. -/
theorem test_witness_PushWithRoomEvictsNothing :
    1 ≤ ([0x31, 0x32] : List Byte).length ∧ (two.writePos + 1) % two.cfg.indexSlots ≠ two.readPos ∧
      two.bufLen + ([0x31, 0x32] : List Byte).length ≤ two.cfg.arenaCap := by decide

/-- The least length, and the whole arena (V8). -/
theorem test_witness_PushEvictsTheFewestOldestAndAppends :
    three.Inv ∧ 1 ≤ ([1] : List Byte).length ∧ ([1] : List Byte).length ≤ three.cfg.arenaCap ∧
      1 ≤ ([1, 2, 3, 4, 5, 6, 7, 8] : List Byte).length ∧
      ([1, 2, 3, 4, 5, 6, 7, 8] : List Byte).length ≤ three.cfg.arenaCap :=
  ⟨test_three_good, by decide⟩

theorem test_witness_PushCursorsStoresAndFrame :
    two.Inv ∧ 1 ≤ ([1, 2, 3, 4] : List Byte).length ∧ ([1, 2, 3, 4] : List Byte).length ≤ two.cfg.arenaCap :=
  ⟨test_two_good, by decide⟩

/-- Empty, and not empty. -/
theorem test_witness_PopDeliversAndRetiresTheOldest :
    atSix.readPos = atSix.writePos ∧ wrapped.Inv ∧
      wrapped.packets = [0x21, 0x22, 0x23] :: [[0x31, 0x32, 0x33, 0x34]] :=
  ⟨by decide, test_wrapped_good, by decide⟩

theorem test_witness_CountIsTheNumberOfLivePackets : 0 < three.cfg.indexSlots ∧ three.Inv :=
  ⟨by decide, test_three_good⟩

/-- V1's packets, as many as the ring holds. -/
theorem test_witness_FifoDeliversEverythingInOrder :
    atSix.Inv ∧ atSix.packets = [] ∧ (∀ p ∈ ([[1, 2, 3], [4, 5, 6], [7, 8]] : List (List Byte)), 1 ≤ p.length) ∧
      (([[1, 2, 3], [4, 5, 6], [7, 8]] : List (List Byte)).map List.length).sum ≤ atSix.cfg.arenaCap ∧
      ([[1, 2, 3], [4, 5, 6], [7, 8]] : List (List Byte)).length ≤ atSix.cfg.pktMax ∧
      List.Forall₂ (fun (p : List Byte) (cap : Nat) => p.length ≤ cap)
        [[1, 2, 3], [4, 5, 6], [7, 8]] [3, 16, 2] :=
  ⟨test_atSix_good, by decide, by decide, by decide, by decide, by simp⟩

/-- V2. -/
theorem test_witness_OneMoreThanTheRingEvictsTheOldest :
    three.Inv ∧ three.packets.length = three.cfg.pktMax ∧ 1 ≤ ([0x04] : List Byte).length ∧
      ((three.packets.drop 1).map List.length).sum + ([0x04] : List Byte).length ≤ three.cfg.arenaCap ∧
      (three.packets.drop 1 ++ [[0x04]]).head? = some [0x02] :=
  ⟨test_three_good, by decide⟩

/-- V3. -/
theorem test_witness_TruncatedPopLosesTheRest :
    two.Inv ∧ two.packets = [0x11, 0x12, 0x13] :: [0x21, 0x22, 0x23] :: [] ∧
      2 < ([0x11, 0x12, 0x13] : List Byte).length :=
  ⟨test_two_good, by decide⟩

theorem test_witness_WrappingPacketComesBackUnsplit :
    atSix.Inv ∧ atSix.packets = [] ∧ ([1, 2, 3] : List Byte).length ≤ atSix.cfg.arenaCap ∧
      atSix.cfg.arenaCap < atSix.bufOff + ([1, 2, 3] : List Byte).length ∧
      ([1, 2, 3] : List Byte).length ≤ 3 :=
  ⟨test_atSix_good, by decide⟩

/-- Each of the two capacities, each of the two states. -/
theorem test_witness_ZeroBytesPoppedMeansEmptyUnlessCapacityIsZero :
    wrapped.Inv ∧ atSix.Inv ∧ 1 ≤ 1 ∧ 0 = 0 ∧ atSix.packets = [] ∧
      wrapped.packets ≠ [] :=
  ⟨test_wrapped_good, test_atSix_good, by decide⟩

theorem test_witness_LivePacketsAreBounded : three.Inv := test_three_good

/-- The ends of each class's range, and both running statuses of a data byte. -/
theorem test_witness_ResolveFollowsTheByteClass :
    0xF8 ≤ (0xF8 : Byte).toNat ∧ 0xF8 ≤ (0xFF : Byte).toNat ∧
    (0xF0 ≤ (0xF0 : Byte).toNat ∧ (0xF0 : Byte).toNat ≤ 0xF7) ∧ (0xF0 ≤ (0xF7 : Byte).toNat ∧ (0xF7 : Byte).toNat ≤ 0xF7) ∧
    (0x80 ≤ (0x80 : Byte).toNat ∧ (0x80 : Byte).toNat ≤ 0xEF) ∧ (0x80 ≤ (0xEF : Byte).toNat ∧ (0xEF : Byte).toNat ≤ 0xEF) ∧
    (0x7F : Byte).toNat < 0x80 ∧ small.rs = 0x00 ∧ (small.withRs 0x80).rs ≠ 0x00 := by decide

/-- One end of each range at least, and both where it has two. -/
theorem test_witness_MessageLengthByStatus :
    (0x7F : Byte).toNat < 0x80 ∧ (0x80 ≤ (0x80 : Byte).toNat ∧ (0xBF : Byte).toNat ≤ 0xBF) ∧
    (0xC0 ≤ (0xC0 : Byte).toNat ∧ (0xDF : Byte).toNat ≤ 0xDF) ∧ (0xE0 ≤ (0xE0 : Byte).toNat ∧ (0xEF : Byte).toNat ≤ 0xEF) ∧
    (0xF0 : Byte).toNat = 0xF0 ∧ smallOther.cfg.status = otherStatus ∧ otherStatus.wf = true ∧
    (0xF1 ≤ (0xF2 : Byte).toNat ∧ (0xF2 : Byte) ≠ otherStatus.quarterFrame ∧ (0xF2 : Byte) ≠ otherStatus.songPosition ∧
      (0xF2 : Byte) ≠ otherStatus.songSelect) ∧
    (0xF1 ≤ (0xFF : Byte).toNat ∧ (0xFF : Byte) ≠ otherStatus.quarterFrame ∧ (0xFF : Byte) ≠ otherStatus.songPosition ∧
      (0xFF : Byte) ≠ otherStatus.songSelect) := by decide

/-- Each clause in turn: a data byte with none; system exclusive without and with an end, the shortest one too; a status
byte that is not `0xF0`; a data byte under a running status. -/
theorem test_witness_NextFramesOneMessage :
    ((0x7F : Byte).toNat < 0x80 ∧ small.rs = 0x00) ∧ (0xF7 : Byte) ∉ ([0x90, 0x7E] : List Byte) ∧ (0xF7 : Byte) ∉ ([] : List Byte) ∧
    (0x80 ≤ (0x80 : Byte).toNat ∧ (0x80 : Byte) ≠ 0xF0) ∧ (0x80 ≤ (0xF7 : Byte).toNat ∧ (0xF7 : Byte) ≠ 0xF0) ∧
    ((0x00 : Byte).toNat < 0x80 ∧ (small.withRs 0xEF).rs ≠ 0x00 ∧ legalRs (small.withRs 0xEF).rs = true) := by decide

theorem test_witness_FramerTouchesOnlyRunningStatus :
    writesRs (.frmNext []) = true ∧ writesRs .stSysex = true ∧ writesRs .frmReset = true := by decide

theorem test_witness_FramingErrorRecovers :
    small.rs = 0x00 ∧ (0x40 : Byte).toNat < 0x80 ∧ 0x80 ≤ (0xEF : Byte).toNat ∧ (0xEF : Byte).toNat ≤ 0xEF ∧
      0x80 ≤ (0xF8 : Byte).toNat := by decide

/-- A stream in which the second and fourth messages leave their status out, and the fifth does not though it may. -/
theorem test_witness_FramingUndoesRunningStatus :
    legalRs small.rs = true ∧
      (∀ m ∈ ([([0x90, 0x40, 0x7F], false), ([0x90, 0x41, 0x7F], true), ([0xF8], true), ([0x90, 1, 2], true),
          ([0x90, 3, 4], false), ([0xF0, 5, 0xF7], true), ([0xC2, 5], true)] : List (List Byte × Bool)),
        wellFormedMessage small.cfg.status m.1 = true ∧ m.1.length < 2 ^ small.cfg.lenW) ∧
      compress small.rs [([0x90, 0x40, 0x7F], false), ([0x90, 0x41, 0x7F], true), ([0xF8], true), ([0x90, 1, 2], true),
          ([0x90, 3, 4], false), ([0xF0, 5, 0xF7], true), ([0xC2, 5], true)] =
        [0x90, 0x40, 0x7F, 0x41, 0x7F, 0xF8, 1, 2, 0x90, 3, 4, 0xF0, 5, 0xF7, 0xC2, 5] := by decide

/-- Status values, and a word for each clause: types 0, 3 and 15; `0xF1`, `0xF3`; `0xF2`; `0xF0`, `0xFF`; `0xC0`, `0xDF`; `0xBF`, `0xE0`. -/
theorem test_witness_DecodeByTypeAndStatus :
    small.cfg.status = StatusTable.default ∧ StatusTable.default.wf = true ∧
    [0x00000000, 0x30000000, 0xF0000000, 0x10F10000, 0x10F30000, 0x10F20000, 0x10F00000, 0x10FF0000, 0x20C00000,
      0x20DF0000, 0x20BF0000, 0x20E00000].map
        (fun w : Word => (w.toNat / 2 ^ 28, BitVec.ofNat 8 (w.toNat / 2 ^ 16), (BitVec.ofNat 8 (w.toNat / 2 ^ 16)).toNat / 16)) =
      [(0, 0x00#8, 0), (3, 0x00#8, 0), (15, 0x00#8, 0), (1, 0xF1#8, 15), (1, 0xF3#8, 15), (1, 0xF2#8, 15), (1, 0xF0#8, 15),
        (1, 0xFF#8, 15), (2, 0xC0#8, 12), (2, 0xDF#8, 13), (2, 0xBF#8, 11), (2, 0xE0#8, 14)] := by decide

theorem test_witness_EncodePacksThreeBytesToAWord :
    ([] : List Byte).head? ≠ some 0xF0 ∧ ([0x91, 0xF0, 0x64, 0xF7] : List Byte).head? ≠ some 0xF0 := by decide

/-- One message of each length, realtime among them. -/
theorem test_witness_MessageSurvivesTheUmpRoundTrip :
    properMessage small.cfg.status [0x91, 0x3C, 0x64] = true ∧ properMessage small.cfg.status [0xC5, 0x07] = true ∧ properMessage small.cfg.status [0xF8] = true ∧
      properMessage otherStatus [0xF1, 1, 2] = true ∧
      ([0x91, 0x3C, 0x64] : List Byte).length ≤ 3 := by decide

/-- Each alternative of the hypothesis, at the ends of its range. -/
theorem test_witness_ProperWordSurvivesTheUmpRoundTrip :
    (small.cfg.status = StatusTable.default ∧ StatusTable.default.wf = true) ∧
    ((1 : BitVec 4) = 1 ∧ 0xF1 ≤ (0xF1 : Byte).toNat ∧ (0xF1 : Byte) ≠ 0xF7 ∧
      ((0xF1 : Byte) = 0xF1 ∨ (0xF1 : Byte) = 0xF3 → (0 : Byte) = 0) ∧
      ((0xF1 : Byte) ≠ 0xF1 → (0xF1 : Byte) ≠ 0xF2 → (0xF1 : Byte) ≠ 0xF3 → (0x40 : Byte) = 0 ∧ (0 : Byte) = 0)) ∧
    ((1 : BitVec 4) = 1 ∧ 0xF1 ≤ (0xF2 : Byte).toNat ∧ (0xF2 : Byte) ≠ 0xF7 ∧
      ((0xF2 : Byte) = 0xF1 ∨ (0xF2 : Byte) = 0xF3 → (2 : Byte) = 0) ∧
      ((0xF2 : Byte) ≠ 0xF1 → (0xF2 : Byte) ≠ 0xF2 → (0xF2 : Byte) ≠ 0xF3 → (1 : Byte) = 0 ∧ (2 : Byte) = 0)) ∧
    ((1 : BitVec 4) = 1 ∧ 0xF1 ≤ (0xFF : Byte).toNat ∧ (0xFF : Byte) ≠ 0xF7 ∧
      ((0xFF : Byte) = 0xF1 ∨ (0xFF : Byte) = 0xF3 → (0 : Byte) = 0) ∧
      ((0xFF : Byte) ≠ 0xF1 → (0xFF : Byte) ≠ 0xF2 → (0xFF : Byte) ≠ 0xF3 → (0 : Byte) = 0 ∧ (0 : Byte) = 0)) ∧
    ((2 : BitVec 4) = 2 ∧ 0x80 ≤ (0x80 : Byte).toNat ∧ (0x80 : Byte).toNat ≤ 0xEF ∧
      ((0x80 : Byte).toNat / 16 = 0xC ∨ (0x80 : Byte).toNat / 16 = 0xD → (9 : Byte) = 0)) ∧
    ((2 : BitVec 4) = 2 ∧ 0x80 ≤ (0xDF : Byte).toNat ∧ (0xDF : Byte).toNat ≤ 0xEF ∧
      ((0xDF : Byte).toNat / 16 = 0xC ∨ (0xDF : Byte).toNat / 16 = 0xD → (0 : Byte) = 0)) ∧
    ((2 : BitVec 4) = 2 ∧ 0x80 ≤ (0xEF : Byte).toNat ∧ (0xEF : Byte).toNat ≤ 0xEF ∧
      ((0xEF : Byte).toNat / 16 = 0xC ∨ (0xEF : Byte).toNat / 16 = 0xD → (9 : Byte) = 0)) :=
  ⟨by decide, by decide, by decide, by decide, by decide, by decide, by decide⟩

theorem test_witness_CodecIsStateless : two.cfg.status = three.cfg.status ∧ two ≠ three := by decide

theorem test_witness_GroupIsDiscardedAndWrittenZero : (0x20000000 : Word) ∈ ([0x20000000] : List Word) := by decide

theorem test_witness_SysexIsRejectedBothWays :
    (0x30000000 : Word).toNat / 2 ^ 28 = 3 ∧ (0x3FFFFFFF : Word).toNat / 2 ^ 28 = 3 := by decide

theorem test_witness_RepeatingChangesNothing :
    (∃ b, Instr.frmResolve 0x40 = .frmResolve b) ∧ (∃ st, Instr.frmMsglen 0xF0 = .frmMsglen st) ∧
      (∃ ws cap, Instr.umpDecode [0x20913C64] 0 = .umpDecode ws cap) ∧ ∃ bs, Instr.umpEncode [0xF0] = .umpEncode bs :=
  ⟨⟨_, rfl⟩, ⟨_, rfl⟩, ⟨_, _, rfl⟩, ⟨_, rfl⟩⟩

/-- Both ends of the kinds of `ST.CV.OTHER`; a data byte with and without a running status. -/
theorem test_witness_MidiRowsFollowTheTable :
    (Instr.stCvOther 0x8 0).wf StatusTable.default = true ∧ (Instr.stCvOther 0xE 0xF).wf StatusTable.default = true ∧
      smallOther.cfg.status.wf = true ∧ (Instr.stSyscomOther 2).wf smallOther.cfg.status = true ∧ small.rs = 0x00 ∧
      (small.withRs 0x90).rs ≠ 0x00 := by decide

theorem test_witness_UmpRowsFollowTheTable :
    StatusTable.default.wf = true ∧
    (Instr.umpSysOther 0 0xF4 0 0).wf StatusTable.default = true ∧ (Instr.umpCvOther 0 0xBF 0 0).wf StatusTable.default = true ∧
      (Instr.umpSysOther 0 0x00 0 0).wf StatusTable.default = true ∧ (Instr.umpCvOther 0 0xE0 0 0).wf StatusTable.default = true := by decide

theorem test_witness_RowsAgreeWithTheOperations :
    decode StatusTable.default (.midi8 0xEF) = .ok (.stCvOther 0xE 0xF) ∧ decode StatusTable.default (.ump32 0x10F70000) = .ok (.umpSysOther 0 0xF7 0 0) := by decide

/-- V10's stream, and the same with every status explicit. -/
theorem test_witness_RxBytesBuffersEveryMessage :
    atSix.Inv ∧ atSix.packets = [] ∧
      (∀ m ∈ ([([0x90, 0x40, 0x7F], false), ([0x90, 0x41, 0x7F], true), ([0xC2, 5], false)] : List (List Byte × Bool)),
        wellFormedMessage atSix.cfg.status m.1 = true) ∧
      (([([0x90, 0x40, 0x7F], false), ([0x90, 0x41, 0x7F], false), ([0xC2, 5], false)] : List (List Byte × Bool)).map
        fun m => m.1.length).sum ≤ atSix.cfg.arenaCap ∧
      ([([0x90, 0x40, 0x7F], false), ([0x90, 0x41, 0x7F], true), ([0xC2, 5], false)] : List (List Byte × Bool)).length ≤
        atSix.cfg.pktMax :=
  ⟨test_atSix_good, by decide⟩

/-- Each clause: a word of an unsupported type; a capacity of 0; an arena of two bytes; a word that decodes, with the least
capacity. A consumer pops in the second gap. -/
theorem test_witness_RxUmpBuffersTheDecodedMessage :
    three.Inv ∧ (∀ g ∈ ([[], [.cpbCount, .cpbPop 1, .umpEncode [0x91, 0x3C, 0x64]]] : List (List Instr)), ∀ i ∈ g, consumes i = true) ∧
      umpMessage three.cfg.status 0x30F70000 = none ∧ umpMessage three.cfg.status 0x20913C64 = some [0x91, 0x3C, 0x64] ∧ 1 ≤ 1 ∧
      (([0x91, 0x3C, 0x64] : List Byte).take 1).length ≤ three.cfg.arenaCap ∧
      (State.resetWith { arenaCap := 2, indexSlots := 2, lenW := 2, wcW := 1, status := otherStatus }).Inv ∧
      2 < (([0x91, 0x3C, 0x64] : List Byte).take 3).length :=
  ⟨test_three_good, by decide, by decide, by decide, by decide, by decide, by constructor <;> decide, by decide⟩

/-- A full ring; a stray byte, a message, one that leaves its status out, one as long as the arena, one longer; a tail that
leaves its status out, an empty tail, and one that ends within system exclusive. -/
theorem test_witness_RxBytesAmongAConsumersOperations :
    three.Inv ∧
      (∀ g ∈ ([[.cpbCount], [.cpbPop 4, .umpEncode [0xF8]], []] : List (List Instr)), ∀ i ∈ g, consumes i = true) ∧
      streamWf three.cfg three.rs [.stray 0x7F, .message [0x90, 0x40, 0x7F] true, .message [0x90, 0x41, 0x7F] true,
        .message [0xF0, 1, 2, 3, 4, 5, 6, 0xF7] true, .message [0xF0, 1, 2, 3, 4, 5, 6, 7, 0xF7] false,
        .message [0xC5, 1] false] = true ∧
      UnfinishedTail three.cfg.status 0x90 [0x40] ∧ UnfinishedTail three.cfg.status 0x00 [] ∧
      UnfinishedTail three.cfg.status 0x90 [0xF0, 5] :=
  ⟨test_three_good, by decide, by decide, ⟨[0x90, 0x40, 0x7F], true, [0x7F], by decide, by decide, by decide⟩,
    ⟨[0xF8], false, [0xF8], by decide, by decide, by decide⟩, ⟨[0xF0, 5, 0xF7], false, [0xF7], by decide, by decide, by decide⟩⟩

/-- Two different tables. -/
theorem test_witness_StatusValuesSelectTheirRows :
    StatusTable.default.wf = true ∧ otherStatus.wf = true ∧ (0xF0 : Byte).toNat ≤ 0xF0 ∧ 0xF7 ≤ (0xF7 : Byte).toNat ∧
      (0x20F10000 : Word).toNat / 2 ^ 28 ≠ 1 := by decide

theorem test_witness_TransportOperationsAreTheBlocks : wrapped.Inv := test_wrapped_good

end Sys2Proof.Tests
end

/-! PROOFS. The reserved command words (spec/30_encoding.md R43, spec/60_exceptions.md R89): which words they are, by the list
of R43, by the decoder's test and by the rows of R42; what a step does with one. -/

namespace Sys2Proof.Machine

/-! ### Which words are reserved -/

/-- R43's list is the words whose fields select no operation. -/
theorem reservedWord_iff_cmdSelects_eq_false (w : Word) :
    ReservedWord w ↔ cmdSelects (cmdOp w) (cmdA w) (cmdB w) = false := by
  unfold ReservedWord cmdSelects
  generalize cmdOp w = op
  split_ifs with h₁ h₂ h₃
  · rcases h₁ with rfl | rfl | rfl <;> simp [imp_iff_not_or]
  · rcases h₂ with rfl | rfl | rfl | rfl <;> simp
  · rcases h₃ with rfl | rfl <;> simp [imp_iff_not_or]
  · have hop : op = 0x8 ∨ 0xA ≤ op.toNat ∧ op ≠ 8#4 := by clear * - h₁ h₂ h₃; revert op; decide
    rcases hop with rfl | ⟨hge, hne⟩
    · simp
    · simp [hge, hne]

/-- No row is selected where the masked word is the match of none (R42). -/
theorem selectRow_eq_none_iff {width : Nat} (rows : List (TableRow width)) (w : BitVec width) :
    selectRow rows w = none ↔ ∀ r ∈ rows, w &&& r.mask ≠ r.pattern := by
  simp [selectRow]

/-- The rows of the ten operations by the fields of their masks and matches (R41, R42). -/
theorem cmdRows_take_ten :
    cmdRows.take 10 =
      [⟨"CPB.INIT", cmdWord 0x0 0 0, cmdWord 0xF (.allOnes 12) (.allOnes 16)⟩,
       ⟨"CPB.PUSH", cmdWord 0x1 0 0, cmdWord 0xF (.allOnes 12) 0⟩,
       ⟨"CPB.POP", cmdWord 0x2 0 0, cmdWord 0xF (.allOnes 12) 0⟩,
       ⟨"CPB.COUNT", cmdWord 0x3 0 0, cmdWord 0xF (.allOnes 12) (.allOnes 16)⟩,
       ⟨"FRM.RESET", cmdWord 0x4 0 0, cmdWord 0xF (.allOnes 12) (.allOnes 16)⟩,
       ⟨"FRM.RESOLVE", cmdWord 0x5 0 0, cmdWord 0xF (.allOnes 12) 0xFF00⟩,
       ⟨"FRM.MSGLEN", cmdWord 0x6 0 0, cmdWord 0xF (.allOnes 12) 0xFF00⟩,
       ⟨"FRM.NEXT", cmdWord 0x7 0 0, cmdWord 0xF (.allOnes 12) 0⟩,
       ⟨"UMP.DECODE", cmdWord 0x8 0 0, cmdWord 0xF 0 0⟩,
       ⟨"UMP.ENCODE", cmdWord 0x9 0 0, cmdWord 0xF (.allOnes 12) 0⟩] := rfl

/-- A row of R42 reads all of `op` and asks that what it masks of `a` and `b` is zero. -/
theorem and_operationMask_eq_iff (w : Word) (op : BitVec 4) (ma : BitVec 12) (mb : BitVec 16) :
    w &&& cmdWord 0xF ma mb = cmdWord op 0 0 ↔ cmdOp w = op ∧ cmdA w &&& ma = 0 ∧ cmdB w &&& mb = 0 := by
  have hop : cmdOp w &&& 0xF = cmdOp w := BitVec.and_allOnes
  rw [cmd_and_eq_iff, hop]

/-- The mask of `FRM.RESOLVE` and `FRM.MSGLEN` keeps the upper byte of `b` (R42). -/
theorem and_highByte (b : BitVec 16) : b &&& 0xFF00 = b.extractLsb' 8 8 ++ 0#8 := by
  have hb : b.extractLsb' 8 8 ++ b.extractLsb' 0 8 = b := BitVec.extractLsb'_append_extractLsb'
  have hm : (0xFF00 : BitVec 16) = BitVec.allOnes 8 ++ 0#8 := rfl
  conv_lhs => rw [hm, ← hb, BitVec.and_append, BitVec.and_allOnes, BitVec.and_zero]

theorem and_highByte_eq_zero_iff (b : BitVec 16) : b &&& 0xFF00 = 0 ↔ b.extractLsb' 8 8 = 0 := by
  rw [and_highByte]
  constructor
  · intro h
    calc b.extractLsb' 8 8 = (b.extractLsb' 8 8 ++ 0#8).extractLsb' 8 8 := BitVec.extractLsb'_append_eq_left.symm
      _ = 0 := by rw [h]; rfl
  · intro h
    rw [h]
    rfl

/-- No row of the ten operations is selected exactly where the decoder selects no operation (R42). -/
theorem selectRow_operations_eq_none_iff (w : Word) :
    selectRow (cmdRows.take 10) w = none ↔ cmdSelects (cmdOp w) (cmdA w) (cmdB w) = false := by
  simp only [selectRow_eq_none_iff, cmdRows_take_ten, List.forall_mem_cons, ne_eq, and_operationMask_eq_iff,
    BitVec.and_allOnes, and_highByte_eq_zero_iff]
  unfold cmdSelects
  generalize cmdOp w = op
  split_ifs with h₁ h₂ h₃
  · rcases h₁ with rfl | rfl | rfl <;> simp
  · rcases h₂ with rfl | rfl | rfl | rfl <;> simp
  · rcases h₃ with rfl | rfl <;> simp
  · simp_all

/-! ### What the block does with one -/

/-- The meaning of `CMD.RESERVED` (R43). -/
theorem exec_cmdReserved (op : BitVec 4) (a : BitVec 12) (b : BitVec 16) (s : State) :
    exec (.cmdReserved op a b) s = .next (s.withResp .illegal) := rfl

/-- A reserved word takes no payload: it decodes with any (R43; log entry 10). -/
theorem decode_of_reservedWord {w : Word} (hw : ReservedWord w) (v : StatusTable) (bytes : List Byte) (words : List Word) :
    decode v (.cmd32 w bytes words) = .ok (.cmdReserved (cmdOp w) (cmdA w) (cmdB w)) := by
  simp [decode, decodeCmd, (reservedWord_iff_cmdSelects_eq_false w).1 hw]

/-- A step runs the instruction first at the port, where its operands fit (R5, R35). -/
theorem step_of_present {s : State} {t : Transaction} {rest : List PortEvent} {i : Instr} (hp : s.port = .present t :: rest)
    (hd : decode s.cfg.status t = .ok i) (hi : i.wfIn s.cfg = true) : step s = exec i (s.withPort rest) := by
  simp [step, fetch, hp, hd, acceptFitting, hi]

theorem step_of_reservedWord {w : Word} {bytes : List Byte} {words : List Word} {s : State} {rest : List PortEvent}
    (hw : ReservedWord w) (hp : s.port = .present (.cmd32 w bytes words) :: rest) :
    step s = .next ((s.withPort rest).withResp .illegal) := by
  have hi : (Instr.cmdReserved (cmdOp w) (cmdA w) (cmdB w)).wfIn s.cfg = true := by
    simp [Instr.wfIn, (reservedWord_iff_cmdSelects_eq_false w).1 hw]
  rw [step_of_present hp (decode_of_reservedWord hw _ _ _) hi, exec_cmdReserved]

/-- Settles O4: R43's list, the decoder's test and the rows of R42 agree on which words are reserved, and a step answers
each of them without reading its payload. -/
theorem reservedCommandsAreAnsweredIllegal : Obligations.ReservedCommandsAreAnsweredIllegal :=
  ⟨fun w => (reservedWord_iff_cmdSelects_eq_false w).trans (selectRow_operations_eq_none_iff w).symm,
    exec_cmdReserved, fun _ _ _ _ _ hw hp => step_of_reservedWord hw hp⟩

end Sys2Proof.Machine

/-! PROOFS. `CPB.POP`, `CPB.COUNT` and `CPB.INIT` (spec/40_cpb.md R57, R59, R60): what each answers and what it leaves of the
packets. -/

namespace Sys2Proof.Machine

variable {s : State} {p : List Byte} {ps : List (List Byte)}

/-! ### `CPB.POP` (R59) -/

/-- A pop of an empty buffer. -/
theorem exec_cpbPop_of_isEmpty (cap : Nat) (he : s.isEmpty = true) :
    exec (.cpbPop cap) s = .next (s.withResp (.cpbPop 0 [])) := by
  simp [exec, execCpbPop, he]

theorem State.count_pos_of_packets (hp : s.packets = p :: ps) : 0 < s.count := by
  rw [← State.packets_length, hp]
  exact Nat.succ_pos _

/-- The oldest packet is the one that the entry at `read_pos` holds, and retiring it leaves the rest (R11, R17). -/
theorem State.Inv.packets_cons_parts (h : s.Inv) (hp : s.packets = p :: ps) :
    s.packetAt (s.entry s.readPos) = p ∧ s.retireOldest.packets = ps :=
  List.cons.inj ((h.packets_eq_cons (State.count_pos_of_packets hp)).symm.trans hp)

/-- The oldest packet's length stands in its entry, and the arena gives back its bytes (R22, R23 (c)). -/
theorem State.Inv.memRead_oldest (h : s.Inv) (hp : s.packets = p :: ps) :
    (s.entry s.readPos).len = p.length ∧
      memRead s.cfg.arenaCap s.arena (s.entry s.readPos).off p.length = .ok p := by
  have hmem := h.head_mem (State.count_pos_of_packets hp)
  have hlen := h.packetAt_length hmem
  have hread := h.memRead_live hmem
  rw [(h.packets_cons_parts hp).1] at hlen hread
  exact ⟨hlen.symm, hlen ▸ hread⟩

/-- A pop where a packet is live: its first bytes out, and all of it retired. -/
theorem State.Inv.exec_cpbPop (h : s.Inv) (cap : Nat) (hp : s.packets = p :: ps) :
    exec (.cpbPop cap) s = .next (s.retireOldest.withResp (.cpbPop (min cap p.length) (p.take cap))) := by
  have hne : ¬ s.isEmpty = true := by
    rw [h.isEmpty_iff]
    exact Nat.ne_of_gt (State.count_pos_of_packets hp)
  obtain ⟨hlen, hread⟩ := h.memRead_oldest hp
  have hout : memRead s.cfg.arenaCap s.arena (s.entry s.readPos).off (min cap p.length) = .ok (p.take cap) := by
    rw [memRead_take hread (Nat.min_le_right _ _), ← List.take_eq_take_min]
  simp [exec, execCpbPop, hne, hlen, hout]

/-- Settles O27: a good state's `read_pos` entry locates the oldest packet in the arena, so the pop reads a prefix of it, and
the three cursors move by its length. -/
theorem popDeliversAndRetiresTheOldest : Obligations.PopDeliversAndRetiresTheOldest := by
  refine ⟨fun cap s he => exec_cpbPop_of_isEmpty cap (beq_iff_eq.2 he), fun cap s p ps h hp => ?_⟩
  refine ⟨_, h.exec_cpbPop cap hp, ?_, (h.packets_cons_parts hp).2⟩
  rw [← (h.memRead_oldest hp).1]
  rfl

/-! ### `CPB.COUNT` (R60) -/

theorem exec_cpbCount (s : State) : exec .cpbCount s = .next (s.withResp (.cpbCount s.count)) := rfl

/-- The count is the non-negative remainder itself, wherever the cursors stand (R7, R15). -/
theorem State.natCast_count (h : 0 < s.cfg.indexSlots) :
    (s.count : Int) = ((s.writePos : Int) - (s.readPos : Int)) % (s.cfg.indexSlots : Int) :=
  Int.toNat_of_nonneg (Int.emod_nonneg _ (by omega))

/-- Settles O28: the remainder's bound holds for any cursors; the live packets are `count` many by the ring's law. -/
theorem countIsTheNumberOfLivePackets : Obligations.CountIsTheNumberOfLivePackets := by
  intro s hslots
  have hcount := State.natCast_count hslots
  refine ⟨s.count, exec_cpbCount s, hcount, ?_, fun _ => s.packets_length.symm⟩
  have := Int.emod_lt_of_pos ((s.writePos : Int) - (s.readPos : Int)) (Int.natCast_pos.2 hslots)
  omega

/-! ### `CPB.INIT` (R57) -/

theorem exec_cpbInit (s : State) : exec .cpbInit s = .next (s.initCursors.withResp .cpbInit) := rfl

theorem State.initCursors_count (s : State) : s.initCursors.count = 0 := by simp [State.count]

/-- Cursors at 0 stay there, so a second `CPB.INIT` leaves the state of the first. -/
theorem exec_cpbInit_again (s : State) :
    exec .cpbInit (s.initCursors.withResp .cpbInit) = .next (s.initCursors.withResp .cpbInit) := rfl

/-- Settles O22: one `CPB.INIT` is `initCursors` with its answer, which leaves no packet, and a second one is the same. -/
theorem initEmptiesTheBuffer : Obligations.InitEmptiesTheBuffer := fun s =>
  ⟨s.initCursors.withResp .cpbInit, exec_cpbInit s, rfl, exec_cpbInit_again s, s.initCursors_count⟩

end Sys2Proof.Machine

/-! PROOFS. `FRM.RESET` and `FRM.RESOLVE` (spec/41_framer.md R65, R66): what each answers and what becomes of the running
status. -/

namespace Sys2Proof.Machine

/-! ### `FRM.RESET` (R65) -/

theorem exec_frmReset (s : State) : exec .frmReset s = .next ((s.withRs 0x00).withResp .frmReset) := rfl

/-- A running status already clear stays so, so a second `FRM.RESET` leaves the state of the first. -/
theorem exec_frmReset_again (s : State) :
    exec .frmReset ((s.withRs 0x00).withResp .frmReset) = .next ((s.withRs 0x00).withResp .frmReset) := rfl

/-- Settles O35: one `FRM.RESET` clears `RS` and answers, and a second one is the same. -/
theorem framerResetClearsRunningStatus : Obligations.FramerResetClearsRunningStatus := fun s =>
  ⟨(s.withRs 0x00).withResp .frmReset, exec_frmReset s, rfl, exec_frmReset_again s⟩

/-! ### `FRM.RESOLVE` (R66) -/

@[simp] theorem State.withRs_self (s : State) : s.withRs s.rs = s := rfl

/-- `FRM.RESOLVE` answers what `resolve` computes under the state's `RS`, and writes `RS` alone. -/
theorem exec_frmResolve_of_resolve {s : State} {b status rs : Byte} {valid : Bool}
    (h : resolve s.rs b = ⟨valid, status, rs⟩) :
    exec (.frmResolve b) s = .next ((s.withRs rs).withResp (.frmResolve valid status)) := by
  simp only [exec, execFrmResolve, h, answer]

/-- Settles O36: `resolve` by the class of the leading byte; a realtime byte and a data byte write back the `RS` they
find. -/
theorem resolveFollowsTheByteClass : Obligations.ResolveFollowsTheByteClass := by
  refine fun b s => ⟨fun realtime => ?_, fun common common' => ?_, fun voice voice' => ?_, fun data zero => ?_,
    fun data nonzero => ?_⟩
  · simpa using exec_frmResolve_of_resolve (resolve_realtime s.rs realtime)
  · exact exec_frmResolve_of_resolve (resolve_systemCommon s.rs common common')
  · exact exec_frmResolve_of_resolve (resolve_channelVoice s.rs voice voice')
  · simpa using exec_frmResolve_of_resolve ((resolve_data s.rs data).trans (if_pos zero))
  · simpa using exec_frmResolve_of_resolve ((resolve_data s.rs data).trans (if_neg nonzero))

end Sys2Proof.Machine

/-! PROOFS. The UMP codec (spec/42_ump.md R71, R72, R74 to R76): what its two operations answer, and what the encoder's words
are. -/

namespace Sys2Proof.Machine

/-! ### The two operations (R75) -/

theorem exec_umpDecode (words : List Word) (cap : Nat) (s : State) :
    exec (.umpDecode words cap) s = .next (s.withResp (umpDecodeResponse s.cfg.status words cap)) := rfl

theorem exec_umpEncode (bytes : List Byte) (s : State) :
    exec (.umpEncode bytes) s = .next (s.withResp (umpEncodeResponse bytes)) := rfl

/-- Settles O42: each operation writes its response alone, and of the state the response reads the status values at most. -/
theorem codecIsStateless : Obligations.CodecIsStateless := by
  refine ⟨fun v words cap => ⟨umpDecodeResponse v words cap, ?_⟩, fun bytes => ⟨_, exec_umpEncode bytes⟩⟩
  rintro s rfl
  exact exec_umpDecode words cap s

/-! ### What the decoder makes of a word (R71, R74) -/

/-- The type of a word by arithmetic (R48). -/
theorem umpMt_eq_iff (w : Word) (mt : BitVec 4) : umpMt w = mt ↔ w.toNat / 2 ^ 28 = mt.toNat := by
  have hw : w.toNat / 2 ^ 28 < 2 ^ 4 := by omega
  rw [umpMt, ← BitVec.toNat_inj, BitVec.extractLsb'_toNat, Nat.shiftRight_eq_div_pow, Nat.mod_eq_of_lt hw]

/-- Types 1 and 2 carry a message, no other type does. -/
theorem umpMessage_eq_none_iff (v : StatusTable) (w : Word) : umpMessage v w = none ↔ umpMt w ≠ 1 ∧ umpMt w ≠ 2 := by
  unfold umpMessage
  split_ifs <;> simp_all

theorem exec_umpDecode_of_umpMessage_none {s : State} {w : Word} (h : umpMessage s.cfg.status w = none) (ws : List Word)
    (cap : Nat) : exec (.umpDecode (w :: ws) cap) s = .next (s.withResp (.umpDecode 0 true [])) := by
  rw [exec_umpDecode, umpDecodeResponse, h]

/-- The message of a word in its fields, among which the group does not occur (R71, R76). -/
theorem umpMessage_umpWord (v : StatusTable) (mt g : BitVec 4) (b0 b1 b2 : Byte) :
    umpMessage v (umpWord mt g b0 b1 b2) = if mt = 1 then some (systemMessage v b0 b1 b2)
      else if mt = 2 then some (channelMessage b0 b1 b2) else none := by
  simp only [umpMessage, umpMt_umpWord, umpB0_umpWord, umpB1_umpWord, umpB2_umpWord]

theorem umpDecodeResponse_group_irrel (v : StatusTable) (mt g g' : BitVec 4) (b0 b1 b2 : Byte) (ws : List Word) (cap : Nat) :
    umpDecodeResponse v (umpWord mt g b0 b1 b2 :: ws) cap = umpDecodeResponse v (umpWord mt g' b0 b1 b2 :: ws) cap := by
  simp only [umpDecodeResponse, umpMessage_umpWord]

/-! ### What the encoder makes of a byte sequence (R72) -/

theorem exec_umpEncode_sysex (bs : List Byte) (s : State) :
    exec (.umpEncode (0xF0 :: bs)) s = .next (s.withResp (.umpEncode 0 true [])) := rfl

theorem umpEncodeResponse_of_head?_ne {bytes : List Byte} (h : bytes.head? ≠ some 0xF0) :
    umpEncodeResponse bytes = .umpEncode ((bytes.length + 2) / 3) false (umpPackAll bytes) := if_neg h

theorem umpPackAll_length (bytes : List Byte) : (umpPackAll bytes).length = (bytes.length + 2) / 3 := by
  simp [umpPackAll, umpWordCount]

theorem umpPackAll_getD {bytes : List Byte} {k : Nat} (hk : k < (umpPackAll bytes).length) :
    (umpPackAll bytes).getD k 0 = umpPack bytes k := by
  rw [List.getD_eq_getElem _ _ hk]
  simp [umpPackAll]

/-- The encoder's type of a word, as R72 reads it off the first byte packed into it. -/
theorem umpTypeOf_toNat (f : Byte) : (umpTypeOf f).toNat = if f = 0xF7 then 3 else if 0xF0 ≤ f.toNat then 1 else 2 := by
  have hnibble : hiNibble f = 0xF ↔ 0xF0 ≤ f.toNat := by
    rw [hiNibble_eq_iff, show (0xF : BitVec 4).toNat = 15 from rfl]
    omega
  simp only [umpTypeOf, statusEOX, hnibble]
  split_ifs <;> rfl

/-- Word `k` as R72's sum of its fields. -/
theorem umpPack_toNat (bytes : List Byte) (k : Nat) :
    (umpPack bytes k).toNat =
      (if bytes.getD (3 * k) 0 = 0xF7 then 3 else if 0xF0 ≤ (bytes.getD (3 * k) 0).toNat then 1 else 2) * 2 ^ 28 +
      (bytes.getD (3 * k) 0).toNat * 2 ^ 16 + (bytes.getD (3 * k + 1) 0).toNat * 2 ^ 8 + (bytes.getD (3 * k + 2) 0).toNat := by
  rw [umpPack_eq, umpWord_toNat, umpTypeOf_toNat]
  simp

/-- Settles O44: the packed words are `umpPack bytes k`, and each is the sum of its fields. -/
theorem encodePacksThreeBytesToAWord : Obligations.EncodePacksThreeBytesToAWord := by
  refine ⟨exec_umpEncode_sysex, fun bytes s h => ⟨umpPackAll bytes, ?_, umpPackAll_length bytes, fun k hk => ?_⟩⟩
  · rw [exec_umpEncode, umpEncodeResponse_of_head?_ne h]
  · rw [umpPackAll_getD hk, umpPack_toNat]

/-! ### Groups (R76) -/

/-- The group of a word by arithmetic (R48). -/
theorem umpGroup_toNat (w : Word) : (umpGroup w).toNat = w.toNat / 2 ^ 24 % 16 := by
  rw [umpGroup, BitVec.extractLsb'_toNat, Nat.shiftRight_eq_div_pow]

theorem umpGroup_of_mem_umpPackAll {bytes : List Byte} {w : Word} (hw : w ∈ umpPackAll bytes) : umpGroup w = 0 := by
  obtain ⟨k, -, rfl⟩ := List.mem_map.1 hw
  rw [umpPack_eq, umpGroup_umpWord]

/-- What the encoder answers is either no words or the packed ones. -/
theorem umpEncodeResponse_group_zero (bytes : List Byte) :
    ∃ n u ws, umpEncodeResponse bytes = .umpEncode n u ws ∧ ∀ w ∈ ws, umpGroup w = 0 := by
  by_cases h : bytes.head? = some 0xF0
  · exact ⟨0, true, [], if_pos h, fun _ hw => nomatch hw⟩
  · exact ⟨_, false, umpPackAll bytes, umpEncodeResponse_of_head?_ne h, fun _ => umpGroup_of_mem_umpPackAll⟩

/-- Settles O47: the group is no part of a decoded message, and the group of every packed word is 0. -/
theorem groupIsDiscardedAndWrittenZero : Obligations.GroupIsDiscardedAndWrittenZero := by
  refine ⟨fun mt g g' b0 b1 b2 ws cap s => ⟨_, exec_umpDecode _ cap s, ?_⟩, fun bytes s => ?_⟩
  · rw [exec_umpDecode, umpDecodeResponse_group_irrel]
  · obtain ⟨n, u, ws, hresp, hgroup⟩ := umpEncodeResponse_group_zero bytes
    refine ⟨n, u, ws, hresp ▸ exec_umpEncode bytes s, fun w hw => ?_⟩
    rw [← umpGroup_toNat, hgroup w hw]
    rfl

/-! ### System exclusive (R74) -/

/-- A type 3 word carries no message (R74). -/
theorem umpMessage_eq_none_of_type_three (v : StatusTable) {w : Word} (h : w.toNat / 2 ^ 28 = 3) : umpMessage v w = none := by
  have hmt : umpMt w = 3 := (umpMt_eq_iff w 3).2 h
  rw [umpMessage_eq_none_iff, hmt]
  decide

/-- Settles O48: no type 3 word carries a message, the encoder asks for a leading `0xF0` first, and a lone `0xF7` is packed
as any other byte. -/
theorem sysexIsRejectedBothWays : Obligations.SysexIsRejectedBothWays := by
  refine ⟨fun w ws cap s h => ?_, exec_umpEncode_sysex, fun s => ?_⟩
  · exact exec_umpDecode_of_umpMessage_none (umpMessage_eq_none_of_type_three _ h) ws cap
  · have hresp : umpEncodeResponse [0xF7] = .umpEncode 1 false [0x30F70000] := by decide
    rw [exec_umpEncode, hresp]

end Sys2Proof.Machine

/-! PROOFS. The dropped push (spec/60_exceptions.md R90, spec/40_cpb.md R58 step 0). -/

namespace Sys2Proof.Machine

/-- Step 0 of `CPB.PUSH`: the length is judged before room is made, so nothing is evicted for what cannot be stored (R58). -/
theorem exec_cpbPush_of_length_outside {d : List Byte} {s : State} (h : d.length = 0 ∨ s.cfg.arenaCap < d.length) :
    exec (.cpbPush d) s = .next (s.withResp (.cpbPush 0 true)) :=
  if_pos h

/-- Settles O23: such a push answers from step 0 alone, whatever the state. -/
theorem pushOutsideTheDataModelIsDropped : Obligations.PushOutsideTheDataModelIsDropped :=
  fun _ _ => exec_cpbPush_of_length_outside

end Sys2Proof.Machine

/-! PROOFS. Hardware reset (spec/70_reset_and_hazards.md R98): what a step does with one at the port, and which operations it
stands for. -/

namespace Sys2Proof.Machine

/-- A reset at the port lands between operations (R98; log entry 14). -/
theorem step_of_hardReset {s : State} {rest : List PortEvent} (hp : s.port = .hardReset :: rest) :
    step s = .next (hardReset (s.withPort rest)) := by
  simp [step, fetch, hp]

/-- The two operations in turn, each with its answer, and then no answer: the reset itself is no command. -/
theorem hardReset_eq_init_then_frmReset (s : State) :
    hardReset s = { ((s.initCursors.withResp .cpbInit).withRs 0x00).withResp .frmReset with resp := none } := rfl

/-- Settles O9: `CPB.INIT` clears the cursors and `FRM.RESET` then `RS`, which is the reset's state with an answer in it. -/
theorem hardwareResetIsInitThenFramerReset : Obligations.HardwareResetIsInitThenFramerReset := fun s rest hp =>
  ⟨_, _, _, exec_cpbInit (s.withPort rest), exec_frmReset _, step_of_hardReset hp, hardReset_eq_init_then_frmReset _⟩

end Sys2Proof.Machine

/-! PROOFS. The encodings (spec/30_encoding.md R40 to R50): the decoder undoes the encoder, every word is read back, and what
the decoder reads is the row that the opcode table selects. -/

namespace Sys2Proof

/-- The per-constructor laws of Laws/PerInstr, together. -/
theorem decode_encode : ∀ i : Instr, Laws.DecodeEncode.Statement i
  | .cpbInit => Laws.DecodeEncode.cpbInit
  | .cpbPush data => Laws.DecodeEncode.cpbPush data
  | .cpbPop cap => Laws.DecodeEncode.cpbPop cap
  | .cpbCount => Laws.DecodeEncode.cpbCount
  | .frmReset => Laws.DecodeEncode.frmReset
  | .frmResolve b => Laws.DecodeEncode.frmResolve b
  | .frmMsglen st => Laws.DecodeEncode.frmMsglen st
  | .frmNext s => Laws.DecodeEncode.frmNext s
  | .umpDecode words cap => Laws.DecodeEncode.umpDecode words cap
  | .umpEncode bytes => Laws.DecodeEncode.umpEncode bytes
  | .cmdReserved op a b => Laws.DecodeEncode.cmdReserved op a b
  | .stRt value => Laws.DecodeEncode.stRt value
  | .stSysex => Laws.DecodeEncode.stSysex
  | .stQf => Laws.DecodeEncode.stQf
  | .stSpp => Laws.DecodeEncode.stSpp
  | .stSs => Laws.DecodeEncode.stSs
  | .stEox => Laws.DecodeEncode.stEox
  | .stSyscomOther value => Laws.DecodeEncode.stSyscomOther value
  | .stCvPc channel => Laws.DecodeEncode.stCvPc channel
  | .stCvCp channel => Laws.DecodeEncode.stCvCp channel
  | .stCvOther kind channel => Laws.DecodeEncode.stCvOther kind channel
  | .midiData value => Laws.DecodeEncode.midiData value
  | .umpSysQf group b1 b2 => Laws.DecodeEncode.umpSysQf group b1 b2
  | .umpSysSpp group b1 b2 => Laws.DecodeEncode.umpSysSpp group b1 b2
  | .umpSysSs group b1 b2 => Laws.DecodeEncode.umpSysSs group b1 b2
  | .umpSysOther group b0 b1 b2 => Laws.DecodeEncode.umpSysOther group b0 b1 b2
  | .umpCvPc group channel b1 b2 => Laws.DecodeEncode.umpCvPc group channel b1 b2
  | .umpCvCp group channel b1 b2 => Laws.DecodeEncode.umpCvCp group channel b1 b2
  | .umpCvOther group b0 b1 b2 => Laws.DecodeEncode.umpCvOther group b0 b1 b2
  | .umpData group b0 b1 b2 => Laws.DecodeEncode.umpData group b0 b1 b2
  | .umpRsvdMt0 group b0 b1 b2 => Laws.DecodeEncode.umpRsvdMt0 group b0 b1 b2
  | .umpRsvdMt4To7 mtLow group b0 b1 b2 => Laws.DecodeEncode.umpRsvdMt4To7 mtLow group b0 b1 b2
  | .umpRsvdMt8To15 mtLow group b0 b1 b2 => Laws.DecodeEncode.umpRsvdMt8To15 mtLow group b0 b1 b2

/-- Settles O1, by the law of each constructor. -/
theorem decodeOfEncodeIsTheInstruction : Obligations.DecodeOfEncodeIsTheInstruction :=
  fun v i hv hi => decode_encode i v hv hi

/-! ### Reading back a byte (R45) -/

/-- The byte is put together again from what its row leaves open. -/
theorem byte_parts : ∀ b : Byte,
    (b.extractLsb' 3 5 = 0b11111 → rtByte (b.extractLsb' 0 3) = b) ∧
    (b.extractLsb' 3 5 = 0b11110 → syscomByte (b.extractLsb' 0 3) = b) ∧
    (b.extractLsb' 7 1 ≠ 1 → dataByte (b.extractLsb' 0 7) = b) := by decide

/-- What remains of `0xF0..0xF7` without the two system exclusive bytes (R45, R46). -/
theorem isNamedSystemCommon_of_systemCommon : ∀ b : Byte, b.extractLsb' 3 5 = 0b11110 → b ≠ statusSysex → b ≠ statusEOX →
    isNamedSystemCommon b = true := by decide

/-- What remains of the status bytes without the realtime and the system-common ones is channel voice (R45). -/
theorem hiNibble_of_status : ∀ b : Byte, b.extractLsb' 3 5 ≠ 0b11111 → b.extractLsb' 3 5 ≠ 0b11110 → b.extractLsb' 7 1 = 1 →
    (hiNibble b).getLsbD 3 = true ∧ hiNibble b ≠ 0xF := by decide

/-- A byte decodes to a well-formed instruction that encodes to it, whatever the status values are. -/
theorem decodeMidi_reads_back (v : StatusTable) (b : Byte) :
    (decodeMidi v b).wf v = true ∧ encode v (decodeMidi v b) = .midi8 b := by
  obtain ⟨hrt, hcom, hdata⟩ := byte_parts b
  unfold decodeMidi
  split_ifs with realtime sysex qf spp ss eox common pc cp voice
  · exact ⟨rfl, congrArg _ (hrt realtime)⟩
  · exact ⟨rfl, congrArg _ sysex.symm⟩
  · exact ⟨rfl, congrArg _ qf.symm⟩
  · exact ⟨rfl, congrArg _ spp.symm⟩
  · exact ⟨rfl, congrArg _ ss.symm⟩
  · exact ⟨rfl, congrArg _ eox.symm⟩
  · refine ⟨?_, congrArg _ (hcom common)⟩
    simp [Instr.wf, Instr.wfIn, hcom common, isNamedSystemCommon_of_systemCommon b common sysex eox, qf, spp, ss]
  · exact ⟨rfl, congrArg _ (pc ▸ cvByte_nibbles b)⟩
  · exact ⟨rfl, congrArg _ (cp ▸ cvByte_nibbles b)⟩
  · refine ⟨?_, congrArg _ (cvByte_nibbles b)⟩
    obtain ⟨h3, hf⟩ := hiNibble_of_status b realtime common voice
    simpa [Instr.wf, Instr.wfIn, h3, pc, cp] using hf
  · exact ⟨rfl, congrArg _ (hdata voice)⟩

/-! ### Reading back a UMP word (R48) -/

/-- The types that are left when 0 to 3 are gone are put together again from their low bits (R50). -/
theorem reservedType_parts : ∀ mt : BitVec 4, mt ≠ 1 → mt ≠ 2 → mt ≠ 3 → mt ≠ 0 →
    (mt.extractLsb' 3 1 = 0 → 0b01#2 ++ mt.extractLsb' 0 2 = mt) ∧
    (mt.extractLsb' 3 1 ≠ 0 → 0b1#1 ++ mt.extractLsb' 0 3 = mt) := by decide

/-- A UMP word decodes to a well-formed instruction that encodes to it, whatever the status values are. -/
theorem decodeUmp_reads_back (v : StatusTable) (w : Word) :
    (decodeUmp v w).wf v = true ∧ encode v (decodeUmp v w) = .ump32 w := by
  have hw := umpWord_fields w
  have fields : ∀ {mt b0}, umpMt w = mt → umpB0 w = b0 → umpWord mt (umpGroup w) b0 (umpB1 w) (umpB2 w) = w := by
    rintro _ _ rfl rfl
    exact hw
  have channel : ∀ {k}, hiNibble (umpB0 w) = k → umpB0 w = cvByte k (loNibble (umpB0 w)) := by
    rintro _ rfl
    exact (cvByte_nibbles _).symm
  unfold decodeUmp
  dsimp only
  split_ifs with system qf spp ss voice pc cp data zero low
  · exact ⟨rfl, congrArg _ (fields system qf)⟩
  · exact ⟨rfl, congrArg _ (fields system spp)⟩
  · exact ⟨rfl, congrArg _ (fields system ss)⟩
  · exact ⟨by simp [Instr.wf, Instr.wfIn, qf, spp, ss], congrArg _ (fields system rfl)⟩
  · exact ⟨rfl, congrArg _ (fields voice (channel pc))⟩
  · exact ⟨rfl, congrArg _ (fields voice (channel cp))⟩
  · exact ⟨by simp [Instr.wf, Instr.wfIn, pc, cp], congrArg _ (fields voice rfl)⟩
  · exact ⟨rfl, congrArg _ (fields data rfl)⟩
  · exact ⟨rfl, congrArg _ (fields zero rfl)⟩
  · exact ⟨rfl, congrArg _ (fields ((reservedType_parts _ system voice data zero).1 low).symm rfl)⟩
  · exact ⟨rfl, congrArg _ (fields ((reservedType_parts _ system voice data zero).2 low).symm rfl)⟩

end Sys2Proof

/-! PROOFS. Command words (spec/30_encoding.md R42, R43) and the rows of the opcode table: what the decoder reads from a
word is read back, and is the row that the word selects. -/

namespace Sys2Proof.Machine

/-! ### Reading back a command word (R42, R43) -/

/-- The upper half of `b` is zero where the operand is one byte (R42). -/
theorem zero_append_low {b : BitVec 16} (h : b.extractLsb' 8 8 = 0) : 0#8 ++ b.extractLsb' 0 8 = b := by
  have hb : b.extractLsb' 8 8 ++ b.extractLsb' 0 8 = b := BitVec.extractLsb'_append_extractLsb'
  rwa [h] at hb

/-- A payload of no bytes and no words is none. -/
theorem cmd32_of_empty (w : Word) {bytes : List Byte} {words : List Word} (hbytes : bytes.length = 0) (hwords : words.length = 0) :
    Transaction.cmd32 w [] [] = .cmd32 w bytes words := by
  rw [List.eq_nil_of_length_eq_zero hbytes, List.eq_nil_of_length_eq_zero hwords]

/-- A word that is not reserved is decoded to one instruction, given the payload it asks for; and that instruction is well
formed and encodes to the word with that payload (R42, R44). -/
theorem decodeCmd_of_not_reserved {w : Word} (h : ¬ ReservedWord w) (bytes : List Byte) (words : List Word) :
    ∃ i, decodeCmd w bytes words = withPayload (payloadBytes w) (payloadWords w) bytes words i ∧
      (bytes.length = payloadBytes w → words.length = payloadWords w →
        ∀ v, i.wf v = true ∧ encode v i = .cmd32 w bytes words) := by
  rw [reservedWord_iff_cmdSelects_eq_false, Bool.not_eq_false] at h
  unfold decodeCmd payloadBytes payloadWords
  rw [if_pos h]
  have hw := cmdWord_fields w
  have hb := (cmdB w).isLt
  have ha := (cmdA w).isLt
  generalize cmdOp w = op at *
  generalize cmdA w = a at *
  generalize cmdB w = b at *
  subst hw
  unfold cmdSelects at h
  split_ifs at h with none length byte
  · obtain ⟨rfl, rfl⟩ : a = 0 ∧ b = 0 := by simpa using h
    rcases none with rfl | rfl | rfl
    all_goals exact ⟨_, rfl, fun hbytes hwords v => ⟨rfl, cmd32_of_empty _ hbytes hwords⟩⟩
  · obtain rfl : a = 0 := by simpa using h
    have hb' := BitVec.ofNat_toNat 16 b
    rcases length with rfl | rfl | rfl | rfl
    all_goals
      refine ⟨_, rfl, fun hbytes hwords v => ?_⟩
      simp_all [encode, Instr.wf, Instr.wfIn, Config.default]
  · obtain ⟨rfl, hhigh⟩ : a = 0 ∧ b.extractLsb' 8 8 = 0 := by simpa using h
    rcases byte with rfl | rfl
    all_goals
      refine ⟨_, rfl, fun hbytes hwords v => ⟨rfl, ?_⟩⟩
      rw [encode, zero_append_low hhigh, cmd32_of_empty _ hbytes hwords]
  · obtain rfl : op = 0x8 := by simpa using h
    refine ⟨_, rfl, fun hbytes hwords v => ?_⟩
    simp_all [encode, Instr.wf, Instr.wfIn, Config.default]

theorem withPayload_eq_ok_iff {nbytes nwords : Nat} {bytes : List Byte} {words : List Word} {i j : Instr} :
    withPayload nbytes nwords bytes words i = .ok j ↔ bytes.length = nbytes ∧ words.length = nwords ∧ i = j := by
  unfold withPayload
  split_ifs with hb hw <;> simp_all

theorem withPayload_eq_error_iff {nbytes nwords : Nat} {bytes : List Byte} {words : List Word} {i : Instr} {e : DecodeError} :
    withPayload nbytes nwords bytes words i = .error e ↔
      bytes.length ≠ nbytes ∧ e = .byteCount nbytes bytes.length ∨
      bytes.length = nbytes ∧ words.length ≠ nwords ∧ e = .wordCount nwords words.length := by
  unfold withPayload
  split_ifs with hb hw <;> simp_all [eq_comm]

/-- A reserved word decodes to a well-formed instruction that encodes to the word, without a payload (R43). -/
theorem cmdReserved_reads_back {w : Word} (h : ReservedWord w) (v : StatusTable) :
    (Instr.cmdReserved (cmdOp w) (cmdA w) (cmdB w)).wf v = true ∧
      encode v (.cmdReserved (cmdOp w) (cmdA w) (cmdB w)) = .cmd32 w [] [] := by
  rw [encode, cmdWord_fields]
  exact ⟨by simp [Instr.wf, Instr.wfIn, (reservedWord_iff_cmdSelects_eq_false w).1 h], rfl⟩

/-- Settles O2: the read-back of the three formats, a command word being reserved or not. -/
theorem everyWordDecodesAndReadsBack : Obligations.EveryWordDecodesAndReadsBack := by
  refine fun v => ⟨fun b => ⟨_, rfl, decodeMidi_reads_back v b⟩, fun w => ⟨_, rfl, decodeUmp_reads_back v w⟩,
    fun w bytes words hbytes hwords => ?_⟩
  by_cases hw : ReservedWord w
  · obtain ⟨hwf, henc⟩ := cmdReserved_reads_back hw v
    exact ⟨_, decode_of_reservedWord hw v bytes words, hwf, fun hn => absurd hw hn, fun _ => henc⟩
  · obtain ⟨i, hdec, hback⟩ := decodeCmd_of_not_reserved hw bytes words
    obtain ⟨hwf, henc⟩ := hback hbytes hwords v
    exact ⟨i, hdec.trans (withPayload_eq_ok_iff.2 ⟨hbytes, hwords, rfl⟩), hwf, fun _ => henc, fun hr => absurd hr hw⟩

/-- What a command word is decoded to is well formed and encodes to that word. -/
theorem decode_cmd32_reads_back {v : StatusTable} {w : Word} {bytes : List Byte} {words : List Word} {i : Instr}
    (h : decode v (.cmd32 w bytes words) = .ok i) :
    i.wf v = true ∧ ∃ bytes' words', encode v i = .cmd32 w bytes' words' := by
  by_cases hw : ReservedWord w
  · rw [decode_of_reservedWord hw] at h
    cases h
    obtain ⟨hwf, henc⟩ := cmdReserved_reads_back hw v
    exact ⟨hwf, _, _, henc⟩
  · obtain ⟨j, hdec, hback⟩ := decodeCmd_of_not_reserved hw bytes words
    obtain ⟨hbytes, hwords, rfl⟩ := withPayload_eq_ok_iff.1 (hdec.symm.trans h)
    obtain ⟨hwf, henc⟩ := hback hbytes hwords v
    exact ⟨hwf, _, _, henc⟩

/-- The decoder gives well-formed instructions only. -/
theorem decode_wf {v : StatusTable} {t : Transaction} {i : Instr} (h : decode v t = .ok i) : i.wf v = true := by
  cases t with
  | cmd32 w bytes words => exact (decode_cmd32_reads_back h).1
  | midi8 b => cases h; exact (decodeMidi_reads_back v b).1
  | ump32 w => cases h; exact (decodeUmp_reads_back v w).1

/-- The decoder rejects a payload of the wrong size, where the word is not reserved, and nothing else (R40, R44). -/
theorem decode_eq_error_iff {v : StatusTable} {t : Transaction} {e : DecodeError} :
    decode v t = .error e ↔ ∃ w bytes words, t = .cmd32 w bytes words ∧ ¬ ReservedWord w ∧
      (bytes.length ≠ payloadBytes w ∧ e = .byteCount (payloadBytes w) bytes.length ∨
        bytes.length = payloadBytes w ∧ words.length ≠ payloadWords w ∧ e = .wordCount (payloadWords w) words.length) := by
  have wrongSize : ∀ w bytes words, ¬ ReservedWord w → (decode v (.cmd32 w bytes words) = .error e ↔
      (bytes.length ≠ payloadBytes w ∧ e = .byteCount (payloadBytes w) bytes.length ∨
        bytes.length = payloadBytes w ∧ words.length ≠ payloadWords w ∧ e = .wordCount (payloadWords w) words.length)) := by
    intro w bytes words hw
    obtain ⟨i, hdec, -⟩ := decodeCmd_of_not_reserved hw bytes words
    rw [decode, hdec, withPayload_eq_error_iff]
  constructor
  · intro h
    rcases t with ⟨w, bytes, words⟩ | b | w
    · have hw : ¬ ReservedWord w := fun hw => by cases (decode_of_reservedWord hw v bytes words).symm.trans h
      exact ⟨w, bytes, words, rfl, hw, (wrongSize w bytes words hw).1 h⟩
    · cases h
    · cases h
  · rintro ⟨w, bytes, words, rfl, hw, hsize⟩
    exact (wrongSize w bytes words hw).2 hsize

/-! ### The opcode table (R42) -/

/-- The row a word selects is the first that it matches. -/
theorem selectRow_cons {width : Nat} (r : TableRow width) (rows : List (TableRow width)) (w : BitVec width) :
    selectRow (r :: rows) w = if w &&& r.mask = r.pattern then some r.mnemonic else selectRow rows w := by
  by_cases h : w &&& r.mask = r.pattern <;> simp [selectRow, h]

/-- The `CMD32` rows: those of the ten operations, then the row that takes every word. -/
theorem cmdRows_eq : cmdRows = cmdRows.take 10 ++ [⟨"CMD.RESERVED", 0, 0⟩] := rfl

theorem selectRow_append {width : Nat} (rows rows' : List (TableRow width)) (w : BitVec width) :
    selectRow (rows ++ rows') w = (selectRow rows w).or (selectRow rows' w) := by
  simp [selectRow, List.find?_append, Option.map_or]

/-- The row of an encoded command is the instruction's. -/
theorem selectRow_cmdRows {v : StatusTable} {i : Instr} {w : Word} {bytes : List Byte} {words : List Word} (hi : i.wf v = true)
    (h : encode v i = .cmd32 w bytes words) : selectRow cmdRows w = some i.mnemonic := by
  rw [cmdRows_eq, selectRow_append]
  cases i <;> cases h
  case cmdReserved op a b =>
    have hnone : selectRow (cmdRows.take 10) (cmdWord op a b) = none :=
      (selectRow_operations_eq_none_iff _).2 (by simpa [Instr.wf, Instr.wfIn] using hi)
    rw [hnone]
    simp [selectRow_cons, Instr.mnemonic]
  all_goals
    simp only [cmdRows_take_ten, selectRow_cons, and_operationMask_eq_iff, BitVec.and_allOnes, and_highByte_eq_zero_iff]
    simp [Instr.mnemonic]

/-- The row of a byte is that of the instruction it is decoded to. -/
theorem selectRow_midiRows : ∀ b : Byte, selectRow midiRows b = some (decodeMidi StatusTable.default b).mnemonic := by
  decide

/-- The `UMP32` rows by the fields of their masks and matches (R48 to R50). -/
theorem umpRows_eq :
    umpRows =
      [⟨"UMP.SYS.QF", umpWord 1 0 0xF1 0 0, umpWord 0xF 0 0xFF 0 0⟩, ⟨"UMP.SYS.SPP", umpWord 1 0 0xF2 0 0, umpWord 0xF 0 0xFF 0 0⟩,
       ⟨"UMP.SYS.SS", umpWord 1 0 0xF3 0 0, umpWord 0xF 0 0xFF 0 0⟩, ⟨"UMP.SYS.OTHER", umpWord 1 0 0 0 0, umpWord 0xF 0 0 0 0⟩,
       ⟨"UMP.CV.PC", umpWord 2 0 0xC0 0 0, umpWord 0xF 0 0xF0 0 0⟩, ⟨"UMP.CV.CP", umpWord 2 0 0xD0 0 0, umpWord 0xF 0 0xF0 0 0⟩,
       ⟨"UMP.CV.OTHER", umpWord 2 0 0 0 0, umpWord 0xF 0 0 0 0⟩, ⟨"UMP.DATA", umpWord 3 0 0 0 0, umpWord 0xF 0 0 0 0⟩,
       ⟨"UMP.RSVD.MT0", umpWord 0 0 0 0 0, umpWord 0xF 0 0 0 0⟩, ⟨"UMP.RSVD.MT4_7", umpWord 4 0 0 0 0, umpWord 0xC 0 0 0 0⟩,
       ⟨"UMP.RSVD.MT8_15", umpWord 8 0 0 0 0, umpWord 0x8 0 0 0 0⟩] := rfl

/-- The rows that read the high nibble of the first byte (R46). -/
theorem and_highNibble_eq_iff : ∀ b : Byte,
    (b &&& 0xF0 = 0xC0 ↔ hiNibble b = kindPC) ∧ (b &&& 0xF0 = 0xD0 ↔ hiNibble b = kindCP) := by decide

/-- The rows of the reserved types read one or two bits of the type (R50). -/
theorem and_reservedType_eq_iff : ∀ mt : BitVec 4, mt ≠ 1 → mt ≠ 2 → mt ≠ 3 → mt ≠ 0 →
    (mt &&& 0xC = 4 ↔ mt.extractLsb' 3 1 = 0) ∧ (mt &&& 8 = 8 ↔ mt.extractLsb' 3 1 ≠ 0) := by decide

/-- The row of a UMP word is that of the instruction it is decoded to. -/
theorem selectRow_umpRows (w : Word) : selectRow umpRows w = some (decodeUmp StatusTable.default w).mnemonic := by
  have hmt : umpMt w &&& 0xF = umpMt w := BitVec.and_allOnes
  have hb0 : umpB0 w &&& 0xFF = umpB0 w := BitVec.and_allOnes
  have hzero : ∀ {n} (x : BitVec n), x &&& (0 : BitVec n) = 0 := fun _ => BitVec.and_zero
  simp only [umpRows_eq, selectRow_cons, ump_and_eq_iff, hmt, hb0, hzero, and_highNibble_eq_iff, and_true, true_and, decodeUmp,
    StatusTable.default]
  have type_two_ne : (2 : BitVec 4) ≠ 1 := by decide
  by_cases system : umpMt w = 1
  · simp only [system, true_and, if_true]
    split_ifs <;> simp_all [Instr.mnemonic]
  by_cases voice : umpMt w = 2
  · simp only [voice, type_two_ne, false_and, true_and, if_false, if_true]
    split_ifs <;> rfl
  by_cases data : umpMt w = 3
  · simp [data, Instr.mnemonic]
  by_cases zero : umpMt w = 0
  · simp [zero, Instr.mnemonic]
  obtain ⟨hlow, hhigh⟩ := and_reservedType_eq_iff _ system voice data zero
  simp only [system, voice, data, zero, hlow, hhigh, false_and, if_false]
  split_ifs <;> rfl

/-- Settles O3: command words by the instruction that encodes to them, the two other formats row by row. -/
theorem decoderFollowsTheOpcodeTable : Obligations.DecoderFollowsTheOpcodeTable := by
  refine ⟨fun w bytes words i h => ?_, fun b i h => ?_, fun w i h => ?_⟩
  · obtain ⟨hwf, _, _, henc⟩ := decode_cmd32_reads_back h
    exact selectRow_cmdRows hwf henc
  · cases h
    exact selectRow_midiRows b
  · cases h
    exact selectRow_umpRows w

/-- Settles O5: each word by running the decoder. -/
theorem wordsOfTheSpecDecode : Obligations.WordsOfTheSpecDecode := by
  unfold Obligations.WordsOfTheSpecDecode
  decide

end Sys2Proof.Machine

/-! PROOFS. The status values (spec/93_implementation_defined.md U1): which words they select, and what does not depend on them. -/

namespace Sys2Proof.Machine

/-! ### The status values (U1) -/

/-- For the formats without payload, decoding is the inverse of encoding on well-formed instructions. -/
theorem decode_midi8_eq_ok_iff {v : StatusTable} (hv : v.wf = true) {i : Instr} (hi : i.wf v = true) (b : Byte) :
    decode v (.midi8 b) = .ok i ↔ encode v i = .midi8 b := by
  constructor
  · intro h
    cases h
    exact (decodeMidi_reads_back v b).2
  · intro h
    rw [← h]
    exact decode_encode i v hv hi

theorem decode_ump32_eq_ok_iff {v : StatusTable} (hv : v.wf = true) {i : Instr} (hi : i.wf v = true) (w : Word) :
    decode v (.ump32 w) = .ok i ↔ encode v i = .ump32 w := by
  constructor
  · intro h
    cases h
    exact (decodeUmp_reads_back v w).2
  · intro h
    rw [← h]
    exact decode_encode i v hv hi

/-- `0xF1..0xF6` as a range (R45, R46). -/
theorem isNamedSystemCommon_eq : ∀ b : Byte, isNamedSystemCommon b = decide (0xF0 < b.toNat ∧ b.toNat < 0xF7) := by decide

/-- The three values are nowhere asked of a byte outside `0xF1..0xF6`. -/
theorem decodeMidi_status_irrel {v u : StatusTable} (hv : v.wf = true) (hu : u.wf = true) {b : Byte}
    (hb : isNamedSystemCommon b = false) : decodeMidi v b = decodeMidi u b := by
  obtain ⟨vq, vp, vs⟩ := Laws.DecodeEncode.ne_status hv hb
  obtain ⟨uq, up, us⟩ := Laws.DecodeEncode.ne_status hu hb
  simp [decodeMidi, vq, vp, vs, uq, up, us]

/-- The three values are asked of a type 1 word alone. -/
theorem decodeUmp_status_irrel (v u : StatusTable) {w : Word} (hw : umpMt w ≠ 1) : decodeUmp v w = decodeUmp u w := by
  simp only [decodeUmp, if_neg hw]

/-- The first byte of a word by arithmetic (R48). -/
theorem umpB0_eq (w : Word) : umpB0 w = BitVec.ofNat 8 (w.toNat / 2 ^ 16) := by
  simp [umpB0, BitVec.extractLsb', Nat.shiftRight_eq_div_pow]

/-- The words with a given type and first byte. -/
theorem exists_umpWord_eq_iff (w : Word) (mt : BitVec 4) (b0 : Byte) :
    (∃ g b1 b2, umpWord mt g b0 b1 b2 = w) ↔
      w.toNat / 2 ^ 28 = mt.toNat ∧ BitVec.ofNat 8 (w.toNat / 2 ^ 16) = b0 := by
  rw [← umpMt_eq_iff, ← umpB0_eq]
  constructor
  · rintro ⟨g, b1, b2, rfl⟩
    simp
  · rintro ⟨rfl, rfl⟩
    exact ⟨_, _, _, umpWord_fields w⟩

/-- The words that decode to a row with one first byte, where the row is named by an encoding. -/
theorem exists_decode_ump32_iff {v : StatusTable} (hv : v.wf = true) {row : BitVec 4 → Byte → Byte → Instr} {mt : BitVec 4}
    {b0 : Byte} (hwf : ∀ g b1 b2, (row g b1 b2).wf v = true)
    (henc : ∀ g b1 b2, encode v (row g b1 b2) = .ump32 (umpWord mt g b0 b1 b2)) (w : Word) :
    (∃ g b1 b2, decode v (.ump32 w) = .ok (row g b1 b2)) ↔
      w.toNat / 2 ^ 28 = mt.toNat ∧ BitVec.ofNat 8 (w.toNat / 2 ^ 16) = b0 := by
  simp only [decode_ump32_eq_ok_iff hv (hwf _ _ _), henc, Transaction.ump32.injEq, exists_umpWord_eq_iff]

/-- Settles O57: which words a row takes is read off its encoding; where the decoder asks for the values, it has asked for a
system-common byte or a type 1 word before, and no command asks for them. -/
theorem statusValuesSelectTheirRows : Obligations.StatusValuesSelectTheirRows := by
  refine fun v u hv hu => ⟨fun b => ⟨?_, ?_, ?_, fun hb => ?_⟩, fun w => ⟨?_, ?_, ?_, fun hw => ?_⟩, fun _ _ _ => rfl⟩
  · rw [decode_midi8_eq_ok_iff hv rfl, encode, Transaction.midi8.injEq, eq_comm]
  · rw [decode_midi8_eq_ok_iff hv rfl, encode, Transaction.midi8.injEq, eq_comm]
  · rw [decode_midi8_eq_ok_iff hv rfl, encode, Transaction.midi8.injEq, eq_comm]
  · refine congrArg _ (decodeMidi_status_irrel hv hu ?_)
    rw [isNamedSystemCommon_eq, decide_eq_false_iff_not]
    omega
  · exact exists_decode_ump32_iff (row := .umpSysQf) hv (fun _ _ _ => rfl) (fun _ _ _ => rfl) w
  · exact exists_decode_ump32_iff (row := .umpSysSpp) hv (fun _ _ _ => rfl) (fun _ _ _ => rfl) w
  · exact exists_decode_ump32_iff (row := .umpSysSs) hv (fun _ _ _ => rfl) (fun _ _ _ => rfl) w
  · exact congrArg _ (decodeUmp_status_irrel v u fun hmt => hw ((umpMt_eq_iff w 1).1 hmt))

end Sys2Proof.Machine

/-! PROOFS. What an instruction can do, said once for all of them: three act on the buffer, the others write `RS` at most. From
it the statements about every instruction and every step (spec/10_state.md, spec/60_exceptions.md R83, R93). -/

namespace Sys2Proof.Machine

/-! ### The shapes of an instruction -/

/-- A `MIDI8` row runs the byte that it is encoded as (log entry 4). -/
theorem exec_of_encode_midi8 {i : Instr} {b : Byte} {s : State} (h : encode s.cfg.status i = .midi8 b) :
    exec i s = presentByte b s := by
  cases i <;> cases h <;> rfl

/-- A `UMP32` row runs the word that it is encoded as (log entry 5). -/
theorem exec_of_encode_ump32 {i : Instr} {w : Word} {s : State} (h : encode s.cfg.status i = .ump32 w) :
    exec i s = presentWord w s := by
  cases i <;> cases h <;> rfl

/-- An instruction that writes `RS` and its response alone, both by the status values and the `RS` it finds. -/
def WritesOnlyRs (i : Instr) : Prop :=
  writesRs i = true ∧ ∃ (rs : StatusTable → Byte → Byte) (r : StatusTable → Byte → Response),
    (∀ v x, legalRs x = true → legalRs (rs v x) = true) ∧
    ∀ s : State, exec i s = .next ((s.withRs (rs s.cfg.status s.rs)).withResp (r s.cfg.status s.rs))

/-- An instruction that writes its response alone, by the status values and the number of live packets. -/
def OnlyAnswers (i : Instr) : Prop :=
  ∃ r : StatusTable → Nat → Response, ∀ s : State, exec i s = .next (s.withResp (r s.cfg.status s.count))

theorem writesOnlyRs_of_midi8 {i : Instr} {b : StatusTable → Byte} (hi : writesRs i = true)
    (h : ∀ v, encode v i = .midi8 (b v)) : WritesOnlyRs i :=
  ⟨hi, fun v x => (resolve x (b v)).rs, fun v x => .midiByte (resolve x (b v)).valid (resolve x (b v)).status
      (msgLen v (b v)).valid (msgLen v (b v)).len, fun v _ hx => resolve_legal (b v) hx,
    fun s => exec_of_encode_midi8 (h s.cfg.status)⟩

theorem onlyAnswers_of_ump32 {i : Instr} {w : StatusTable → Word} (h : ∀ v, encode v i = .ump32 (w v)) : OnlyAnswers i :=
  ⟨fun v _ => umpDecodeResponse v [w v] 3, fun s => exec_of_encode_ump32 (h s.cfg.status)⟩

theorem cpbCount_onlyAnswers : OnlyAnswers .cpbCount := ⟨fun _ n => .cpbCount n, fun _ => rfl⟩

theorem frmMsglen_onlyAnswers (st : Byte) : OnlyAnswers (.frmMsglen st) :=
  ⟨fun v _ => .frmMsglen (msgLen v st).valid (msgLen v st).len, fun _ => rfl⟩

theorem umpDecode_onlyAnswers (words : List Word) (cap : Nat) : OnlyAnswers (.umpDecode words cap) :=
  ⟨fun v _ => umpDecodeResponse v words cap, fun _ => rfl⟩

theorem umpEncode_onlyAnswers (bytes : List Byte) : OnlyAnswers (.umpEncode bytes) :=
  ⟨fun _ _ => umpEncodeResponse bytes, fun _ => rfl⟩

/-- What an instruction can be for the state: three act on the buffer, the others write `RS` at most. -/
inductive InstrCase : Instr → Prop where
  | init : InstrCase .cpbInit
  | push (d : List Byte) : InstrCase (.cpbPush d)
  | pop (cap : Nat) : InstrCase (.cpbPop cap)
  | rs {i : Instr} (h : WritesOnlyRs i) : InstrCase i
  | answer {i : Instr} (h : OnlyAnswers i) : InstrCase i

theorem instr_cases (i : Instr) : InstrCase i := by
  cases i with
  | cpbInit => exact .init
  | cpbPush d => exact .push d
  | cpbPop cap => exact .pop cap
  | cpbCount => exact .answer cpbCount_onlyAnswers
  | frmReset => exact .rs ⟨rfl, fun _ _ => 0x00, fun _ _ => .frmReset, fun _ _ _ => rfl, fun _ => rfl⟩
  | frmResolve b =>
    exact .rs ⟨rfl, fun _ x => (resolve x b).rs, fun _ x => .frmResolve (resolve x b).valid (resolve x b).status,
      fun _ _ hx => resolve_legal b hx, fun _ => rfl⟩
  | frmMsglen st => exact .answer (frmMsglen_onlyAnswers st)
  | frmNext bs =>
    exact .rs ⟨rfl, fun v x => (frameNext v x bs).rs, fun v x => .frmNext (frameNext v x bs).status
      (frameNext v x bs).consumed (frameNext v x bs).msg.length (frameNext v x bs).msg,
      fun v _ hx => frameNext_legal v bs hx, fun _ => rfl⟩
  | umpDecode words cap => exact .answer (umpDecode_onlyAnswers words cap)
  | umpEncode bytes => exact .answer (umpEncode_onlyAnswers bytes)
  | cmdReserved op a b => exact .answer ⟨fun _ _ => .illegal, fun _ => rfl⟩
  | stRt | stSysex | stQf | stSpp | stSs | stEox | stSyscomOther | stCvPc | stCvCp | stCvOther | midiData =>
    exact .rs (writesOnlyRs_of_midi8 rfl fun _ => rfl)
  | umpSysQf | umpSysSpp | umpSysSs | umpSysOther | umpCvPc | umpCvCp | umpCvOther | umpData | umpRsvdMt0 | umpRsvdMt4To7 |
    umpRsvdMt8To15 => exact .answer (onlyAnswers_of_ump32 fun _ => rfl)

end Sys2Proof.Machine

/-! PROOFS. `CPB.PUSH` and `CPB.POP` in any state and in a good one (spec/40_cpb.md R58, R59), and from them that every instruction
and every step keeps the invariants (spec/10_state.md R23, R24). -/

namespace Sys2Proof.Machine

variable {s t : State} {d : List Byte}

/-! ### `CPB.PUSH` in any state (R58) -/

/-- Making room evicts some number of packets and does nothing else, whatever the state. -/
theorem evictUntilFits_eq_some {len k ev ev' : Nat} (h : evictUntilFits len k s ev = some (t, ev')) :
    ∃ n, t = State.retireOldest^[n] s := by
  induction k generalizing s ev with
  | zero =>
    rw [evictUntilFits] at h
    split_ifs at h
    cases h
    exact ⟨0, rfl⟩
  | succ k ih =>
    rw [evictUntilFits] at h
    split_ifs at h
    · cases h
      exact ⟨0, rfl⟩
    · obtain ⟨n, rfl⟩ := ih h
      exact ⟨n + 1, rfl⟩

theorem makeRoom_eq_some {len ev : Nat} (h : s.makeRoom len = some (t, ev)) : ∃ n, t = State.retireOldest^[n] s := by
  obtain ⟨n, rfl⟩ := evictUntilFits_eq_some h
  unfold State.evictIfFull
  split_ifs
  · exact ⟨n + 1, rfl⟩
  · exact ⟨n, rfl⟩

/-- A push that completes was dropped, or evicted some packets and appended its own. -/
theorem exec_cpbPush_cases (h : exec (.cpbPush d) s = .next t) :
    t = s.withResp (.cpbPush 0 true) ∨
      ∃ n ev, t = ((State.retireOldest^[n] s).appendPacket d).withResp (.cpbPush ev false) := by
  rw [exec, execCpbPush] at h
  split_ifs at h
  · cases h
    exact .inl rfl
  · rcases hroom : s.makeRoom d.length with _ | ⟨u, ev⟩ <;> rw [hroom] at h <;> cases h
    obtain ⟨n, rfl⟩ := makeRoom_eq_some hroom
    exact .inr ⟨n, ev, rfl⟩

/-- A pop that completes found the buffer empty, or retired the oldest packet. -/
theorem exec_cpbPop_cases {cap : Nat} (h : exec (.cpbPop cap) s = .next t) :
    t = s.withResp (.cpbPop 0 []) ∨ ∃ n out, t = s.retireOldest.withResp (.cpbPop n out) := by
  rw [exec, execCpbPop] at h
  split_ifs at h
  · cases h
    exact .inl rfl
  · dsimp only at h
    cases hread : memRead s.cfg.arenaCap s.arena (s.entry s.readPos).off (min cap (s.entry s.readPos).len) <;>
      rw [hread] at h <;> cases h
    exact .inr ⟨_, _, rfl⟩

/-! ### `CPB.PUSH` in a good state (R58) -/

/-- What a push of an admissible length, with the `k` oldest packets evicted, makes of a good state. -/
structure Pushed (s : State) (d : List Byte) (k : Nat) (t : State) : Prop where
  eq : t = ((State.retireOldest^[k] s).appendPacket d).withResp (.cpbPush k false)
  inv : t.Inv
  packets : t.packets = s.packets.drop k ++ [d]
  le : k ≤ s.count
  free : (State.retireOldest^[k] s).isFull = false
  fits : (State.retireOldest^[k] s).bufLen + d.length ≤ (State.retireOldest^[k] s).cfg.arenaCap
  room : s.RoomAfter k d.length
  least : ∀ j < k, ¬ s.RoomAfter j d.length

theorem State.Inv.exec_cpbPush (h : s.Inv) (hd : 1 ≤ d.length) (hcap : d.length ≤ s.cfg.arenaCap) :
    ∃ k t, exec (.cpbPush d) s = .next t ∧ Pushed s d k t := by
  obtain ⟨k, hk, hroom, hfull, hfit, hafter, hleast⟩ := h.makeRoom hcap
  have hevict := h.evictedTo hk
  have hfit' : (State.retireOldest^[k] s).bufLen + d.length ≤ (State.retireOldest^[k] s).cfg.arenaCap := by
    rwa [(iterate_retireOldest_frame s k).1]
  refine ⟨k, ((State.retireOldest^[k] s).appendPacket d).withResp (.cpbPush k false), ?_, rfl, ?_, ?_, hk, hfull, hfit',
    hafter, hleast⟩
  · have hin : ¬ (d.length = 0 ∨ s.cfg.arenaCap < d.length) := by omega
    rw [exec, execCpbPush, if_neg hin, hroom]
    rfl
  · exact (hevict.inv.appendPacket hfull hd hfit').withResp _
  · rw [State.withResp_packets, hevict.inv.packets_appendPacket hfull hfit', hevict.packets]

/-- A pop in a good state: the buffer is empty, or the oldest packet goes. -/
theorem State.Inv.exec_cpbPop_cases (h : s.Inv) (cap : Nat) :
    (s.packets = [] ∧ exec (.cpbPop cap) s = .next (s.withResp (.cpbPop 0 []))) ∨
    ∃ p ps, s.packets = p :: ps ∧ s.retireOldest.Inv ∧ s.retireOldest.packets = ps ∧
      exec (.cpbPop cap) s = .next (s.retireOldest.withResp (.cpbPop (min cap p.length) (p.take cap))) := by
  rcases hp : s.packets with _ | ⟨p, ps⟩
  · have hempty : s.isEmpty = true := by rw [h.isEmpty_iff, ← State.packets_length, hp]; rfl
    exact .inl ⟨rfl, exec_cpbPop_of_isEmpty cap hempty⟩
  · exact .inr ⟨p, ps, rfl, h.retireOldest (State.count_pos_of_packets hp), (h.packets_cons_parts hp).2, h.exec_cpbPop cap hp⟩

/-! ### Every instruction, in a good state -/

/-- All four cursors at 0, from a good state. -/
theorem State.Inv.init (h : s.Inv) : s.initCursors.Inv :=
  State.Inv.initCursors h.cfgWf h.idxLength h.idxFits h.arenaWf h.arenaIn h.rsLegal

/-- Settles O13: the buffer's three operations by their laws; an instruction that writes `RS` leaves a legal one. -/
theorem everyInstructionCompletesInAGoodState : Obligations.EveryInstructionCompletesInAGoodState := by
  intro i s h
  cases instr_cases i with
  | init => exact ⟨_, _, exec_cpbInit s, rfl, h.init.withResp _⟩
  | push d =>
    by_cases hout : d.length = 0 ∨ s.cfg.arenaCap < d.length
    · exact ⟨_, _, exec_cpbPush_of_length_outside hout, rfl, h.withResp _⟩
    · obtain ⟨k, t, hexec, hpushed⟩ := h.exec_cpbPush (d := d) (by omega) (by omega)
      exact ⟨t, .cpbPush k false, hexec, hpushed.eq ▸ rfl, hpushed.inv⟩
  | pop cap =>
    rcases h.exec_cpbPop_cases cap with ⟨-, hexec⟩ | ⟨p, ps, -, hinv, -, hexec⟩
    · exact ⟨_, _, hexec, rfl, h.withResp _⟩
    · exact ⟨_, _, hexec, rfl, hinv.withResp _⟩
  | rs hi =>
    obtain ⟨-, rs, r, hlegal, hexec⟩ := hi
    exact ⟨_, _, hexec s, rfl, (h.withRs (hlegal _ _ h.rsLegal)).withResp _⟩
  | answer hi =>
    obtain ⟨r, hexec⟩ := hi
    exact ⟨_, _, hexec s, rfl, h.withResp _⟩

/-! ### Every step -/

theorem State.Inv.of_exec (h : s.Inv) {i : Instr} (hexec : exec i s = .next t) : t.Inv := by
  obtain ⟨t', _, hexec', -, hinv⟩ := everyInstructionCompletesInAGoodState i s h
  cases hexec.symm.trans hexec'
  exact hinv

/-- Hardware reset leaves a good state, and reads no response (R98; log entry 14). -/
theorem State.Inv.of_hardReset (h : s.Inv) : (hardReset s).Inv := by
  have := h.init.withRs (v := 0x00) rfl
  exact ⟨this.cfgWf, this.readLt, this.writeLt, this.offLt, this.occLe, this.idxLength, this.idxFits, this.liveLen, this.occSum,
    this.tiling, this.arenaWf, this.arenaIn, this.liveWritten, this.rsLegal⟩

/-- Settles O12: a step holds the state, resets the block, or runs one instruction, which keeps the invariants. -/
theorem stepKeepsTheInvariants : Obligations.StepKeepsTheInvariants := by
  intro s t h hstep
  rcases step_cases hstep with ⟨-, rfl⟩ | ⟨rest, -, rfl⟩ | ⟨i, rest, -, hexec⟩
  · exact h
  · exact (h.withPort rest).of_hardReset
  · exact (h.withPort rest).of_exec hexec

/-- Settles O14: a step faults only where an instruction does, and in a good state each one completes. -/
theorem stepNeverFaultsInAGoodState : Obligations.StepNeverFaultsInAGoodState := by
  intro s f h hstep
  obtain ⟨i, rest, -, hfault⟩ := step_fault_cases hstep
  obtain ⟨t, _, hnext, -⟩ := everyInstructionCompletesInAGoodState i _ (h.withPort rest)
  cases hfault.symm.trans hnext

end Sys2Proof.Machine

/-! PROOFS. What no instruction reads (spec/10_state.md R20, R22) and what each may write. -/

namespace Sys2Proof.Machine

variable {s t : State}

/-! ### Stale contents (R22 (a)) -/

namespace State.SameLive

/-- Responses are no part of it (R20). -/
theorem withResp (h : s.SameLive t) (r q : Response) : (s.withResp r).SameLive (t.withResp q) :=
  ⟨h.cfg, h.readPos, h.writePos, h.bufOff, h.bufLen, h.rs, h.port, h.liveEntries, h.liveBytes⟩

theorem withRs (h : s.SameLive t) (v : Byte) : (s.withRs v).SameLive (t.withRs v) :=
  ⟨h.cfg, h.readPos, h.writePos, h.bufOff, h.bufLen, rfl, h.port, h.liveEntries, h.liveBytes⟩

theorem count (h : s.SameLive t) : s.count = t.count := by
  rw [← State.liveEntries_length, h.liveEntries, State.liveEntries_length]

theorem isFull (h : s.SameLive t) : s.isFull = t.isFull := by
  simp only [State.isFull, h.writePos, h.readPos, h.cfg]

theorem bufEnd (h : s.SameLive t) : s.bufEnd = t.bufEnd := by
  simp only [State.bufEnd, h.bufOff, h.bufLen, h.cfg]

/-- Live packets lie in the live window, where the arenas agree. -/
theorem packets (h : s.SameLive t) (hs : s.Inv) : s.packets = t.packets := by
  rw [State.packets, State.packets, ← h.liveEntries]
  refine List.map_congr_left fun e he => ?_
  obtain ⟨k, hoff, hle⟩ := tiles_mem _ _ hs.offLt hs.tiling e he
  rw [← hs.occSum] at hle
  have hread : memRead s.cfg.arenaCap s.arena e.off e.len = memRead s.cfg.arenaCap t.arena e.off e.len := by
    refine memRead_congr _ _ fun i hi => ?_
    have hbyte := h.liveBytes (k + i) (by omega)
    rwa [← h.bufOff, ← h.cfg, ← Nat.add_assoc, ← Nat.mod_add_mod, ← hoff] at hbyte
  simp only [State.packetAt, hread, ← h.cfg]

theorem roomAfter_iff (h : s.SameLive t) (hs : s.Inv) (k len : Nat) : s.RoomAfter k len ↔ t.RoomAfter k len := by
  simp only [State.RoomAfter, h.packets hs, h.cfg]

theorem initCursors (h : s.SameLive t) : s.initCursors.SameLive t.initCursors := by
  have hlive : ∀ u : State, u.initCursors.liveEntries = [] := fun u =>
    List.eq_nil_of_length_eq_zero (by rw [State.liveEntries_length, State.initCursors_count])
  exact ⟨h.cfg, rfl, rfl, rfl, rfl, h.rs, h.port, by rw [hlive, hlive], fun i hi => absurd hi (Nat.not_lt_zero i)⟩

theorem head (h : s.SameLive t) (hs : s.Inv) (ht : t.Inv) (hc : 0 < s.count) :
    s.entry s.readPos = t.entry t.readPos ∧ s.retireOldest.liveEntries = t.retireOldest.liveEntries :=
  List.cons.inj (((hs.live_eq_cons hc).symm.trans h.liveEntries).trans (ht.live_eq_cons (h.count ▸ hc)))

theorem retireOldest (h : s.SameLive t) (hs : s.Inv) (ht : t.Inv) (hc : 0 < s.count) :
    s.retireOldest.SameLive t.retireOldest := by
  obtain ⟨hhead, hrest⟩ := h.head hs ht hc
  have hlen := hs.bufLen_cons hc
  refine ⟨h.cfg, ?_, h.writePos, ?_, ?_, h.rs, h.port, hrest, fun i hi => ?_⟩
  · simp only [State.retireOldest_readPos, h.readPos, h.cfg]
  · simp only [State.retireOldest_bufOff, hhead, h.bufOff, h.cfg]
  · simp only [State.retireOldest_bufLen, hhead, h.bufLen]
  · simp only [State.retireOldest_bufLen] at hi
    simp only [State.retireOldest_arena, State.retireOldest_bufOff, State.retireOldest_cfg, ← hhead, Nat.mod_add_mod, Nat.add_assoc]
    exact h.liveBytes _ (by omega)

theorem iterate_retireOldest (h : s.SameLive t) (hs : s.Inv) (ht : t.Inv) {k : Nat} (hk : k ≤ s.count) :
    (State.retireOldest^[k] s).SameLive (State.retireOldest^[k] t) := by
  induction k generalizing s t with
  | zero => exact h
  | succ k ih =>
    have hc : 0 < s.count := by omega
    have hc' : 0 < t.count := h.count ▸ hc
    have hrest := State.count_retireOldest hs.readLt hs.writeLt hc
    exact ih (h.retireOldest hs ht hc) (hs.retireOldest hc) (ht.retireOldest hc') (by omega)

/-- The bytes appended are the same, and the window they extend stays. -/
theorem appendPacket (h : s.SameLive t) (hs : s.Inv) (ht : t.Inv) {d : List Byte} (hfull : s.isFull = false)
    (hroom : s.bufLen + d.length ≤ s.cfg.arenaCap) : (s.appendPacket d).SameLive (t.appendPacket d) := by
  have hlive := State.liveEntries_appendPacket d hs.readLt hs.writeLt hs.idxLength hfull
  have hlive' := State.liveEntries_appendPacket d ht.readLt ht.writeLt ht.idxLength (h.isFull ▸ hfull)
  refine ⟨h.cfg, h.readPos, ?_, h.bufOff, ?_, h.rs, h.port, ?_, fun i hi => ?_⟩
  · simp only [State.appendPacket_writePos, h.writePos, h.cfg]
  · simp only [State.appendPacket_bufLen, h.bufLen]
  · rw [hlive, hlive', h.liveEntries, h.bufEnd]
  · simp only [State.appendPacket_bufLen] at hi
    simp only [State.appendPacket_arena, State.appendPacket_bufOff, State.appendPacket_cfg, ← h.cfg, ← h.bufEnd, ← h.bufOff]
    by_cases hib : i < s.bufLen
    · have hne := fun j hj => hs.live_ne_tail hroom hib (j := j) hj
      have hbyte := h.liveBytes i hib
      rw [← h.bufOff, ← h.cfg] at hbyte
      rw [read_memWrite_other _ _ _ hne, read_memWrite_other _ _ _ hne, hbyte]
    · have hpos : (s.bufOff + i) % s.cfg.arenaCap = (s.bufEnd + (i - s.bufLen)) % s.cfg.arenaCap := by
        rw [State.bufEnd, Nat.mod_add_mod, Nat.add_assoc, Nat.add_sub_cancel' (by omega)]
      rw [hpos, read_memWrite_at d _ _ _ (by omega) (by omega), read_memWrite_at d _ _ _ (by omega) (by omega)]

end State.SameLive

/-- The evictions of a push are the fewest that make room, so their number is one. -/
theorem Pushed.evicted_unique {s' t' : State} {d : List Byte} {k n : Nat} (hk : Pushed s d k s') (hn : Pushed t d n t')
    (hroom : ∀ j, s.RoomAfter j d.length ↔ t.RoomAfter j d.length) : k = n :=
  Nat.le_antisymm (Nat.not_lt.1 fun h => hk.least n h ((hroom n).2 hn.room))
    (Nat.not_lt.1 fun h => hn.least k h ((hroom k).1 hk.room))

theorem State.SameLive.exec_cpbPush (h : s.SameLive t) (hs : s.Inv) (ht : t.Inv) (d : List Byte) :
    ∃ s' t', exec (.cpbPush d) s = .next s' ∧ exec (.cpbPush d) t = .next t' ∧ s'.resp = t'.resp ∧ s'.SameLive t' := by
  by_cases hout : d.length = 0 ∨ s.cfg.arenaCap < d.length
  · exact ⟨_, _, exec_cpbPush_of_length_outside hout, exec_cpbPush_of_length_outside (h.cfg ▸ hout), rfl, h.withResp _ _⟩
  · have hcap : d.length ≤ s.cfg.arenaCap := by omega
    obtain ⟨k, s', hexec, hpushed⟩ := hs.exec_cpbPush (d := d) (by omega) hcap
    obtain ⟨n, t', hexec', hpushed'⟩ := ht.exec_cpbPush (d := d) (by omega) (h.cfg ▸ hcap)
    obtain rfl := hpushed.evicted_unique hpushed' (h.roomAfter_iff hs · d.length)
    refine ⟨s', t', hexec, hexec', by rw [hpushed.eq, hpushed'.eq]; rfl, ?_⟩
    rw [hpushed.eq, hpushed'.eq]
    exact ((h.iterate_retireOldest hs ht hpushed.le).appendPacket (hs.evictedTo hpushed.le).inv (ht.evictedTo hpushed'.le).inv
      hpushed.free hpushed.fits).withResp _ _

theorem State.SameLive.exec_cpbPop (h : s.SameLive t) (hs : s.Inv) (ht : t.Inv) (cap : Nat) :
    ∃ s' t', exec (.cpbPop cap) s = .next s' ∧ exec (.cpbPop cap) t = .next t' ∧ s'.resp = t'.resp ∧ s'.SameLive t' := by
  have hpackets := h.packets hs
  rcases hs.exec_cpbPop_cases cap with ⟨hnil, hexec⟩ | ⟨p, ps, hcons, -, -, hexec⟩
  · obtain ⟨-, hexec'⟩ | ⟨p, ps, hcons', -⟩ := ht.exec_cpbPop_cases cap
    · exact ⟨_, _, hexec, hexec', rfl, h.withResp _ _⟩
    · rw [← hpackets, hnil] at hcons'
      cases hcons'
  · exact ⟨_, _, hexec, ht.exec_cpbPop cap (hpackets ▸ hcons), rfl,
      (h.retireOldest hs ht (State.count_pos_of_packets hcons)).withResp _ _⟩

/-- Settles O18: the buffer's operations read the live entries and the live bytes alone, and the other instructions the status
values, `RS` and the count. -/
theorem staleContentsNeverShow : Obligations.StaleContentsNeverShow := by
  intro i s t hs ht h
  cases instr_cases i with
  | init => exact ⟨_, _, exec_cpbInit s, exec_cpbInit t, rfl, h.initCursors.withResp _ _⟩
  | push d => exact h.exec_cpbPush hs ht d
  | pop cap => exact h.exec_cpbPop hs ht cap
  | rs hi =>
    obtain ⟨-, rs, r, -, hexec⟩ := hi
    refine ⟨_, _, hexec s, hexec t, ?_, ?_⟩ <;> rw [h.cfg, h.rs]
    · rfl
    · exact (h.withRs _).withResp _ _
  | answer hi =>
    obtain ⟨r, hexec⟩ := hi
    refine ⟨_, _, hexec s, hexec t, ?_, h.withResp _ _⟩
    rw [h.cfg, h.count]
    rfl

/-! ### What an instruction writes and reads -/

/-- Settles O15: the shape of an instruction says what it writes. -/
theorem whoWritesWhat : Obligations.WhoWritesWhat := by
  intro i s t hexec
  cases instr_cases i with
  | init =>
    cases hexec
    simp
  | push d =>
    rcases exec_cpbPush_cases hexec with rfl | ⟨n, ev, rfl⟩
    · simp
    · obtain ⟨hcfg, -, -, -, hrs, -, hport⟩ := iterate_retireOldest_frame s n
      simp [hcfg, hrs, hport]
  | pop cap =>
    rcases exec_cpbPop_cases hexec with rfl | ⟨n, out, rfl⟩ <;> simp
  | rs hi =>
    obtain ⟨hw, rs, r, -, hi⟩ := hi
    cases (hi s).symm.trans hexec
    simp [hw]
  | answer hi =>
    obtain ⟨r, hi⟩ := hi
    cases (hi s).symm.trans hexec
    simp

/-- Settles O16: the event is taken from the port before the instruction runs, which writes neither port nor parameters. -/
theorem stepTakesOneEventAndKeepsTheParameters : Obligations.StepTakesOneEventAndKeepsTheParameters := by
  intro s t hstep
  rcases step_cases hstep with ⟨hp, rfl⟩ | ⟨rest, hp, rfl⟩ | ⟨i, rest, hp, hexec⟩
  · rw [hp]
    exact ⟨rfl, rfl⟩
  · rw [hp]
    exact ⟨rfl, rfl⟩
  · obtain ⟨-, -, -, -, -, hcfg, hport⟩ := whoWritesWhat i _ _ hexec
    have htail : s.port.tail = rest := by rcases hp with ⟨_, hp, -⟩ | hp <;> rw [hp, List.tail_cons]
    exact ⟨by rw [hport, htail]; rfl, hcfg⟩

@[simp] theorem State.withResp_retireOldest (s : State) (r : Response) :
    (s.withResp r).retireOldest = s.retireOldest.withResp r := rfl

/-- Making room reads no response. -/
theorem evictUntilFits_withResp (len k ev : Nat) (s : State) (r : Response) :
    evictUntilFits len k (s.withResp r) ev = (evictUntilFits len k s ev).map fun p => (p.1.withResp r, p.2) := by
  induction k generalizing s ev with
  | zero => by_cases hfit : s.bufLen + len ≤ s.cfg.arenaCap <;> simp [evictUntilFits, hfit]
  | succ k ih =>
    by_cases hfit : s.bufLen + len ≤ s.cfg.arenaCap
    · simp [evictUntilFits, hfit]
    · simpa [evictUntilFits, hfit] using ih (ev + 1) s.retireOldest

theorem makeRoom_withResp (len : Nat) (s : State) (r : Response) :
    (s.withResp r).makeRoom len = (s.makeRoom len).map fun p => (p.1.withResp r, p.2) := by
  have hevict : (s.withResp r).evictIfFull = (s.evictIfFull.1.withResp r, s.evictIfFull.2) := by
    cases hfull : s.isFull <;> simp only [State.evictIfFull, State.withResp_isFull, hfull] <;> rfl
  simp only [State.makeRoom, hevict, State.withResp_count, evictUntilFits_withResp]

/-- Settles O17: making room passes the old response on, and every answer replaces it. -/
theorem noInstructionReadsTheLastResponse : Obligations.NoInstructionReadsTheLastResponse := by
  intro i s r
  cases instr_cases i with
  | init => rfl
  | push d =>
    simp only [exec, execCpbPush, makeRoom_withResp, State.withResp_cfg]
    cases s.makeRoom d.length <;> rfl
  | pop cap => rfl
  | rs hi =>
    obtain ⟨-, rs, q, -, hexec⟩ := hi
    rw [hexec, hexec]
    rfl
  | answer hi =>
    obtain ⟨q, hexec⟩ := hi
    rw [hexec, hexec]
    rfl

end Sys2Proof.Machine

/-! PROOFS. What a step accepts and refuses (spec/20_memory.md R35, R36), and the state after reset and after the two resetting
operations (spec/70_reset_and_hazards.md R98 to R100). -/

namespace Sys2Proof.Machine

variable {s t : State}

/-! ### What a step accepts and refuses -/

/-- The widths of the command word suffice for its operands (R41). -/
theorem wfIn_of_wf {c : Config} {i : Instr} (hi : i.wf c.status = true) (hlen : 16 ≤ c.lenW) (hwc : 12 ≤ c.wcW) :
    i.wfIn c = true := by
  have hl : 2 ^ 16 ≤ 2 ^ c.lenW := Nat.pow_le_pow_right (by decide) hlen
  have hw : 2 ^ 12 ≤ 2 ^ c.wcW := Nat.pow_le_pow_right (by decide) hwc
  cases i with
  | cpbPush | cpbPop | frmNext | umpEncode => exact decide_eq_true (Nat.lt_of_lt_of_le (of_decide_eq_true hi) hl)
  | umpDecode =>
    obtain ⟨hwords, hcap⟩ := Bool.and_eq_true_iff.1 hi
    exact Bool.and_eq_true_iff.2 ⟨decide_eq_true (Nat.lt_of_lt_of_le (of_decide_eq_true hwords) hw),
      decide_eq_true (Nat.lt_of_lt_of_le (of_decide_eq_true hcap) hl)⟩
  | _ => exact hi

theorem step_of_operation {i : Instr} {rest : List PortEvent} (hp : s.port = .operation i :: rest) (hi : i.wfIn s.cfg = true) :
    step s = exec i (s.withPort rest) := by
  simp [step, fetch, hp, acceptFitting, hi]

/-- Settles O6: what is decoded is well formed, so it fits wherever the widths are those of the command word or greater. -/
theorem stepRunsTheDecodedInstruction : Obligations.StepRunsTheDecodedInstruction :=
  ⟨fun _ _ _ _ hp hd hi => step_of_present hp hd hi,
    fun _ _ _ _ hp hd hlen hwc => step_of_present hp hd (wfIn_of_wf (decode_wf hd) hlen hwc),
    fun _ _ _ hp hi => step_of_operation hp hi⟩

/-- Settles O7: an empty port is fetched as idle. -/
theorem idleStepHoldsTheState : Obligations.IdleStepHoldsTheState := by
  intro s hp
  simp [step, fetch, hp]

/-- No instruction is refused: only the port refuses. -/
theorem exec_ne_refused (i : Instr) (s : State) (r : Refusal) : exec i s ≠ .refused r := by
  cases instr_cases i with
  | init => simp [exec_cpbInit]
  | push d =>
    rw [exec, execCpbPush]
    split_ifs
    · simp
    · cases s.makeRoom d.length <;> simp
  | pop cap =>
    rw [exec, execCpbPop]
    split_ifs
    · simp
    · dsimp only
      cases memRead s.cfg.arenaCap s.arena (s.entry s.readPos).off (min cap (s.entry s.readPos).len) <;> simp
  | rs hi =>
    obtain ⟨-, rs, q, -, hexec⟩ := hi
    simp [hexec]
  | answer hi =>
    obtain ⟨q, hexec⟩ := hi
    simp [hexec]

/-- Settles O8: the step's cases, with the decoder's errors for the second. -/
theorem whatAStepRefuses : Obligations.WhatAStepRefuses := by
  intro s r
  constructor
  · intro h
    rcases step_eq s with ⟨-, e⟩ | ⟨_, -, e⟩ | ⟨t, u, rest, hp, e⟩ | ⟨t, rest, err, hp, hd, e⟩ | ⟨i, rest, hp, e⟩ <;> rw [h] at e
    · cases e
    · cases e
    · cases e
      exact .inl ⟨t, u, rest, hp, rfl⟩
    · cases e
      obtain ⟨w, bytes, words, rfl, hw, hsize⟩ := decode_eq_error_iff.1 hd
      exact .inr (.inl ⟨w, bytes, words, rest, hp, hw, by simpa using hsize⟩)
    · split_ifs at e with hi
      · exact absurd e.symm (exec_ne_refused i _ r)
      · cases e
        exact .inr (.inr ⟨i, rest, hp, Bool.eq_false_of_not_eq_true hi, rfl⟩)
  · rintro (⟨t, u, rest, hp, rfl⟩ | ⟨w, bytes, words, rest, hp, hw, hsize⟩ | ⟨i, rest, hp, hi, rfl⟩)
    · simp [step, fetch, hp]
    · have herr : ∀ e, decode s.cfg.status (.cmd32 w bytes words) = .error e → step s = .refused (.malformedTransaction e) := by
        intro e hd
        simp [step, fetch, hp, hd]
      rcases hsize with ⟨hb, rfl⟩ | ⟨hb, hws, rfl⟩
      · exact herr _ (decode_eq_error_iff.2 ⟨w, bytes, words, rfl, hw, .inl ⟨hb, rfl⟩⟩)
      · exact herr _ (decode_eq_error_iff.2 ⟨w, bytes, words, rfl, hw, .inr ⟨hb, hws, rfl⟩⟩)
    · rcases hp with ⟨t, hp, hd⟩ | hp <;> simp_all [step, fetch, acceptFitting]

/-! ### Widths and reset values -/

/-- Settles O19: the cursors by the invariants' bounds; what an entry can hold is one of them. -/
theorem registersFitTheirWidths : Obligations.RegistersFitTheirWidths := fun _ h =>
  ⟨Config.lt_two_pow_posW h.readLt, Config.lt_two_pow_posW h.writeLt, Config.lt_two_pow_offW h.offLt,
    Config.lt_two_pow_occW h.occLe, h.idxFits⟩

/-- Settles O10: reset sets every cursor to 0, and so are the quantities derived from them. -/
theorem resetValuesOfTheSpec : Obligations.ResetValuesOfTheSpec := by
  refine ⟨fun c => ⟨rfl, rfl, rfl, rfl, rfl, rfl, ?_, ?_⟩, rfl⟩
  · simp [State.count, State.resetWith]
  · simp [State.bufEnd, State.resetWith]

/-- The state after reset with any contents of the two memories: the cursors are 0 already. -/
theorem resetWith_inv {c : Config} {ring : List IdxEntry} {bytes : Memory} (hc : c.wf = true) (hring : ring.length = c.indexSlots)
    (hfit : ∀ e ∈ ring, e.off < 2 ^ c.offW ∧ e.len < 2 ^ c.occW) (hwf : Memory.wf bytes = true)
    (hin : ∀ b ∈ bytes, b.1 < c.arenaCap) : { State.resetWith c with idx := ring, arena := bytes }.Inv :=
  State.Inv.initCursors (s := { State.resetWith c with idx := ring, arena := bytes }) hc hring hfit hwf hin rfl

/-- Settles O11: the defaults are admissible, and a ring of (0, 0) and an unwritten arena are contents like any other. -/
theorem resetIsGood : Obligations.ResetIsGood := by
  refine ⟨?_, fun c ring bytes => resetWith_inv⟩
  refine resetWith_inv (c := Config.default) (by decide) List.length_replicate (fun e he => ?_) rfl (fun b hb => nomatch hb)
  rw [List.eq_of_mem_replicate he]
  exact ⟨Nat.two_pow_pos _, Nat.two_pow_pos _⟩

/-- No packet is live where the count is 0. -/
theorem State.packets_eq_nil (h : s.count = 0) : s.packets = [] :=
  List.eq_nil_of_length_eq_zero (s.packets_length.trans h)

/-- Settles O21: both orders end in the same cursors and `RS`, and only the memories' form is kept from before. -/
theorem initAndFramerResetMakeAnyStateGood : Obligations.InitAndFramerResetMakeAnyStateGood := by
  intro s hcfg hidx hfit hwf hin
  have hinv : (s.withRs 0x00).initCursors.Inv := State.Inv.initCursors (s := s.withRs 0x00) hcfg hidx hfit hwf hin rfl
  have hnil : (s.withRs 0x00).initCursors.packets = [] := State.packets_eq_nil (State.initCursors_count _)
  exact ⟨⟨_, _, exec_cpbInit s, exec_frmReset _, hinv.withResp _, hnil, rfl⟩,
    ⟨_, _, exec_frmReset s, exec_cpbInit _, hinv.withResp _, hnil, rfl⟩⟩

end Sys2Proof.Machine

/-! PROOFS. The Circular Packet Buffer (spec/40_cpb.md R58, R62; spec/10_state.md R23): what a push stores and where, and runs of
pushes and pops. -/

namespace Sys2Proof.Machine

variable {s t : State} {d : List Byte} {k : Nat}

/-! ### `CPB.PUSH` with room (R58 step 3) -/

theorem evictUntilFits_of_fits {len n ev : Nat} (h : s.bufLen + len ≤ s.cfg.arenaCap) :
    evictUntilFits len n s ev = some (s, ev) := by
  cases n <;> simp [evictUntilFits, h]

/-- Settles O24: neither loop of making room turns, so only the append is left. -/
theorem pushWithRoomEvictsNothing : Obligations.PushWithRoomEvictsNothing := by
  intro d s hd hslot hfit
  have hfree : s.isFull = false := beq_eq_false_iff_ne.2 hslot
  have hin : ¬ (d.length = 0 ∨ s.cfg.arenaCap < d.length) := by omega
  have hroom : s.makeRoom d.length = some (s, 0) := by
    simp only [State.makeRoom, State.evictIfFull, hfree, Bool.false_eq_true, if_false, evictUntilFits_of_fits hfit]
  rw [exec, execCpbPush, if_neg hin, hroom]
  rfl

/-! ### What a push leaves (R58) -/

theorem Pushed.cfg (h : Pushed s d k t) : t.cfg = s.cfg := by
  rw [h.eq, State.withResp_cfg, State.appendPacket_cfg, (iterate_retireOldest_frame s k).1]

theorem Pushed.resp (h : Pushed s d k t) : t.resp = some (.cpbPush k false) := by
  rw [h.eq, State.withResp_resp]

theorem Pushed.rs (h : Pushed s d k t) : t.rs = s.rs := by
  obtain ⟨-, -, -, -, hrs, -⟩ := iterate_retireOldest_frame s k
  rw [h.eq, State.withResp_rs, State.appendPacket_rs, hrs]

/-- Settles O25: what making room guarantees, in terms of the packets. -/
theorem pushEvictsTheFewestOldestAndAppends : Obligations.PushEvictsTheFewestOldestAndAppends := by
  intro d s h hd hcap
  obtain ⟨k, t, hexec, hpushed⟩ := h.exec_cpbPush hd hcap
  exact ⟨k, t, hexec, hpushed.resp, hpushed.packets, s.packets_length ▸ hpushed.le, hpushed.room, hpushed.least⟩

/-- Where `k` evictions leave the two cursors of the oldest packet (R56). -/
theorem State.Inv.iterate_retireOldest_cursors (h : s.Inv) (hk : k ≤ s.count) :
    (State.retireOldest^[k] s).readPos = (s.readPos + k) % s.cfg.indexSlots ∧
    (State.retireOldest^[k] s).bufOff = (s.bufOff + ((s.packets.take k).map List.length).sum) % s.cfg.arenaCap := by
  induction k generalizing s with
  | zero => simp [Nat.mod_eq_of_lt h.readLt, Nat.mod_eq_of_lt h.offLt]
  | succ k ih =>
    have hc : 0 < s.count := by omega
    have hrest := State.count_retireOldest h.readLt h.writeLt hc
    obtain ⟨hread, hoff⟩ := ih (h.retireOldest hc) (by omega)
    have hlen := h.packetAt_length (h.head_mem hc)
    rw [Function.iterate_succ_apply, hread, hoff, h.packets_eq_cons hc, List.take_succ_cons, List.map_cons, List.sum_cons, hlen]
    simp only [State.retireOldest_readPos, State.retireOldest_bufOff, State.retireOldest_cfg, Nat.mod_add_mod]
    exact ⟨congrArg (· % _) (by omega), congrArg (· % _) (by omega)⟩

/-- Settles O26: the evictions move the read side's cursors and nothing else, and the append is `MemWrite` at the place that no
eviction moves. -/
theorem pushCursorsStoresAndFrame : Obligations.PushCursorsStoresAndFrame := by
  intro d s h hd hcap
  obtain ⟨k, t, hexec, hpushed⟩ := h.exec_cpbPush hd hcap
  obtain ⟨hcfg, hwrite, hidx, harena, hrs, -, hport⟩ := iterate_retireOldest_frame s k
  obtain ⟨hread, hoff⟩ := h.iterate_retireOldest_cursors hpushed.le
  have hevict := h.evictedTo hpushed.le
  have hlen := hevict.inv.bufLen_eq
  rw [hevict.packets] at hlen
  refine ⟨k, t, hexec, hpushed.resp, ?_⟩
  rw [hpushed.eq]
  simp only [State.withResp_readPos, State.withResp_writePos, State.withResp_bufOff, State.withResp_bufLen, State.withResp_arena,
    State.withResp_idx, State.withResp_rs, State.withResp_cfg, State.withResp_port, State.appendPacket_readPos,
    State.appendPacket_writePos, State.appendPacket_bufOff, State.appendPacket_bufLen, State.appendPacket_arena,
    State.appendPacket_idx, State.appendPacket_rs, State.appendPacket_cfg, State.appendPacket_port, hevict.bufEnd, hcfg, hwrite,
    hidx, harena, hrs, hport]
  exact ⟨hread, trivial, hoff, by rw [hlen], fun i hi => read_memWrite_at d _ _ i hcap hi,
    fun a ha => read_memWrite_other d _ _ ha, trivial, trivial, trivial, trivial⟩

/-- With room at hand a push evicts nothing. -/
theorem State.Inv.exec_cpbPush_of_room (h : s.Inv) (hd : 1 ≤ d.length) (hslot : s.packets.length < s.cfg.pktMax)
    (hfit : (s.packets.map List.length).sum + d.length ≤ s.cfg.arenaCap) : ∃ t, exec (.cpbPush d) s = .next t ∧ Pushed s d 0 t := by
  obtain ⟨k, t, hexec, hpushed⟩ := h.exec_cpbPush hd (by omega)
  obtain rfl : k = 0 := by
    by_contra hk
    exact hpushed.least 0 (by omega) ⟨hslot, hfit⟩
  exact ⟨t, hexec, hpushed⟩

/-! ### Runs -/

theorem issueAll_cons {i : Instr} {is : List Instr} {rs : List (Option Response)} {u : State} (hi : exec i s = .next t)
    (his : issueAll is t = .next (rs, u)) : issueAll (i :: is) s = .next (t.resp :: rs, u) := by
  simp only [issueAll, hi, his]

theorem issueAll_append {is js : List Instr} {qs rs : List (Option Response)} {u : State} (his : issueAll is s = .next (qs, t))
    (hjs : issueAll js t = .next (rs, u)) : issueAll (is ++ js) s = .next (qs ++ rs, u) := by
  induction is generalizing s qs with
  | nil =>
    cases his
    exact hjs
  | cons i is ih =>
    rw [issueAll] at his
    cases hi : exec i s with
    | next s1 =>
      rw [hi] at his
      dsimp only at his
      cases hrest : issueAll is s1 with
      | next p =>
        rw [hrest] at his
        cases his
        exact issueAll_cons hi (ih hrest)
      | fault f => simp [hrest] at his
      | refused r => simp [hrest] at his
    | fault f => simp [hi] at his
    | refused r => simp [hi] at his

/-- Packets that there is room for are all pushed, behind those there are (R62 (a)). -/
theorem State.Inv.issueAll_push (h : s.Inv) (ps : List (List Byte)) (hps : ∀ p ∈ ps, 1 ≤ p.length)
    (hslots : s.packets.length + ps.length ≤ s.cfg.pktMax)
    (hfit : (s.packets.map List.length).sum + (ps.map List.length).sum ≤ s.cfg.arenaCap) :
    ∃ t, issueAll (ps.map Instr.cpbPush) s = .next (ps.map (fun _ => some (.cpbPush 0 false)), t) ∧ t.Inv ∧
      t.packets = s.packets ++ ps := by
  induction ps generalizing s with
  | nil => exact ⟨s, rfl, h, (List.append_nil _).symm⟩
  | cons p ps ih =>
    simp only [List.length_cons, List.map_cons, List.sum_cons] at hslots hfit
    obtain ⟨hp, hps⟩ := List.forall_mem_cons.1 hps
    obtain ⟨t, hexec, hpushed⟩ := h.exec_cpbPush_of_room hp (by omega) (by omega)
    have hpackets : t.packets = s.packets ++ [p] := hpushed.packets
    obtain ⟨u, hrun, hinv, hu⟩ := ih hpushed.inv hps
      (by rw [hpackets, hpushed.cfg, List.length_append, List.length_singleton]; omega)
      (by rw [hpackets, hpushed.cfg, List.map_append, List.sum_append, List.map_singleton, List.sum_singleton]; omega)
    have hall := issueAll_cons hexec hrun
    rw [hpushed.resp] at hall
    refine ⟨u, hall, hinv, ?_⟩
    rw [hu, hpackets, List.append_assoc, List.singleton_append]

/-- Packets are popped oldest first, each whole by a capacity that suffices (R62 (a)). -/
theorem State.Inv.issueAll_pop (h : s.Inv) {ps : List (List Byte)} {caps : List Nat} (hps : s.packets = ps)
    (hcaps : List.Forall₂ (fun p cap => p.length ≤ cap) ps caps) :
    ∃ t, issueAll (caps.map Instr.cpbPop) s = .next (ps.map (fun p => some (.cpbPop p.length p)), t) ∧ t.packets = [] := by
  induction hcaps generalizing s with
  | nil => exact ⟨s, rfl, hps⟩
  | @cons p cap ps caps hcap _ ih =>
    have hexec := h.exec_cpbPop cap hps
    rw [Nat.min_eq_right hcap, List.take_of_length_le hcap] at hexec
    have hrest := ((h.retireOldest (State.count_pos_of_packets hps)).withResp (.cpbPop p.length p))
    obtain ⟨u, hrun, hu⟩ := ih hrest (h.packets_cons_parts hps).2
    exact ⟨u, issueAll_cons hexec hrun, hu⟩

/-- Settles O29: the pushes, then the pops. -/
theorem fifoDeliversEverythingInOrder : Obligations.FifoDeliversEverythingInOrder := by
  intro s ps caps h hnil hps hfit hslots hcaps
  obtain ⟨t, hpush, hinv, ht⟩ := h.issueAll_push ps hps (by rw [hnil]; simpa using hslots) (by rw [hnil]; simpa using hfit)
  obtain ⟨u, hpop, hu⟩ := hinv.issueAll_pop (by rw [ht, hnil]; rfl) hcaps
  exact ⟨u, issueAll_append hpush hpop, hu⟩

/-- Settles O30: no room without an eviction, since the ring is full, and room with one. -/
theorem oneMoreThanTheRingEvictsTheOldest : Obligations.OneMoreThanTheRingEvictsTheOldest := by
  intro s d q cap h hfull hd hfit hq
  have hslots := h.slotsGe
  have hmax : s.cfg.pktMax = s.cfg.indexSlots - 1 := rfl
  have hroom : s.RoomAfter 1 d.length := ⟨by omega, hfit⟩
  obtain ⟨k, t, hexec, hpushed⟩ := h.exec_cpbPush hd (by omega)
  obtain rfl : k = 1 := by
    rcases Nat.lt_trichotomy k 1 with hk | hk | hk
    · have := hpushed.room.1
      omega
    · exact hk
    · exact absurd hroom (hpushed.least 1 hk)
  obtain ⟨ps, hps⟩ := List.head?_eq_some_iff.1 hq
  refine ⟨t, _, hexec, hpushed.resp, ?_, hpushed.inv.exec_cpbPop cap (hpushed.packets.trans hps), rfl⟩
  rw [← t.packets_length, ← s.packets_length, hpushed.packets, List.length_append, List.length_drop, List.length_singleton]
  omega

/-- Settles O31: the first pop retires the packet in full, whatever it delivers. -/
theorem truncatedPopLosesTheRest : Obligations.TruncatedPopLosesTheRest := by
  intro s p q ps c1 c2 h hps hc1
  have hexec := h.exec_cpbPop c1 hps
  rw [Nat.min_eq_left (by omega)] at hexec
  have hrest := (h.retireOldest (State.count_pos_of_packets hps)).withResp (.cpbPop c1 (p.take c1))
  exact ⟨_, _, _, hexec, rfl, rfl, by rw [List.length_take]; omega, hrest.exec_cpbPop c2 (h.packets_cons_parts hps).2, rfl⟩

/-- Settles O32: from an empty buffer the packet is the only one, and it is read back as it was written, crossing or not. -/
theorem wrappingPacketComesBackUnsplit : Obligations.WrappingPacketComesBackUnsplit := by
  intro s d cap h hnil hcap hwrap hle
  have hoff := h.offLt
  obtain ⟨k, t, hexec, hpushed⟩ := h.exec_cpbPush (d := d) (by omega) hcap
  have ht : t.packets = [d] := by rw [hpushed.packets, hnil, List.drop_nil, List.nil_append]
  refine ⟨t, _, hexec, hpushed.inv.exec_cpbPop cap ht, ?_⟩
  rw [State.withResp_resp, Nat.min_eq_right hle, List.take_of_length_le hle]

/-- Settles O33: a live packet has a byte, so a capacity of 1 takes one. -/
theorem zeroBytesPoppedMeansEmptyUnlessCapacityIsZero : Obligations.ZeroBytesPoppedMeansEmptyUnlessCapacityIsZero := by
  intro cap s h
  rcases h.exec_cpbPop_cases cap with ⟨hnil, hexec⟩ | ⟨p, ps, hcons, -, hrest, hexec⟩
  · exact ⟨_, _, _, hexec, rfl, by simp [hnil], fun _ => by simp [hnil], fun _ => rfl⟩
  · have hp := h.packet_pos p (hcons ▸ List.mem_cons_self)
    refine ⟨_, _, _, hexec, rfl, by simp [hcons, hrest], fun hcap => ?_, fun hcap => by omega⟩
    simp only [hcons, reduceCtorEq, iff_false]
    omega

/-- Settles O34: the invariants, read over the packets. -/
theorem livePacketsAreBounded : Obligations.LivePacketsAreBounded := by
  intro s h
  have hcount := h.count_lt
  have hle := h.count_le_bufLen
  have hocc := h.occLe
  have hpos := h.bufLen_pos_iff
  have hnil : s.packets = [] ↔ s.count = 0 := by rw [← s.packets_length, List.length_eq_zero_iff]
  have hempty := h.isEmpty_iff
  rw [State.isEmpty, beq_iff_eq] at hempty
  refine ⟨?_, h.bufLen_eq, hocc, ?_, hempty.trans hnil.symm⟩
  · rw [s.packets_length, Config.pktMax]
    omega
  · rw [hnil]
    omega

end Sys2Proof.Machine

/-! PROOFS. The Message Framer (spec/41_framer.md): the length of a message by the class of its status, what `FRM.NEXT` frames in
each case, and that the framer writes `RS` alone. -/

namespace Sys2Proof.Machine

variable {s : State} {v : StatusTable} {rs b st : Byte} {t m : List Byte}

/-! ### The length of a message (R67) -/

theorem msgLen_data (v : StatusTable) (h : st.toNat < 0x80) : msgLen v st = ⟨false, 0⟩ := by
  simp [msgLen, isData_eq, h]

/-- No system status is a data byte or of a channel-voice kind, so its length is by its own value. -/
theorem msgLen_system (v : StatusTable) (h : 0xF0 ≤ st.toNat) :
    msgLen v st = ⟨true, if st = statusSysex then 0 else if st = v.quarterFrame ∨ st = v.songSelect then 2
      else if st = v.songPosition then 3 else 1⟩ := by
  have key : ∀ st : Byte, 0xF0 ≤ st.toNat → isData st = false ∧ ¬ (hiNibble st = kindPC ∨ hiNibble st = kindCP) ∧ ¬ st < 0xF0 := by
    decide
  obtain ⟨hdata, hkind, hsys⟩ := key st h
  simp only [msgLen, hdata, hkind, hsys, if_false, Bool.false_eq_true]
  split_ifs <;> rfl

theorem msgLen_sysex (v : StatusTable) : msgLen v statusSysex = ⟨true, 0⟩ := by
  rw [msgLen_system v (by decide), if_pos rfl]

/-- Any system status but system exclusive's start and the three of U1 stands alone (R67). -/
theorem msgLen_systemOther (h : 0xF1 ≤ st.toNat) (hq : st ≠ v.quarterFrame) (hp : st ≠ v.songPosition) (hs : st ≠ v.songSelect) :
    msgLen v st = ⟨true, 1⟩ := by
  have hx : st ≠ statusSysex := by
    rintro rfl
    exact absurd h (by decide)
  simp [msgLen_system v (by omega : 0xF0 ≤ st.toNat), hx, hq, hp, hs]

/-- `FRM.MSGLEN` answers what `msgLen` computes. -/
theorem exec_frmMsglen_of_msgLen {valid : Bool} {len : Nat} (h : msgLen s.cfg.status st = ⟨valid, len⟩) :
    exec (.frmMsglen st) s = .next (s.withResp (.frmMsglen valid len)) := by
  simp only [exec, execFrmMsglen, h, answer]

/-- Settles O37: `msgLen` by the class of the status. -/
theorem messageLengthByStatus : Obligations.MessageLengthByStatus := by
  rintro st s v rfl hv
  obtain ⟨hq, hp, hs⟩ := msgLen_named hv
  refine ⟨fun h => exec_frmMsglen_of_msgLen (msgLen_data _ h), fun h h' => exec_frmMsglen_of_msgLen ?_,
    fun h h' => exec_frmMsglen_of_msgLen ?_, fun h h' => exec_frmMsglen_of_msgLen ?_, fun h => exec_frmMsglen_of_msgLen ?_,
    fun h => exec_frmMsglen_of_msgLen ?_, fun h => exec_frmMsglen_of_msgLen (h ▸ hp),
    fun h nq np ns => exec_frmMsglen_of_msgLen (msgLen_systemOther h nq np ns)⟩
  · rw [msgLen_channelVoice _ h (by omega), if_neg (by omega)]
  · rw [msgLen_channelVoice _ (by omega) (by omega), if_pos (by omega)]
  · rw [msgLen_channelVoice _ (by omega) h', if_neg (by omega)]
  · obtain rfl : st = statusSysex := BitVec.eq_of_toNat_eq h
    exact msgLen_sysex _
  · rcases h with rfl | rfl
    · exact hq
    · exact hs

/-! ### One message (R68) -/

/-- A status byte other than system exclusive's start frames as many bytes as it says. -/
theorem frameNext_status (v : StatusTable) (rs : Byte) (t : List Byte) (h : 0x80 ≤ b.toNat) (hb : b ≠ statusSysex) :
    frameNext v rs (b :: t) = if t.length + 1 < (msgLen v b).len then ⟨.incomplete, 0, [], (resolve rs b).rs⟩
      else ⟨.ok, (msgLen v b).len, (b :: t).take (msgLen v b).len, (resolve rs b).rs⟩ := by
  have hle : 0x80#8 ≤ b := h
  simp [frameNext, resolve_status rs h, hb, hle]

/-- A data byte under a running status frames one byte less than the status says, the status put in front. -/
theorem frameNext_running (v : StatusTable) (t : List Byte) (h : b.toNat < 0x80) (hrs : rs ≠ 0x00#8) (hlegal : legalRs rs = true) :
    frameNext v rs (b :: t) = if t.length + 2 < (msgLen v rs).len then ⟨.incomplete, 0, [], rs⟩
      else ⟨.ok, (msgLen v rs).len - 1, rs :: (b :: t).take ((msgLen v rs).len - 1), rs⟩ := by
  obtain ⟨-, hvoice, -, hlen, -⟩ := msgLen_of_legal v hlegal hrs
  have hres : resolve rs b = ⟨true, rs, rs⟩ := (resolve_data rs h).trans (if_neg hrs)
  have hsysex : rs ≠ statusSysex := by
    rintro rfl
    exact absurd hvoice (by decide)
  have hle : ¬ 0x80#8 ≤ b := Nat.not_le.2 h
  have hshort : (b :: t).length < (msgLen v rs).len - 1 ↔ t.length + 2 < (msgLen v rs).len := by
    rw [List.length_cons]
    omega
  simp only [frameNext, hres, hsysex, hle, hshort, if_false, Bool.true_eq_false]

/-- A data byte without a running status is lost (R66 case 4). -/
theorem frameNext_stray (v : StatusTable) (t : List Byte) (h : b.toNat < 0x80) :
    frameNext v 0x00#8 (b :: t) = ⟨.framingError, 1, [], 0x00#8⟩ := by
  simp [frameNext, resolve_data _ h]

/-- System exclusive that has no end yet. -/
theorem frameNext_sysex_open (v : StatusTable) (rs : Byte) (h : 0xF7 ∉ t) :
    frameNext v rs (0xF0 :: t) = ⟨.incomplete, 0, [], 0x00⟩ := by
  simp [frameNext, resolve_systemCommon, statusSysex, sysexEnd_none h]

/-- System exclusive up to its first `0xF7`. -/
theorem frameNext_sysex_closed (v : StatusTable) (rs : Byte) (t : List Byte) {u : List Byte} (h : 0xF7 ∉ u) :
    frameNext v rs (0xF0 :: (u ++ 0xF7 :: t)) = ⟨.ok, u.length + 2, 0xF0 :: (u ++ [0xF7]), 0x00⟩ := by
  have htake : (0xF0 :: (u ++ 0xF7 :: t)).take (u.length + 2) = 0xF0 :: (u ++ [0xF7]) := by
    simp [List.take_append, List.take_of_length_le]
  simpa [frameNext, resolve_systemCommon, statusSysex, sysexEnd_some t h] using htake

/-- `FRM.NEXT` answers what `frameNext` computes and writes `RS` alone. -/
theorem exec_frmNext (bs : List Byte) (s : State) :
    exec (.frmNext bs) s = .next ((s.withRs (frameNext s.cfg.status s.rs bs).rs).withResp
      (.frmNext (frameNext s.cfg.status s.rs bs).status (frameNext s.cfg.status s.rs bs).consumed
        (frameNext s.cfg.status s.rs bs).msg.length (frameNext s.cfg.status s.rs bs).msg)) := rfl

theorem exec_frmNext_of_frameNext {bs : List Byte} {status : FrmStatus} {consumed : Nat}
    (h : frameNext s.cfg.status s.rs bs = ⟨status, consumed, m, rs⟩) :
    exec (.frmNext bs) s = .next ((s.withRs rs).withResp (.frmNext status consumed m.length m)) := by
  rw [exec_frmNext, h]

/-- Settles O38: `frameNext` case by case. -/
theorem nextFramesOneMessage : Obligations.NextFramesOneMessage := by
  intro s
  refine ⟨rfl, fun b t hb hrs => ?_, fun t ht => exec_frmNext_of_frameNext (frameNext_sysex_open _ _ ht), fun u v hu => ?_,
    fun b t hb hsysex => ?_, fun b t hb hrs hlegal => ?_⟩
  · have hframe : frameNext s.cfg.status s.rs (b :: t) = ⟨.framingError, 1, [], s.rs⟩ := by
      rw [hrs]
      exact frameNext_stray _ t hb
    exact exec_frmNext_of_frameNext hframe
  · simpa using exec_frmNext_of_frameNext (s := s) (frameNext_sysex_closed _ _ v hu)
  · have hframe := frameNext_status s.cfg.status s.rs t hb hsysex
    rw [resolve_status _ hb] at hframe
    by_cases hshort : t.length + 1 < (msgLen s.cfg.status b).len
    · rw [if_pos hshort] at hframe ⊢
      exact exec_frmNext_of_frameNext hframe
    · have hlen : ((b :: t).take (msgLen s.cfg.status b).len).length = (msgLen s.cfg.status b).len := by
        rw [List.length_take, List.length_cons]
        omega
      rw [if_neg hshort] at hframe ⊢
      rw [exec_frmNext_of_frameNext hframe, hlen]
      rfl
  · have hframe := frameNext_running s.cfg.status t hb hrs hlegal
    obtain ⟨-, -, -, htwo, -⟩ := msgLen_of_legal s.cfg.status hlegal hrs
    by_cases hshort : t.length + 2 < (msgLen s.cfg.status s.rs).len
    · rw [if_pos hshort] at hframe ⊢
      exact exec_frmNext_of_frameNext hframe
    · have hlen : (s.rs :: (b :: t).take ((msgLen s.cfg.status s.rs).len - 1)).length = (msgLen s.cfg.status s.rs).len := by
        rw [List.length_cons, List.length_take, List.length_cons]
        omega
      rw [if_neg hshort] at hframe ⊢
      rw [exec_frmNext_of_frameNext hframe, hlen, State.withRs_self]

/-- Settles O39: none of the buffer's operations may write `RS`, and the other instructions write it, or what it was before, and
their response alone. -/
theorem framerTouchesOnlyRunningStatus : Obligations.FramerTouchesOnlyRunningStatus := by
  intro i s hi
  cases instr_cases i with
  | init | push | pop => cases hi
  | rs h =>
    obtain ⟨-, rs, r, -, hexec⟩ := h
    exact ⟨_, _, hexec s⟩
  | answer h =>
    obtain ⟨r, hexec⟩ := h
    exact ⟨s.rs, _, hexec s⟩

/-- Settles O40: the data byte leaves `RS` none, and a status byte is resolved whatever `RS` is. -/
theorem framingErrorRecovers : Obligations.FramingErrorRecovers := by
  intro s b c hrs hb hc
  have hlost : resolve s.rs b = ⟨false, 0x00, s.rs⟩ := (resolve_data _ hb).trans (if_pos hrs)
  refine ⟨_, _, exec_frmResolve_of_resolve hlost, by rw [State.withRs_self], exec_frmResolve_of_resolve (resolve_status _ hc), rfl,
    fun hvoice => ?_⟩
  rw [State.withResp_rs, State.withRs_rs, if_neg (by omega), if_neg (by omega)]

end Sys2Proof.Machine

/-! PROOFS. Streams of messages (spec/41_framer.md R69): framing as the inverse of leaving out running statuses. -/

namespace Sys2Proof.Machine

variable {s : State} {v : StatusTable} {rs b st : Byte} {d m tail : List Byte} {leaveOut : Bool}

/-! ### Messages of a stream (R47, R69) -/

/-- A well-formed message is system exclusive up to its first `0xF7`, or a status byte with as many data bytes as it asks for. -/
theorem wellFormedMessage_cases (h : wellFormedMessage v m = true) :
    (∃ u, m = 0xF0 :: (u ++ [0xF7]) ∧ 0xF7 ∉ u) ∨
    ∃ st d, m = st :: d ∧ st ≠ statusSysex ∧ 0x80 ≤ st.toNat ∧ d.length + 1 = (msgLen v st).len ∧ ∀ b ∈ d, b.toNat < 0x80 := by
  rcases m with _ | ⟨st, d⟩
  · cases h
  · rw [wellFormedMessage] at h
    split_ifs at h with hsysex
    · simp only [Bool.and_eq_true, beq_iff_eq, List.all_eq_true, bne_iff_ne] at h
      obtain ⟨hlast, hdata⟩ := h
      obtain ⟨u, rfl⟩ := List.getLast?_eq_some_iff.1 hlast
      rw [List.dropLast_concat] at hdata
      exact .inl ⟨u, by rw [hsysex]; rfl, fun hu => hdata _ hu rfl⟩
    · simp only [Bool.and_eq_true, beq_iff_eq, List.all_eq_true, isData_eq, decide_eq_true_eq] at h
      obtain ⟨⟨hvalid, hlen⟩, hdata⟩ := h
      refine .inr ⟨st, d, rfl, hsysex, ?_, hlen, hdata⟩
      by_contra hst
      rw [msgLen_data v (by omega)] at hvalid
      cases hvalid

/-- How a message stands in a stream: with its status byte, or without it, where it is the running status and of channel
voice. -/
theorem compress_singleton_cases (rs : Byte) (m : List Byte) (leaveOut : Bool) :
    compress rs [(m, leaveOut)] = m ∨
    ∃ d, m = rs :: d ∧ compress rs [(m, leaveOut)] = d ∧ 0x80 ≤ rs.toNat ∧ rs.toNat ≤ 0xEF := by
  rcases m with _ | ⟨st, d⟩
  · exact .inl rfl
  · simp only [compress, List.append_nil]
    split_ifs with h
    · simp only [Bool.and_eq_true, isChannelVoice_eq, decide_eq_true_eq, beq_iff_eq] at h
      obtain ⟨⟨-, hlow, hhigh⟩, rfl⟩ := h
      exact .inr ⟨d, rfl, rfl, hlow, hhigh⟩
    · exact .inl rfl

theorem compress_cons (rs : Byte) (m : List Byte) (leaveOut : Bool) (ms : List (List Byte × Bool)) (hm : m ≠ []) :
    compress rs ((m, leaveOut) :: ms) = compress rs [(m, leaveOut)] ++ compress (resolve rs (m.headD 0x00)).rs ms := by
  rcases m with _ | ⟨st, d⟩
  · exact absurd rfl hm
  · simp only [compress, List.append_nil, List.headD_cons]

theorem ne_nil_of_wellFormedMessage (h : wellFormedMessage v m = true) : m ≠ [] := by
  rintro rfl
  cases h

/-- A channel-voice message has at least one data byte. -/
theorem channelVoice_data (hm : wellFormedMessage v (st :: d) = true) (hlow : 0x80 ≤ st.toNat) (hhigh : st.toNat ≤ 0xEF) :
    ∃ b d', d = b :: d' ∧ b.toNat < 0x80 ∧ d'.length + 2 = (msgLen v st).len := by
  obtain ⟨u, hu, -⟩ | ⟨st', d', hd, -, -, hlen, hdata⟩ := wellFormedMessage_cases hm
  · obtain ⟨rfl, -⟩ := List.cons.inj hu
    exact absurd hhigh (by decide)
  · obtain ⟨rfl, rfl⟩ := List.cons.inj hd
    rcases d with _ | ⟨b, d⟩
    · rw [msgLen_channelVoice v hlow hhigh] at hlen
      dsimp only [List.length_nil] at hlen
      split_ifs at hlen <;> omega
    · exact ⟨b, d, rfl, hdata b List.mem_cons_self, hlen⟩

/-- Leaving the status out makes a message shorter, and not empty. -/
theorem compress_singleton_length (hm : wellFormedMessage v m = true) (rs : Byte) (leaveOut : Bool) :
    0 < (compress rs [(m, leaveOut)]).length ∧ (compress rs [(m, leaveOut)]).length ≤ m.length := by
  rcases compress_singleton_cases rs m leaveOut with h | ⟨d, rfl, h, hlow, hhigh⟩ <;> rw [h]
  · exact ⟨List.length_pos_iff.2 (ne_nil_of_wellFormedMessage hm), Nat.le_refl _⟩
  · obtain ⟨b, d', rfl, -⟩ := channelVoice_data hm hlow hhigh
    simp

theorem ne_zero_of_status (h : 0x80 ≤ b.toNat) : b ≠ 0x00#8 := by
  rintro rfl
  exact absurd h (by decide)

/-- `FRM.NEXT` takes a message from the front of a stream, its status left out or not, and gives it back with it (R68, R69). -/
theorem frameNext_message (hrs : legalRs rs = true) (hm : wellFormedMessage v m = true) (leaveOut : Bool) (more : List Byte) :
    frameNext v rs (compress rs [(m, leaveOut)] ++ more) =
      ⟨.ok, (compress rs [(m, leaveOut)]).length, m, (resolve rs (m.headD 0x00)).rs⟩ := by
  rcases compress_singleton_cases rs m leaveOut with h | ⟨d, rfl, h, hlow, hhigh⟩ <;> rw [h]
  · obtain ⟨u, rfl, hu⟩ | ⟨st, d, rfl, hst, hstatus, hlen, -⟩ := wellFormedMessage_cases hm
    · simpa [resolve_systemCommon] using frameNext_sysex_closed v rs more hu
    · have htake : (st :: (d ++ more)).take (msgLen v st).len = st :: d := by
        rw [← hlen, List.take_succ_cons, List.take_left' rfl]
      rw [List.cons_append, frameNext_status v rs _ hstatus hst, if_neg (by rw [List.length_append]; omega), htake, ← hlen]
      rfl
  · obtain ⟨b, d, rfl, hb, hlen⟩ := channelVoice_data hm hlow hhigh
    have htake : (b :: (d ++ more)).take ((msgLen v rs).len - 1) = b :: d := by
      rw [← hlen, show d.length + 2 - 1 = d.length + 1 from rfl, List.take_succ_cons, List.take_left' rfl]
    rw [List.cons_append, frameNext_running v _ hb (ne_zero_of_status hlow) hrs, if_neg (by rw [List.length_append]; omega), htake,
      List.headD_cons, resolve_channelVoice rs hlow hhigh, ← hlen]
    rfl

/-- The first bytes of a message, not all of them, frame nothing (R68). -/
theorem frameNext_unfinished (hrs : legalRs rs = true) (h : UnfinishedTail v rs tail) :
    frameNext v rs tail = ⟨.incomplete, 0, [], (frameNext v rs tail).rs⟩ := by
  obtain ⟨m, leaveOut, more, hm, hmore, hsplit⟩ := h
  have hpos := List.length_pos_iff.2 hmore
  rcases tail with _ | ⟨b, t⟩
  · rfl
  rw [frameNext_rs]
  rcases compress_singleton_cases rs m leaveOut with h | ⟨d, rfl, h, hlow, hhigh⟩ <;> rw [h, List.cons_append] at hsplit
  · obtain ⟨u, rfl, hu⟩ | ⟨st, d, rfl, hst, hstatus, hlen, -⟩ := wellFormedMessage_cases hm
    · obtain ⟨rfl, htail⟩ := List.cons.inj hsplit
      have hopen : 0xF7#8 ∉ t := by
        have hlen := congrArg List.length htail
        have hprefix := congrArg (List.take t.length) htail
        simp only [List.length_append, List.length_singleton] at hlen
        rw [List.take_left' rfl, List.take_append_of_le_length (by omega)] at hprefix
        exact fun ht => hu (List.mem_of_mem_take (hprefix ▸ ht))
      rw [resolve_systemCommon rs (by decide) (by decide)]
      exact frameNext_sysex_open v rs hopen
    · obtain ⟨rfl, rfl⟩ := List.cons.inj hsplit
      rw [List.length_append] at hlen
      rw [frameNext_status v rs t hstatus hst, if_pos (by omega)]
  · obtain ⟨b', d', rfl, hb, hlen⟩ := channelVoice_data hm hlow hhigh
    obtain ⟨rfl, rfl⟩ := List.cons.inj hsplit
    rw [List.length_append] at hlen
    rw [frameNext_running v t hb (ne_zero_of_status hlow) hrs, if_pos (by omega), resolve_data rs hb,
      if_neg (ne_zero_of_status hlow)]

theorem UnfinishedTail.take (h : UnfinishedTail v rs tail) (n : Nat) : UnfinishedTail v rs (tail.take n) := by
  obtain ⟨m, leaveOut, more, hm, hmore, hsplit⟩ := h
  exact ⟨m, leaveOut, tail.drop n ++ more, hm, by simp [hmore], by rw [hsplit, ← List.append_assoc, List.take_append_drop]⟩

/-! ### A whole stream (R69) -/

/-- What is no longer than a payload is presented whole, with as much of what follows as fits. -/
theorem State.presentable_append (s : State) {bs : List Byte} (h : bs.length < 2 ^ s.cfg.lenW) (more : List Byte) :
    s.presentable (bs ++ more) = bs ++ more.take (2 ^ s.cfg.lenW - 1 - bs.length) := by
  rw [State.presentable, List.take_append, List.take_of_length_le (by omega)]

/-- One call of `FRM.NEXT` and the calls on what it leaves. -/
theorem frameStream_succ {k consumed : Nat} {bs : List Byte} {qs : List Response} {u : State}
    (hframe : frameNext s.cfg.status s.rs (s.presentable bs) = ⟨.ok, consumed, m, rs⟩)
    (hrest : frameStream k (bs.drop consumed) ((s.withRs rs).withResp (.frmNext .ok consumed m.length m)) = .next (qs, u)) :
    frameStream (k + 1) bs s = .next (.frmNext .ok consumed m.length m :: qs, u) := by
  simp [frameStream, execFrmNext, hframe, hrest]

/-- Framing takes the messages one by one, each call one more than the bytes before it has (R69). -/
theorem frameStream_compress (ms : List (List Byte × Bool)) (hrs : legalRs s.rs = true)
    (hms : ∀ m ∈ ms, wellFormedMessage s.cfg.status m.1 = true ∧ m.1.length < 2 ^ s.cfg.lenW) (n : Nat)
    (hn : (compress s.rs ms).length < n) :
    ∃ qs t, frameStream n (compress s.rs ms) s = .next (qs, t) ∧
      qs.map Response.framed = ms.map (fun m => some (.ok, m.1)) ++ [some (.incomplete, [])] := by
  obtain ⟨n, rfl⟩ : ∃ k, n = k + 1 := ⟨n - 1, by omega⟩
  induction ms generalizing s n with
  | nil =>
    exact ⟨[.frmNext .incomplete 0 0 []], s.withResp (.frmNext .incomplete 0 0 []),
      by simp [frameStream, compress, State.presentable, execFrmNext, frameNext], rfl⟩
  | cons x ms ih =>
    obtain ⟨m, leaveOut⟩ := x
    obtain ⟨⟨hm, hlen⟩, hms⟩ := List.forall_mem_cons.1 hms
    dsimp only at hm hlen
    obtain ⟨hpos, hle⟩ := compress_singleton_length hm s.rs leaveOut
    rw [compress_cons _ _ _ _ (ne_nil_of_wellFormedMessage hm)] at hn ⊢
    rw [List.length_append] at hn
    obtain ⟨n, rfl⟩ : ∃ k, n = k + 1 := ⟨n - 1, by omega⟩
    have hframe := frameNext_message hrs hm leaveOut
      ((compress (resolve s.rs (m.headD 0x00)).rs ms).take (2 ^ s.cfg.lenW - 1 - (compress s.rs [(m, leaveOut)]).length))
    rw [← s.presentable_append (by omega)] at hframe
    obtain ⟨qs, t, hrest, hqs⟩ := ih (s := (s.withRs (resolve s.rs (m.headD 0x00)).rs).withResp
      (.frmNext .ok (compress s.rs [(m, leaveOut)]).length m.length m)) (resolve_legal _ hrs) hms n
      (by rw [State.withResp_rs, State.withRs_rs]; omega)
    refine ⟨_, t, frameStream_succ hframe (by rwa [List.drop_left' rfl]), ?_⟩
    rw [List.map_cons, hqs]
    rfl

/-- Settles O41: framing takes one message after the other from the front, and at the end finds nothing. -/
theorem framingUndoesRunningStatus : Obligations.FramingUndoesRunningStatus :=
  fun _ ms hrs hms => frameStream_compress ms hrs hms _ (Nat.lt_succ_self _)

end Sys2Proof.Machine

/-! PROOFS. The UMP codec's messages and round trips (spec/42_ump.md R71 to R73). -/

namespace Sys2Proof.Machine

variable {s : State} {v : StatusTable} {w : Word} {b st b0 : Byte} {d m : List Byte}

/-! ### What the decoder makes of a word (R71) -/

theorem systemMessage_qf_ss (b1 b2 : Byte) (h : b0 = v.quarterFrame ∨ b0 = v.songSelect) : systemMessage v b0 b1 b2 = [b0, b1] :=
  if_pos h

theorem systemMessage_songPosition (hv : v.wf = true) (b1 b2 : Byte) :
    systemMessage v v.songPosition b1 b2 = [v.songPosition, b1, b2] := by
  obtain ⟨-, -, -, hqp, -, hps⟩ := Laws.DecodeEncode.statusTable_spec hv
  simp [systemMessage, hqp.symm, hps]

theorem systemMessage_other (b1 b2 : Byte) (hq : b0 ≠ v.quarterFrame) (hp : b0 ≠ v.songPosition) (hs : b0 ≠ v.songSelect) :
    systemMessage v b0 b1 b2 = [b0] := by
  simp [systemMessage, hq, hp, hs]

/-- The kinds with one data byte, by arithmetic (R46). -/
theorem channelMessage_eq (b0 b1 b2 : Byte) :
    channelMessage b0 b1 b2 = if b0.toNat / 16 = 0xC ∨ b0.toNat / 16 = 0xD then [b0, b1] else [b0, b1, b2] := by
  simp only [channelMessage, hiNibble_eq_iff]
  rfl

theorem umpB1_eq (w : Word) : umpB1 w = BitVec.ofNat 8 (w.toNat / 2 ^ 8) := by
  simp [umpB1, BitVec.extractLsb', Nat.shiftRight_eq_div_pow]

theorem umpB2_eq (w : Word) : umpB2 w = BitVec.ofNat 8 w.toNat := by
  simp [umpB2, BitVec.extractLsb']

/-- The message of a word, its fields by arithmetic (R48, R71). -/
theorem umpMessage_eq (v : StatusTable) (w : Word) :
    umpMessage v w =
      if w.toNat / 2 ^ 28 = 1 then some (systemMessage v (BitVec.ofNat 8 (w.toNat / 2 ^ 16)) (BitVec.ofNat 8 (w.toNat / 2 ^ 8))
        (BitVec.ofNat 8 w.toNat))
      else if w.toNat / 2 ^ 28 = 2 then some (channelMessage (BitVec.ofNat 8 (w.toNat / 2 ^ 16)) (BitVec.ofNat 8 (w.toNat / 2 ^ 8))
        (BitVec.ofNat 8 w.toNat))
      else none := by
  simp only [umpMessage, umpMt_eq_iff, umpB0_eq, umpB1_eq, umpB2_eq]
  rfl

/-- `UMP.DECODE` answers the first word's message, cut to the capacity. -/
theorem exec_umpDecode_of_umpMessage (h : umpMessage s.cfg.status w = some m) (ws : List Word) (cap : Nat) :
    exec (.umpDecode (w :: ws) cap) s = .next (s.withResp (.umpDecode (min cap m.length) false (m.take cap))) := by
  rw [exec_umpDecode, umpDecodeResponse, h]
  dsimp only
  rw [← List.take_eq_take_min]

/-- Settles O43: the message of the word, by its type and first byte. -/
theorem decodeByTypeAndStatus : Obligations.DecodeByTypeAndStatus := by
  rintro w ws cap s v mt b0 b1 b2 rfl hv rfl rfl rfl rfl
  have hmsg := umpMessage_eq s.cfg.status w
  have two : (2 : Nat) ≠ 1 := by decide
  refine ⟨exec_umpDecode [] cap s, fun n1 n2 => ?_, fun mt hb => ?_, fun mt hb => ?_, fun mt nq np ns => ?_, fun mt hb => ?_,
    fun mt nc nd => ?_⟩
  · rw [if_neg n1, if_neg n2] at hmsg
    exact exec_umpDecode_of_umpMessage_none hmsg ws cap
  · rw [if_pos mt, systemMessage_qf_ss _ _ hb] at hmsg
    exact exec_umpDecode_of_umpMessage hmsg ws cap
  · rw [if_pos mt, hb, systemMessage_songPosition hv, ← hb] at hmsg
    exact exec_umpDecode_of_umpMessage hmsg ws cap
  · rw [if_pos mt, systemMessage_other _ _ nq np ns] at hmsg
    exact exec_umpDecode_of_umpMessage hmsg ws cap
  · rw [mt, if_neg two, if_pos rfl, channelMessage_eq, if_pos hb] at hmsg
    exact exec_umpDecode_of_umpMessage hmsg ws cap
  · rw [mt, if_neg two, if_pos rfl, channelMessage_eq, if_neg (not_or.2 ⟨nc, nd⟩)] at hmsg
    exact exec_umpDecode_of_umpMessage hmsg ws cap

/-! ### Round trips (R73) -/

/-- A message of at most three bytes is packed into one word (R72). -/
theorem umpPackAll_short (b0 : Byte) (h : d.length ≤ 2) :
    umpPackAll (b0 :: d) = [umpWord (umpTypeOf b0) 0 b0 (d.getD 0 0) (d.getD 1 0)] := by
  have hone : umpWordCount (b0 :: d).length = 1 := by
    rw [umpWordCount, List.length_cons]
    omega
  rw [umpPackAll, hone]
  simp [umpPack_eq]

theorem exec_umpEncode_short (s : State) (hb : b0 ≠ statusSysex) (h : d.length ≤ 2) :
    exec (.umpEncode (b0 :: d)) s =
      .next (s.withResp (.umpEncode 1 false [umpWord (umpTypeOf b0) 0 b0 (d.getD 0 0) (d.getD 1 0)])) := by
  have hhead : (b0 :: d).head? ≠ some 0xF0 := fun h => hb (Option.some.inj h)
  have hcount := umpPackAll_length (b0 :: d)
  rw [umpPackAll_short b0 h] at hcount
  rw [exec_umpEncode, umpEncodeResponse_of_head?_ne hhead, umpPackAll_short b0 h, ← hcount]
  rfl

theorem umpTypeOf_system (h : 0xF0 ≤ b0.toNat) (h7 : b0 ≠ 0xF7) : umpTypeOf b0 = 1 := by
  apply BitVec.eq_of_toNat_eq
  rw [umpTypeOf_toNat, if_neg h7, if_pos h]
  rfl

theorem umpTypeOf_channelVoice (h : b0.toNat ≤ 0xEF) : umpTypeOf b0 = 2 := by
  have h7 : b0 ≠ 0xF7 := by
    rintro rfl
    exact absurd h (by decide)
  apply BitVec.eq_of_toNat_eq
  rw [umpTypeOf_toNat, if_neg h7, if_neg (by omega)]
  rfl

/-- A system message of the length that its status says is the message of its bytes. -/
theorem systemMessage_of_length (h : 0xF0 ≤ st.toNat) (hx : st ≠ statusSysex) (hlen : d.length + 1 = (msgLen v st).len) :
    systemMessage v st (d.getD 0 0) (d.getD 1 0) = st :: d := by
  rw [msgLen_system v h, if_neg hx] at hlen
  dsimp only at hlen
  unfold systemMessage
  split_ifs at hlen ⊢
  · obtain ⟨x, rfl⟩ := List.length_eq_one_iff.1 (by omega : d.length = 1)
    rfl
  · obtain ⟨x, y, rfl⟩ := List.length_eq_two.1 (by omega : d.length = 2)
    rfl
  · obtain rfl := List.eq_nil_of_length_eq_zero (by omega : d.length = 0)
    rfl

theorem channelMessage_of_length (h : 0x80 ≤ st.toNat) (h' : st.toNat ≤ 0xEF) (hlen : d.length + 1 = (msgLen v st).len) :
    channelMessage st (d.getD 0 0) (d.getD 1 0) = st :: d := by
  rw [msgLen_channelVoice v h h'] at hlen
  dsimp only at hlen
  rw [channelMessage_eq]
  split_ifs at hlen ⊢
  · obtain ⟨x, rfl⟩ := List.length_eq_one_iff.1 (by omega : d.length = 1)
    rfl
  · obtain ⟨x, y, rfl⟩ := List.length_eq_two.1 (by omega : d.length = 2)
    rfl

/-- What a proper message is (R73 (a), (b)). -/
theorem properMessage_cases (h : properMessage v m = true) :
    ∃ st d, m = st :: d ∧ 0x80 ≤ st.toNat ∧ d.length + 1 = (msgLen v st).len ∧ st ≠ statusSysex ∧ st ≠ statusEOX := by
  rcases m with _ | ⟨st, d⟩
  · cases h
  · simp only [properMessage, Bool.and_eq_true, beq_iff_eq, bne_iff_ne] at h
    obtain ⟨⟨⟨hvalid, hlen⟩, hx⟩, h7⟩ := h
    refine ⟨st, d, rfl, ?_, hlen, hx, h7⟩
    by_contra hst
    rw [msgLen_data v (by omega)] at hvalid
    cases hvalid

/-- No message but system exclusive is longer than three bytes (R67). -/
theorem msgLen_le_three (v : StatusTable) (st : Byte) : (msgLen v st).len ≤ 3 := by
  unfold msgLen
  split_ifs <;> decide

/-- Settles O45: the one word that a proper message is packed into has its status byte's type, so it is decoded by the same status
to the same number of bytes. -/
theorem messageSurvivesTheUmpRoundTrip : Obligations.MessageSurvivesTheUmpRoundTrip := by
  intro m s t hm
  obtain ⟨st, d, rfl, hst, hlen, hx, h7⟩ := properMessage_cases hm
  have hle := msgLen_le_three t.cfg.status st
  have hmsg : umpMessage t.cfg.status (umpWord (umpTypeOf st) 0 st (d.getD 0 0) (d.getD 1 0)) = some (st :: d) := by
    rw [umpMessage_umpWord]
    by_cases hsys : 0xF0 ≤ st.toNat
    · rw [umpTypeOf_system hsys h7, if_pos rfl, systemMessage_of_length hsys hx hlen]
    · rw [umpTypeOf_channelVoice (by omega), if_neg (by decide), if_pos rfl, channelMessage_of_length hst (by omega) hlen]
  refine ⟨_, exec_umpEncode_short s hx (by omega), fun cap hcap => ?_⟩
  rw [exec_umpDecode_of_umpMessage hmsg, Nat.min_eq_right hcap, List.take_of_length_le hcap]

/-- The message of a word has at most three bytes (R71). -/
theorem umpMessage_length_le (h : umpMessage v w = some m) : m.length ≤ 3 := by
  simp only [umpMessage, systemMessage, channelMessage] at h
  split_ifs at h <;> cases h <;> simp

/-- A capacity of 3 takes every message whole (R80). -/
theorem exec_umpDecode_three (h : umpMessage s.cfg.status w = some m) :
    exec (.umpDecode [w] 3) s = .next (s.withResp (.umpDecode m.length false m)) := by
  have hle := umpMessage_length_le h
  rw [exec_umpDecode_of_umpMessage h, Nat.min_eq_right hle, List.take_of_length_le hle]

/-- A word that is decoded to bytes which are packed into it again survives the round trip. -/
theorem umpWord_roundTrip {mt : BitVec 4} {b1 b2 : Byte} (s : State) (hb : b0 ≠ statusSysex) (hd : d.length ≤ 2)
    (hmsg : umpMessage s.cfg.status (umpWord mt 0 b0 b1 b2) = some (b0 :: d)) (htype : umpTypeOf b0 = mt) (h1 : d.getD 0 0 = b1)
    (h2 : d.getD 1 0 = b2) :
    ∃ m : List Byte, exec (.umpDecode [umpWord mt 0 b0 b1 b2] 3) s = .next (s.withResp (.umpDecode m.length false m)) ∧
      exec (.umpEncode m) s = .next (s.withResp (.umpEncode 1 false [umpWord mt 0 b0 b1 b2])) := by
  subst htype h1 h2
  exact ⟨_, exec_umpDecode_three hmsg, exec_umpEncode_short s hb hd⟩

/-- Settles O46: the bytes that decoding drops are 0, and packing fills up with 0; the two exceptions are decoded to one byte. -/
theorem properWordSurvivesTheUmpRoundTrip : Obligations.ProperWordSurvivesTheUmpRoundTrip := by
  refine ⟨?_, fun s hv => ?_⟩
  · rintro mt b0 b1 b2 s v rfl hv (⟨rfl, hlow, h7, hone, hnone⟩ | ⟨rfl, hlow, hhigh, hone⟩)
    · have hx : b0 ≠ statusSysex := by
        rintro rfl
        exact absurd hlow (by decide)
      have hmsg := umpMessage_umpWord s.cfg.status 1 0 b0 b1 b2
      rw [if_pos rfl] at hmsg
      have htype := umpTypeOf_system (by omega : 0xF0 ≤ b0.toNat) h7
      by_cases hqs : b0 = s.cfg.status.quarterFrame ∨ b0 = s.cfg.status.songSelect
      · rw [systemMessage_qf_ss _ _ hqs] at hmsg
        exact umpWord_roundTrip s hx (d := [b1]) (by simp) hmsg htype rfl (hone hqs).symm
      · obtain ⟨hq, hs⟩ := not_or.1 hqs
        by_cases hp : b0 = s.cfg.status.songPosition
        · rw [hp, systemMessage_songPosition hv, ← hp] at hmsg
          exact umpWord_roundTrip s hx (d := [b1, b2]) (by simp) hmsg htype rfl rfl
        · rw [systemMessage_other _ _ hq hp hs] at hmsg
          obtain ⟨rfl, rfl⟩ := hnone hq hp hs
          exact umpWord_roundTrip s hx (d := []) (by simp) hmsg htype rfl rfl
    · have hx : b0 ≠ statusSysex := by
        rintro rfl
        exact absurd hhigh (by decide)
      have hmsg := umpMessage_umpWord s.cfg.status 2 0 b0 b1 b2
      rw [if_neg (by decide), if_pos rfl, channelMessage_eq] at hmsg
      have htype := umpTypeOf_channelVoice hhigh
      by_cases hk : b0.toNat / 16 = 0xC ∨ b0.toNat / 16 = 0xD
      · rw [if_pos hk] at hmsg
        exact umpWord_roundTrip s hx (d := [b1]) (by simp) hmsg htype rfl (hone hk).symm
      · rw [if_neg hk] at hmsg
        exact umpWord_roundTrip s hx (d := [b1, b2]) (by simp) hmsg htype rfl rfl
  · have hbyte : ∀ b : Byte, isNamedSystemCommon b = false → umpMessage s.cfg.status (umpWord 1 0 b 0 0) = some [b] := by
      intro b hb
      obtain ⟨hq, hp, hs⟩ := Laws.DecodeEncode.ne_status hv hb
      rw [umpMessage_umpWord, if_pos rfl, systemMessage_other _ _ hq hp hs]
    obtain ⟨-, -, heox⟩ := sysexIsRejectedBothWays
    exact ⟨exec_umpDecode_three (hbyte 0xF0 rfl), exec_umpEncode_sysex [] s, exec_umpDecode_three (hbyte 0xF7 rfl), heox s⟩

end Sys2Proof.Machine

/-! PROOFS. Repetition (spec/20_memory.md R33), and the rows that run a byte or a word by itself (log entries 4 and 5). -/

namespace Sys2Proof.Machine

variable {s : State} {v : StatusTable} {w : Word} {b : Byte} {m : List Byte} {i : Instr}

/-! ### Repetition (20_memory.md R33) -/

theorem OnlyAnswers.repeats (h : OnlyAnswers i) (s : State) : ∃ t, exec i s = .next t ∧ exec i t = .next t := by
  obtain ⟨r, hexec⟩ := h
  exact ⟨_, hexec s, hexec _⟩

/-- Settles O49: the two resets and `FRM.RESOLVE` write what they would write again; the others write nothing. -/
theorem repeatingChangesNothing : Obligations.RepeatingChangesNothing := by
  rintro i s (rfl | rfl | rfl | ⟨b, rfl⟩ | ⟨st, rfl⟩ | ⟨ws, cap, rfl⟩ | ⟨bs, rfl⟩)
  · exact ⟨_, exec_cpbInit s, exec_cpbInit_again s⟩
  · exact cpbCount_onlyAnswers.repeats s
  · exact ⟨_, exec_frmReset s, exec_frmReset_again s⟩
  · have hagain := resolve_resolve s.rs b
    exact ⟨_, exec_frmResolve_of_resolve rfl, exec_frmResolve_of_resolve hagain⟩
  · exact (frmMsglen_onlyAnswers st).repeats s
  · exact (umpDecode_onlyAnswers ws cap).repeats s
  · exact (umpEncode_onlyAnswers bs).repeats s

/-! ### The `MIDI8` rows (log entry 4) -/

/-- A byte by itself: what `FRM.RESOLVE` and `FRM.MSGLEN` make of it. -/
theorem presentByte_of_parts {valid lenValid : Bool} {status rs : Byte} {len : Nat} (hres : resolve s.rs b = ⟨valid, status, rs⟩)
    (hlen : msgLen s.cfg.status b = ⟨lenValid, len⟩) :
    presentByte b s = .next ((s.withRs rs).withResp (.midiByte valid status lenValid len)) := by
  simp only [presentByte, hres, hlen, answer]

/-- A system-common byte clears `RS` (R66 case 2). -/
theorem presentByte_systemCommon {len : Nat} (h : 0xF0 ≤ b.toNat) (h' : b.toNat ≤ 0xF7)
    (hlen : msgLen s.cfg.status b = ⟨true, len⟩) :
    presentByte b s = .next ((s.withRs 0x00).withResp (.midiByte true b true len)) :=
  presentByte_of_parts (resolve_systemCommon _ h h') hlen

/-- A channel-voice byte is the running status after it (R66 case 3). -/
theorem presentByte_channelVoice {len : Nat} (h : 0x80 ≤ b.toNat) (h' : b.toNat ≤ 0xEF)
    (hlen : (if b.toNat / 16 = 0xC ∨ b.toNat / 16 = 0xD then 2 else 3) = len) :
    presentByte b s = .next ((s.withRs b).withResp (.midiByte true b true len)) :=
  presentByte_of_parts (resolve_channelVoice _ h h') (hlen ▸ msgLen_channelVoice _ h h')

/-- The bytes of the rows by arithmetic (R45). -/
theorem rtByte_toNat : ∀ x : BitVec 3, (rtByte x).toNat = 0xF8 + x.toNat := by decide

theorem syscomByte_toNat : ∀ x : BitVec 3, (syscomByte x).toNat = 0xF0 + x.toNat := by decide

theorem dataByte_toNat : ∀ x : BitVec 7, (dataByte x).toNat = x.toNat := by decide

theorem cvByte_toNat : ∀ k c : BitVec 4, (cvByte k c).toNat = 16 * k.toNat + c.toNat := by decide

theorem eq_ofNat_of_toNat {n : Nat} (h : b.toNat = n) : b = BitVec.ofNat 8 n := by
  rw [← h, BitVec.ofNat_toNat, BitVec.setWidth_eq]

/-- The kinds of `ST.CV.OTHER`: 8 to 14, without those of one data byte (R45). -/
theorem stCvOther_kind : ∀ k : BitVec 4, k.getLsbD 3 = true → k ≠ kindPC → k ≠ kindCP → k ≠ 0xF →
    8 ≤ k.toNat ∧ k.toNat ≤ 14 ∧ k.toNat ≠ 0xC ∧ k.toNat ≠ 0xD := by decide

/-- Settles O50: each row's byte by its class in R66 and R67. -/
theorem midiRowsFollowTheTable : Obligations.MidiRowsFollowTheTable := by
  intro s hv
  obtain ⟨hq, hp, hs, -⟩ := Laws.DecodeEncode.statusTable_spec hv
  obtain ⟨lenQf, lenSpp, lenSs⟩ := msgLen_named hv
  simp only [isNamedSystemCommon_eq, decide_eq_true_eq] at hq hp hs
  have other : ∀ b : Byte, 0xF1 ≤ b.toNat → isNamedSystemCommon b = false → msgLen s.cfg.status b = ⟨true, 1⟩ := by
    intro b hb hn
    obtain ⟨nq, np, ns⟩ := Laws.DecodeEncode.ne_status hv hn
    exact msgLen_systemOther hb nq np ns
  refine ⟨fun x => ?_, presentByte_systemCommon (by decide) (by decide) (msgLen_sysex _),
    presentByte_systemCommon (by omega) (by omega) lenQf, presentByte_systemCommon (by omega) (by omega) lenSpp,
    presentByte_systemCommon (by omega) (by omega) lenSs,
    presentByte_systemCommon (by decide) (by decide) (other _ (by decide) rfl), fun x hx => ?_, fun c => ?_, fun c => ?_,
    fun k c hk => ?_, fun x => ?_⟩
  · have hx := rtByte_toNat x
    have hlen := other (rtByte x) (by omega) (by rw [isNamedSystemCommon_eq, decide_eq_false_iff_not]; omega)
    rw [← eq_ofNat_of_toNat hx]
    exact presentByte_of_parts (resolve_realtime _ (by omega)) hlen
  · have hn := syscomByte_toNat x
    simp only [Instr.wf, Instr.wfIn, Bool.and_eq_true, bne_iff_ne] at hx
    obtain ⟨⟨⟨hcommon, nq⟩, np⟩, ns⟩ := hx
    rw [isNamedSystemCommon_eq, decide_eq_true_eq] at hcommon
    rw [← eq_ofNat_of_toNat hn]
    exact presentByte_systemCommon (by omega) (by omega) (msgLen_systemOther (by omega) nq np ns)
  · have hn : (cvByte kindPC c).toNat = 0xC0 + c.toNat := cvByte_toNat kindPC c
    have hc := c.isLt
    rw [← eq_ofNat_of_toNat hn]
    exact presentByte_channelVoice (by omega) (by omega) (if_pos (by omega))
  · have hn : (cvByte kindCP c).toNat = 0xD0 + c.toNat := cvByte_toNat kindCP c
    have hc := c.isLt
    rw [← eq_ofNat_of_toNat hn]
    exact presentByte_channelVoice (by omega) (by omega) (if_pos (by omega))
  · have hn := cvByte_toNat k c
    have hc := c.isLt
    simp only [Instr.wf, Instr.wfIn, Bool.and_eq_true, bne_iff_ne] at hk
    obtain ⟨⟨⟨h8, nc⟩, nd⟩, nf⟩ := hk
    obtain ⟨hlow, hhigh, nc, nd⟩ := stCvOther_kind k h8 nc nd nf
    rw [← eq_ofNat_of_toNat hn]
    exact presentByte_channelVoice (by omega) (by omega) (if_neg (by omega))
  · have hn := dataByte_toNat x
    have hx := x.isLt
    have hres := resolve_data s.rs (b := dataByte x) (by omega)
    have hlen := msgLen_data s.cfg.status (st := dataByte x) (by omega)
    by_cases hrs : s.rs = 0x00
    · rw [if_pos hrs]
      exact presentByte_of_parts (hres.trans (if_pos hrs)) hlen
    · rw [if_neg hrs]
      exact presentByte_of_parts (hres.trans (if_neg hrs)) hlen

/-! ### The `UMP32` rows (log entry 5) -/

/-- A word of type 1 or 2 by itself. -/
theorem presentWord_of_umpMessage (h : umpMessage s.cfg.status w = some m) :
    presentWord w s = .next (s.withResp (.umpDecode m.length false m)) :=
  exec_umpDecode_three h

theorem presentWord_of_umpMessage_none (h : umpMessage s.cfg.status w = none) :
    presentWord w s = .next (s.withResp (.umpDecode 0 true [])) :=
  exec_umpDecode_of_umpMessage_none h [] 3

theorem presentWord_system {g : BitVec 4} {b0 b1 b2 : Byte} (h : systemMessage s.cfg.status b0 b1 b2 = m) :
    presentWord (umpWord 1 g b0 b1 b2) s = .next (s.withResp (.umpDecode m.length false m)) :=
  presentWord_of_umpMessage (by rw [umpMessage_umpWord, if_pos rfl, h])

theorem presentWord_channel {g : BitVec 4} {b0 b1 b2 : Byte} (h : channelMessage b0 b1 b2 = m) :
    presentWord (umpWord 2 g b0 b1 b2) s = .next (s.withResp (.umpDecode m.length false m)) :=
  presentWord_of_umpMessage (by rw [umpMessage_umpWord, if_neg (by decide), if_pos rfl, h])

theorem presentWord_unsupported {mt : BitVec 4} (g : BitVec 4) (b0 b1 b2 : Byte) (h1 : mt ≠ 1) (h2 : mt ≠ 2) :
    presentWord (umpWord mt g b0 b1 b2) s = .next (s.withResp (.umpDecode 0 true [])) :=
  presentWord_of_umpMessage_none (by rw [umpMessage_eq_none_iff, umpMt_umpWord]; exact ⟨h1, h2⟩)

/-- Settles O51: each row's word by its type and first byte. -/
theorem umpRowsFollowTheTable : Obligations.UmpRowsFollowTheTable := by
  intro s g b0 b1 b2 hv
  have low : ∀ m : BitVec 2, 0b01#2 ++ m ≠ (1 : BitVec 4) ∧ 0b01#2 ++ m ≠ (2 : BitVec 4) := by decide
  have high : ∀ m : BitVec 3, 0b1#1 ++ m ≠ (1 : BitVec 4) ∧ 0b1#1 ++ m ≠ (2 : BitVec 4) := by decide
  refine ⟨presentWord_system (systemMessage_qf_ss _ _ (.inl rfl)), presentWord_system (systemMessage_songPosition hv _ _),
    presentWord_system (systemMessage_qf_ss _ _ (.inr rfl)), fun hi => ?_, fun c => ?_, fun c => ?_, fun hi => ?_,
    presentWord_unsupported g b0 b1 b2 (by decide) (by decide), presentWord_unsupported g b0 b1 b2 (by decide) (by decide),
    fun m => presentWord_unsupported g b0 b1 b2 (low m).1 (low m).2,
    fun m => presentWord_unsupported g b0 b1 b2 (high m).1 (high m).2⟩
  · simp only [Instr.wf, Instr.wfIn, Bool.and_eq_true, bne_iff_ne] at hi
    obtain ⟨⟨nq, np⟩, ns⟩ := hi
    exact presentWord_system (systemMessage_other _ _ nq np ns)
  · have hn : (cvByte kindPC c).toNat = 0xC0 + c.toNat := cvByte_toNat kindPC c
    have hc := c.isLt
    rw [← eq_ofNat_of_toNat hn]
    exact presentWord_channel (if_pos (.inl (hiNibble_cvByte kindPC c)))
  · have hn : (cvByte kindCP c).toNat = 0xD0 + c.toNat := cvByte_toNat kindCP c
    have hc := c.isLt
    rw [← eq_ofNat_of_toNat hn]
    exact presentWord_channel (if_pos (.inr (hiNibble_cvByte kindCP c)))
  · simp only [Instr.wf, Instr.wfIn, Bool.and_eq_true, bne_iff_ne] at hi
    exact presentWord_channel (if_neg (not_or.2 hi))

/-- Settles O52: a row is decoded from the byte or the word that it runs. -/
theorem rowsAgreeWithTheOperations : Obligations.RowsAgreeWithTheOperations := by
  refine ⟨fun b i s h => ?_, fun w i s h => ?_⟩
  · cases h
    have hrow := exec_of_encode_midi8 (decodeMidi_reads_back s.cfg.status b).2
    exact ⟨_, _, _, _, _, exec_frmResolve_of_resolve rfl, exec_frmMsglen_of_msgLen rfl, hrow.trans (presentByte_of_parts rfl rfl)⟩
  · cases h
    have hrow := exec_of_encode_ump32 (decodeUmp_reads_back s.cfg.status w).2
    exact ⟨_, exec_umpDecode [w] 3 s, hrow.trans (exec_umpDecode [w] 3 s)⟩

end Sys2Proof.Machine

/-! PROOFS. The widths of the responses (spec/30_encoding.md R44). -/

namespace Sys2Proof.Machine

variable {s t : State} {v : StatusTable} {rs : Byte} {i : Instr} {r q : Response} {c : Config}

/-! ### Response widths (30_encoding.md R44) -/

/-- `FRM.NEXT` consumes no more than it is given, and adds at most a status byte to it (R68). -/
theorem frameNext_length_le (v : StatusTable) (hrs : legalRs rs = true) (bs : List Byte) :
    (frameNext v rs bs).consumed ≤ bs.length ∧ (frameNext v rs bs).msg.length ≤ bs.length + 1 := by
  rcases bs with _ | ⟨b, t⟩
  · exact ⟨Nat.le_refl _, Nat.zero_le _⟩
  by_cases hb : 0x80 ≤ b.toNat
  · by_cases hx : b = statusSysex
    · subst hx
      by_cases hend : 0xF7#8 ∈ t
      · obtain ⟨u, t, rfl, hu⟩ := List.eq_append_cons_of_mem hend
        have hframe : frameNext v rs (statusSysex :: (u ++ 0xF7#8 :: t)) = _ := frameNext_sysex_closed v rs t hu
        rw [hframe]
        simp
      · have hframe : frameNext v rs (statusSysex :: t) = _ := frameNext_sysex_open v rs hend
        rw [hframe]
        simp
    · rw [frameNext_status v rs t hb hx]
      split_ifs with hshort
      · simp
      · simp only [List.length_take, List.length_cons]
        omega
  · by_cases h0 : rs = 0x00#8
    · subst h0
      rw [frameNext_stray v t (by omega)]
      simp
    · rw [frameNext_running v t (by omega) h0 hrs]
      split_ifs with hshort
      · simp
      · simp only [List.length_take, List.length_cons]
        omega

/-- Every response of the decoder fits, whatever the capacity (R71). -/
theorem umpDecodeResponse_fits (v : StatusTable) (words : List Word) (cap : Nat) : (umpDecodeResponse v words cap).fits c := by
  rcases words with _ | ⟨w, ws⟩
  · exact ⟨by decide, rfl⟩
  · cases hm : umpMessage v w with
    | none =>
      simp only [umpDecodeResponse, hm]
      exact ⟨by decide, rfl⟩
    | some m =>
      have hle := umpMessage_length_le hm
      simp only [umpDecodeResponse, hm]
      exact ⟨by omega, by simp⟩

theorem umpEncodeResponse_fits {bytes : List Byte} (h : bytes.length < 2 ^ c.lenW) : (umpEncodeResponse bytes).fits c := by
  unfold umpEncodeResponse
  split_ifs
  · exact ⟨Nat.two_pow_pos _, rfl⟩
  · exact ⟨by rw [umpWordCount]; omega, umpPackAll_length bytes⟩

theorem msgLen_lt (v : StatusTable) (st : Byte) : (msgLen v st).len < 2 ^ 2 := Nat.lt_succ_of_le (msgLen_le_three v st)

/-- The response in the next state is the one the instruction answered with. -/
theorem fits_of_answer (hexec : exec i s = .next t) (hanswer : exec i s = answer q u) (hr : t.resp = some r) (hq : q.fits c) :
    r.fits c := by
  cases hexec.symm.trans hanswer
  cases hr
  exact hq

theorem fits_of_midi8 {b : Byte} (h : encode s.cfg.status i = .midi8 b) (hexec : exec i s = .next t) (hr : t.resp = some r) :
    r.fits c :=
  fits_of_answer hexec (exec_of_encode_midi8 h) hr (msgLen_lt s.cfg.status b)

theorem fits_of_ump32 {w : Word} (h : encode s.cfg.status i = .ump32 w) (hexec : exec i s = .next t) (hr : t.resp = some r) :
    r.fits c :=
  fits_of_answer hexec (exec_of_encode_ump32 h) hr (umpDecodeResponse_fits _ _ _)

/-- Settles O20: what each operation answers, by its own bound. -/
theorem responsesFitTheirWidths : Obligations.ResponsesFitTheirWidths := by
  intro i s t r h hi hexec hr
  have hcount : s.count < 2 ^ s.cfg.posW := Config.lt_two_pow_posW h.count_lt
  have hcap : 0 < 2 ^ s.cfg.lenW := Nat.two_pow_pos _
  cases i with
  | cpbInit => exact fits_of_answer hexec (exec_cpbInit s) hr trivial
  | cpbPush d =>
    by_cases hout : d.length = 0 ∨ s.cfg.arenaCap < d.length
    · exact fits_of_answer hexec (exec_cpbPush_of_length_outside hout) hr (Nat.two_pow_pos _)
    · obtain ⟨k, u, hpush, hpushed⟩ := h.exec_cpbPush (d := d) (by omega) (by omega)
      exact fits_of_answer hexec (hpush.trans (congrArg _ hpushed.eq)) hr (Nat.lt_of_le_of_lt hpushed.le hcount)
  | cpbPop cap =>
    have hcap' : cap < 2 ^ s.cfg.lenW := of_decide_eq_true hi
    rcases h.exec_cpbPop_cases cap with ⟨-, hpop⟩ | ⟨p, ps, -, -, -, hpop⟩
    · exact fits_of_answer hexec hpop hr ⟨hcap, rfl⟩
    · exact fits_of_answer hexec hpop hr ⟨by omega, List.length_take⟩
  | cpbCount => exact fits_of_answer hexec (exec_cpbCount s) hr hcount
  | frmReset => exact fits_of_answer hexec (exec_frmReset s) hr trivial
  | frmResolve b => exact fits_of_answer hexec (exec_frmResolve_of_resolve rfl) hr trivial
  | frmMsglen st => exact fits_of_answer hexec (exec_frmMsglen_of_msgLen rfl) hr (msgLen_lt s.cfg.status st)
  | frmNext bs =>
    have hlen : bs.length < 2 ^ s.cfg.lenW := of_decide_eq_true hi
    obtain ⟨hconsumed, hmsg⟩ := frameNext_length_le s.cfg.status h.rsLegal bs
    exact fits_of_answer hexec (exec_frmNext bs s) hr ⟨by omega, by rw [Nat.pow_succ]; omega, rfl⟩
  | umpDecode words cap => exact fits_of_answer hexec (exec_umpDecode words cap s) hr (umpDecodeResponse_fits _ _ _)
  | umpEncode bytes => exact fits_of_answer hexec (exec_umpEncode bytes s) hr (umpEncodeResponse_fits (of_decide_eq_true hi))
  | cmdReserved op a b => exact fits_of_answer hexec (exec_cmdReserved op a b s) hr trivial
  | stRt | stSysex | stQf | stSpp | stSs | stEox | stSyscomOther | stCvPc | stCvCp | stCvOther | midiData =>
    exact fits_of_midi8 rfl hexec hr
  | umpSysQf | umpSysSpp | umpSysSs | umpSysOther | umpCvPc | umpCvCp | umpCvOther | umpData | umpRsvdMt0 | umpRsvdMt4To7 |
    umpRsvdMt8To15 => exact fits_of_ump32 rfl hexec hr

end Sys2Proof.Machine

/-! PROOFS. The data paths (spec/43_datapaths.md R78 to R81) with a consumer's operations between theirs (R96; log entry 15): what
the consumer leaves and what `RX.UMP` pushes; and the transport. -/

namespace Sys2Proof.Machine

variable {s t u : State} {i : Instr} {gaps : List (List Instr)}

/-! ### What a consumer leaves (R96) -/

/-- What a consumer's operations leave of a good state: the last of its packets, and its `RS`. -/
structure Consumed (s t : State) : Prop where
  inv : t.Inv
  cfg : t.cfg = s.cfg
  rs : t.rs = s.rs
  packets : t.packets <:+ s.packets

theorem Consumed.refl (h : s.Inv) : Consumed s s := ⟨h, rfl, rfl, List.suffix_refl _⟩

theorem Consumed.trans (h : Consumed s t) (h' : Consumed t u) : Consumed s u :=
  ⟨h'.inv, h'.cfg.trans h.cfg, h'.rs.trans h.rs, h'.packets.trans h.packets⟩

theorem Consumed.withResp (h : Consumed s t) (r : Response) : Consumed s (t.withResp r) :=
  ⟨h.inv.withResp r, h.cfg, h.rs, h.packets⟩

theorem State.Inv.exec_consumes (h : s.Inv) (hi : consumes i = true) : ∃ t, exec i s = .next t ∧ Consumed s t := by
  cases i <;> try cases hi
  case cpbPop cap =>
    rcases h.exec_cpbPop_cases cap with ⟨-, hexec⟩ | ⟨p, ps, hcons, hinv, hrest, hexec⟩
    · exact ⟨_, hexec, (Consumed.refl h).withResp _⟩
    · have hretired : Consumed s s.retireOldest := ⟨hinv, rfl, rfl, by rw [hrest, hcons]; exact List.suffix_cons p ps⟩
      exact ⟨_, hexec, hretired.withResp _⟩
  case cpbCount => exact ⟨_, exec_cpbCount s, (Consumed.refl h).withResp _⟩
  case umpEncode bytes => exact ⟨_, exec_umpEncode bytes s, (Consumed.refl h).withResp _⟩

theorem State.Inv.issueAll_consumes (h : s.Inv) {is : List Instr} (his : ∀ i ∈ is, consumes i = true) :
    ∃ rs t, issueAll is s = .next (rs, t) ∧ Consumed s t := by
  induction is generalizing s with
  | nil => exact ⟨[], s, rfl, .refl h⟩
  | cons i is ih =>
    obtain ⟨hi, his⟩ := List.forall_mem_cons.1 his
    obtain ⟨t, hexec, ht⟩ := h.exec_consumes hi
    obtain ⟨rs, u, hrun, hu⟩ := ih ht.inv his
    exact ⟨_, u, issueAll_cons hexec hrun, ht.trans hu⟩

theorem issueAmong_of_issueAll {rs : List (Option Response)} (hgap : issueAll (gaps.headD []) s = .next (rs, t))
    (hexec : exec i t = .next u) : issueAmong gaps i s = .next (gaps.tail, u) := by
  simp only [issueAmong, hgap, hexec]

/-- An operation issued after a consumer's runs in a state that the consumer left, the state itself where there is no gap. -/
theorem State.Inv.issueAmong_consumes (h : s.Inv) (hgaps : ∀ g ∈ gaps, ∀ i ∈ g, consumes i = true) :
    ∃ t, Consumed s t ∧ (gaps = [] → t = s) ∧ ∀ i u, exec i t = .next u → issueAmong gaps i s = .next (gaps.tail, u) := by
  rcases gaps with _ | ⟨g, gaps⟩
  · exact ⟨s, .refl h, fun _ => rfl, fun _ _ hexec => issueAmong_of_issueAll (gaps := []) rfl hexec⟩
  · obtain ⟨rs, t, hrun, ht⟩ := h.issueAll_consumes (hgaps g List.mem_cons_self)
    exact ⟨t, ht, nofun, fun _ _ hexec => issueAmong_of_issueAll (gaps := g :: gaps) hrun hexec⟩

theorem consumes_tail (hgaps : ∀ g ∈ gaps, ∀ i ∈ g, consumes i = true) : ∀ g ∈ gaps.tail, ∀ i ∈ g, consumes i = true :=
  fun g hg => hgaps g (List.mem_of_mem_tail hg)

/-! ### `RX.UMP` (R80) -/

section RxUmp

variable {gaps' gaps'' : List (List Instr)} {w : Word} {cap n ev : Nat} {unsupported dropped : Bool} {out m : List Byte}

theorem rxUmp_nothing (hdec : issueAmong gaps (.umpDecode [w] cap) s = .next (gaps', t))
    (hresp : t.resp = some (.umpDecode 0 unsupported out)) :
    rxUmp gaps w cap s = .next ({ pushed := 0, unsupported := unsupported, evicted := 0 }, t) := by
  simp only [rxUmp, hdec, hresp]

theorem rxUmp_pushes (hdec : issueAmong gaps (.umpDecode [w] cap) s = .next (gaps', t))
    (hresp : t.resp = some (.umpDecode (n + 1) unsupported out))
    (hpush : issueAmong gaps' (.cpbPush (out.take (n + 1))) t = .next (gaps'', u))
    (hresp' : u.resp = some (.cpbPush ev dropped)) :
    rxUmp gaps w cap s = .next ({ pushed := 1, unsupported := false, evicted := ev }, u) := by
  simp only [rxUmp, hdec, hresp, hpush, hresp']

/-- Every message has its status byte (R71). -/
theorem umpMessage_length_pos {v : StatusTable} (h : umpMessage v w = some m) : 0 < m.length := by
  simp only [umpMessage, systemMessage, channelMessage] at h
  split_ifs at h <;> cases h <;> simp

/-- The decoding half of `RX.UMP`, after which the push of the message's first bytes is left. -/
theorem State.Inv.rxUmp_decodes (h : s.Inv) (hgaps : ∀ g ∈ gaps, ∀ i ∈ g, consumes i = true)
    (hm : umpMessage s.cfg.status w = some m) (hcap : 1 ≤ cap) :
    ∃ t, Consumed s t ∧ (gaps = [] → t = { s with resp := t.resp }) ∧ ∀ u ev dropped,
      exec (.cpbPush (m.take cap)) t = .next u → u.resp = some (.cpbPush ev dropped) →
      rxUmp gaps w cap s = .next ({ pushed := 1, unsupported := false, evicted := ev }, u) := by
  have hpos := umpMessage_length_pos hm
  obtain ⟨s1, hs1, hquiet, hdec⟩ := h.issueAmong_consumes hgaps
  obtain ⟨n, hn⟩ : ∃ n, min cap m.length = n + 1 := ⟨min cap m.length - 1, by omega⟩
  have hout : (m.take cap).take (n + 1) = m.take cap := List.take_of_length_le (by rw [List.length_take, hn])
  have hfirst := hdec _ _ (exec_umpDecode_of_umpMessage (hs1.cfg ▸ hm) [] cap)
  rw [hn] at hfirst
  obtain ⟨t, ht, hquiet', hpush⟩ := (hs1.inv.withResp (.umpDecode (n + 1) false (m.take cap))).issueAmong_consumes
    (consumes_tail hgaps)
  refine ⟨t, (hs1.withResp _).trans ht, ?_, fun u ev dropped hexec hresp => ?_⟩
  · rintro rfl
    rw [hquiet' rfl, hquiet rfl]
    rfl
  · exact rxUmp_pushes hfirst rfl (hpush (.cpbPush ((m.take cap).take (n + 1))) u (by rw [hout, hexec])) hresp

/-- Settles O54: the decoding answers by the word alone, and the push finds what the consumer left. -/
theorem rxUmpBuffersTheDecodedMessage : Obligations.RxUmpBuffersTheDecodedMessage := by
  intro gaps w cap s h hgaps
  obtain ⟨s1, hs1, hquiet, hdec⟩ := h.issueAmong_consumes hgaps
  have hsame : ∀ r, gaps = [] → s1.withResp r = { s with resp := (s1.withResp r).resp } := by
    intro r hnil
    rw [hquiet hnil]
    rfl
  refine ⟨fun hm => ?_, fun m hm hcap => ?_, fun m hm hcap hlong => ?_, fun m hm hcap hfit => ?_⟩
  · have hexec := hdec _ _ (exec_umpDecode_of_umpMessage_none (hs1.cfg ▸ hm) [] cap)
    exact ⟨_, rxUmp_nothing hexec rfl, hs1.packets, hs1.rs, hs1.inv.withResp _, hsame _⟩
  · have hexec := hdec _ _ (exec_umpDecode_of_umpMessage (hs1.cfg ▸ hm) [] cap)
    rw [hcap, Nat.zero_min] at hexec
    subst hcap
    exact ⟨_, rxUmp_nothing hexec rfl, hs1.packets, hs1.rs, hs1.inv.withResp _, hsame _⟩
  · obtain ⟨t, ht, hquiet', hpush⟩ := h.rxUmp_decodes hgaps hm hcap
    have hdrop := exec_cpbPush_of_length_outside (d := m.take cap) (s := t) (.inr (ht.cfg ▸ hlong))
    refine ⟨_, hpush _ _ _ hdrop rfl, ht.packets, ht.rs, ht.inv.withResp _, fun hnil => ?_⟩
    rw [hquiet' hnil]
    rfl
  · obtain ⟨t, ht, hquiet', hpush⟩ := h.rxUmp_decodes hgaps hm hcap
    have hpos := umpMessage_length_pos hm
    obtain ⟨k, u, hexec, hpushed⟩ := ht.inv.exec_cpbPush (d := m.take cap) (by rw [List.length_take]; omega) (ht.cfg ▸ hfit)
    refine ⟨k, t.packets, u, hpush _ _ _ hexec hpushed.resp, ht.packets, fun hnil => ?_, t.packets_length ▸ hpushed.le,
      hpushed.packets, hpushed.rs.trans ht.rs, hpushed.inv⟩
    rw [hquiet' hnil]
    rfl

end RxUmp

/-! ### The transport (R78) -/

/-- Settles O55: the operations by definition, and `init` as the two resets in turn. -/
theorem transportOperationsAreTheBlocks : Obligations.TransportOperationsAreTheBlocks := by
  refine fun s msg capacity => ⟨rfl, rfl, rfl, rfl, fun h => ?_⟩
  obtain ⟨⟨t, u, hinit, hreset, hu⟩, -⟩ :=
    initAndFramerResetMakeAnyStateGood s h.cfgWf h.idxLength h.idxFits h.arenaWf h.arenaIn
  have hfirst := issueAmong_of_issueAll (gaps := []) rfl hinit
  have hsecond := issueAmong_of_issueAll (gaps := []) rfl hreset
  exact ⟨u, by simp only [transportInit, hfirst, List.tail_nil, hsecond], hu⟩

end Sys2Proof.Machine

/-! PROOFS. `RX.BYTES` (spec/43_datapaths.md R79) with a consumer's operations between its own: one pass, the whole of it, and a
stream of messages alone. -/

namespace Sys2Proof.Machine

variable {s t u : State} {k l : Nat} {quiet : Prop} {ms ns : List (List Byte)} {gaps : List (List Instr)} {a : RxBytes}

/-! ### What is buffered (R79) -/

/-- What a run that pushes `ms`, with a consumer's operations among its own, and `k` packets evicted, leaves of a good state;
and, where the consumer is quiet, that no more is gone, and nothing is evicted where there is room for all of it. -/
structure Buffered (quiet : Prop) (s : State) (ms : List (List Byte)) (k : Nat) (t : State) : Prop where
  inv : t.Inv
  cfg : t.cfg = s.cfg
  packets : t.packets <:+ s.packets ++ ms
  count_le : t.packets.length + k ≤ s.packets.length + ms.length
  count_eq : quiet → t.packets.length + k = s.packets.length + ms.length
  none_evicted : quiet → (s.packets.map List.length).sum + (ms.map List.length).sum ≤ s.cfg.arenaCap →
    s.packets.length + ms.length ≤ s.cfg.pktMax → k = 0

/-- All of it is there where nothing is evicted and the consumer is quiet. -/
theorem Buffered.packets_eq (h : Buffered quiet s ms 0 t) (hquiet : quiet) : t.packets = s.packets ++ ms :=
  h.packets.eq_of_length (by rw [List.length_append]; exact h.count_eq hquiet)

theorem Buffered.trans (h : Buffered quiet s ms k t) (h' : Buffered quiet t ns l u) : Buffered quiet s (ms ++ ns) (k + l) u where
  inv := h'.inv
  cfg := h'.cfg.trans h.cfg
  packets := by
    obtain ⟨gone, hgone⟩ := h.packets
    rw [← List.append_assoc, ← hgone, List.append_assoc]
    exact h'.packets.trans (List.suffix_append _ _)
  count_le := by
    have := h.count_le
    have := h'.count_le
    rw [List.length_append]
    omega
  count_eq hquiet := by
    have := h.count_eq hquiet
    have := h'.count_eq hquiet
    rw [List.length_append]
    omega
  none_evicted hquiet hfit hslots := by
    rw [List.map_append, List.sum_append] at hfit
    rw [List.length_append] at hslots
    obtain rfl := h.none_evicted hquiet (by omega) (by omega)
    have hall := h.packets_eq hquiet
    obtain rfl := h'.none_evicted hquiet (by rw [hall, h.cfg, List.map_append, List.sum_append]; omega)
      (by rw [hall, h.cfg, List.length_append]; omega)
    rfl

theorem Buffered.of_quiet {quiet' : Prop} (h : Buffered quiet s ms k t) (hquiet : quiet' → quiet) : Buffered quiet' s ms k t :=
  ⟨h.inv, h.cfg, h.packets, h.count_le, fun hq => h.count_eq (hquiet hq), fun hq => h.none_evicted (hquiet hq)⟩

theorem Consumed.buffered (h : Consumed s t) (hquiet : quiet → t = s) : Buffered quiet s [] 0 t where
  inv := h.inv
  cfg := h.cfg
  packets := (List.append_nil s.packets).symm ▸ h.packets
  count_le := h.packets.length_le
  count_eq hq := by rw [hquiet hq]; rfl
  none_evicted _ _ _ := rfl

theorem Pushed.buffered {d : List Byte} (h : Pushed s d k t) : Buffered quiet s [d] k t where
  inv := h.inv
  cfg := h.cfg
  packets := by rw [h.packets]; exact ⟨s.packets.take k, by rw [← List.append_assoc, List.take_append_drop]⟩
  count_le := by
    have := h.le
    rw [← s.packets_length] at this
    rw [h.packets, List.length_append, List.length_drop]
    omega
  count_eq _ := by
    have := h.le
    rw [← s.packets_length] at this
    rw [h.packets, List.length_append, List.length_drop]
    omega
  none_evicted _ hfit hslots := by
    by_contra hk
    simp only [List.map_singleton, List.sum_singleton, List.length_singleton] at hfit hslots
    exact h.least 0 (by omega) ⟨by rw [Nat.sub_zero]; omega, hfit⟩

/-- A state that differs in `RS`, port or response alone. -/
theorem Buffered.of_packets_eq (hinv : t.Inv) (hcfg : t.cfg = s.cfg) (hpackets : t.packets = s.packets) :
    Buffered quiet s [] 0 t where
  inv := hinv
  cfg := hcfg
  packets := by rw [hpackets, List.append_nil]
  count_le := by rw [hpackets]; rfl
  count_eq _ := by rw [hpackets]; rfl
  none_evicted _ _ _ := rfl

/-! ### One pass of `RX.BYTES` (R79) -/

/-- The messages of a stream that the arena can hold. -/
def fittingMessages (cap : Nat) (items : List StreamItem) : List (List Byte) :=
  (streamMessages items).filter fun m => m.length ≤ cap

/-- What is counted after some items of a stream, with `k` packets evicted and `rest` left over. -/
def RxBytes.after (a : RxBytes) (cap : Nat) (items : List StreamItem) (k : Nat) (rest : List Byte) : RxBytes where
  pushed := a.pushed + (fittingMessages cap items).length
  errors := a.errors + items.countP fun i => i.message?.isNone
  evicted := a.evicted + k
  dropped := a.dropped + (streamMessages items).countP fun m => cap < m.length
  rest := rest

theorem streamMessages_cons (i : StreamItem) (items : List StreamItem) :
    streamMessages (i :: items) = streamMessages [i] ++ streamMessages items :=
  List.filterMap_append (l := [i])

theorem fittingMessages_cons (cap : Nat) (i : StreamItem) (items : List StreamItem) :
    fittingMessages cap (i :: items) = fittingMessages cap [i] ++ fittingMessages cap items := by
  rw [fittingMessages, streamMessages_cons, List.filter_append]
  rfl

theorem RxBytes.after_after (a : RxBytes) (cap : Nat) (i : StreamItem) (items : List StreamItem) (k l : Nat)
    (more rest : List Byte) :
    (a.after cap [i] k more).after cap items l rest = a.after cap (i :: items) (k + l) rest := by
  have herrors : (i :: items).countP (fun j => j.message?.isNone) =
      [i].countP (fun j => j.message?.isNone) + items.countP fun j => j.message?.isNone :=
    List.countP_append (l₁ := [i])
  simp only [RxBytes.after, fittingMessages_cons cap i items, streamMessages_cons i items, List.length_append, List.countP_append,
    herrors, Nat.add_assoc]

theorem rxBytesPass_ok {gaps' gaps'' : List (List Instr)} {consumed n : Nat} {m : List Byte}
    (hnext : issueAmong gaps (.frmNext (s.presentable a.rest)) s = .next (gaps', t))
    (hresp : t.resp = some (.frmNext .ok consumed n m)) (hpush : issueAmong gaps' (.cpbPush m) t = .next (gaps'', u)) :
    rxBytesPass gaps a s = .next (.again gaps'' { a.countPush u.resp with rest := a.rest.drop consumed } u) := by
  simp only [rxBytesPass, hnext, hresp, hpush]

theorem rxBytesPass_framingError {gaps' : List (List Instr)} {consumed n : Nat} {m : List Byte}
    (hnext : issueAmong gaps (.frmNext (s.presentable a.rest)) s = .next (gaps', t))
    (hresp : t.resp = some (.frmNext .framingError consumed n m)) :
    rxBytesPass gaps a s = .next (.again gaps' { a with errors := a.errors + 1, rest := a.rest.drop consumed } t) := by
  simp only [rxBytesPass, hnext, hresp]

theorem rxBytesPass_incomplete {gaps' : List (List Instr)} {consumed n : Nat} {m : List Byte}
    (hnext : issueAmong gaps (.frmNext (s.presentable a.rest)) s = .next (gaps', t))
    (hresp : t.resp = some (.frmNext .incomplete consumed n m)) :
    rxBytesPass gaps a s = .next (.done a t) := by
  simp only [rxBytesPass, hnext, hresp]

/-- The framing half of a pass: `FRM.NEXT` runs after the consumer, under the `RS` that the consumer left alone. -/
theorem State.Inv.rxBytes_frames (h : s.Inv) (hgaps : ∀ g ∈ gaps, ∀ i ∈ g, consumes i = true) (a : RxBytes) {f : Framed}
    (hframe : frameNext s.cfg.status s.rs (s.presentable a.rest) = f) :
    ∃ t, issueAmong gaps (.frmNext (s.presentable a.rest)) s = .next (gaps.tail, t) ∧
      t.resp = some (.frmNext f.status f.consumed f.msg.length f.msg) ∧ t.rs = f.rs ∧ Buffered (gaps = []) s [] 0 t := by
  obtain ⟨s1, hs1, hquiet, hissue⟩ := h.issueAmong_consumes hgaps
  have hlegal := frameNext_legal s.cfg.status (s.presentable a.rest) h.rsLegal
  rw [hframe] at hlegal
  have hexec := exec_frmNext (s.presentable a.rest) s1
  rw [hs1.cfg, hs1.rs, hframe] at hexec
  exact ⟨_, hissue _ _ hexec, rfl, rfl, (hs1.buffered hquiet).trans
    (.of_packets_eq ((hs1.inv.withRs hlegal).withResp _) rfl rfl)⟩

/-- The pushing half: the message is pushed behind what the consumer left, or dropped where the arena cannot hold it. -/
theorem State.Inv.rxBytes_pushes (h : s.Inv) (hgaps : ∀ g ∈ gaps, ∀ i ∈ g, consumes i = true) {m : List Byte} (hm : 0 < m.length) :
    ∃ k t, issueAmong gaps (.cpbPush m) s = .next (gaps.tail, t) ∧
      t.resp = some (.cpbPush k (decide (s.cfg.arenaCap < m.length))) ∧ t.rs = s.rs ∧
      Buffered (gaps = []) s ([m].filter fun m => m.length ≤ s.cfg.arenaCap) k t := by
  obtain ⟨s1, hs1, hquiet, hissue⟩ := h.issueAmong_consumes hgaps
  have hfirst := hs1.buffered hquiet
  by_cases hfit : m.length ≤ s.cfg.arenaCap
  · obtain ⟨k, t, hexec, hpushed⟩ := hs1.inv.exec_cpbPush hm (hs1.cfg ▸ hfit)
    have hbuffered := hfirst.trans hpushed.buffered
    rw [Nat.zero_add] at hbuffered
    refine ⟨k, t, hissue _ _ hexec, ?_, hpushed.rs.trans hs1.rs, ?_⟩
    · rw [hpushed.resp, decide_eq_false (by omega)]
    · rw [List.filter_singleton, decide_eq_true hfit]
      exact hbuffered
  · have hexec := exec_cpbPush_of_length_outside (d := m) (s := s1) (.inr (by rw [hs1.cfg]; omega))
    refine ⟨0, _, hissue _ _ hexec, ?_, hs1.rs, ?_⟩
    · rw [State.withResp_resp, decide_eq_true (by omega)]
    · rw [List.filter_singleton, decide_eq_false hfit]
      exact hfirst.trans (.of_packets_eq (hs1.inv.withResp _) rfl rfl)

/-- A pass over an item of the stream goes round again, with the item counted and its message pushed or dropped (R79). -/
theorem State.Inv.rxBytesPass_item (h : s.Inv) (hgaps : ∀ g ∈ gaps, ∀ i ∈ g, consumes i = true) {i : StreamItem}
    (hi : i.wf s.cfg s.rs = true) {more : List Byte} (ha : a.rest = i.bytes s.rs ++ more) :
    ∃ gaps' k t, rxBytesPass gaps a s = .next (.again gaps' (a.after s.cfg.arenaCap [i] k more) t) ∧
      (∀ g ∈ gaps', ∀ i ∈ g, consumes i = true) ∧ (gaps = [] → gaps' = []) ∧ t.rs = i.rsAfter s.rs ∧
      Buffered (gaps = []) s (fittingMessages s.cfg.arenaCap [i]) k t := by
  cases i with
  | message m leaveOut =>
    simp only [StreamItem.wf, Bool.and_eq_true, decide_eq_true_eq] at hi
    obtain ⟨hm, hlen⟩ := hi
    obtain ⟨hpos, hle⟩ := compress_singleton_length hm s.rs leaveOut
    have hframe := frameNext_message h.rsLegal hm leaveOut
      (more.take (2 ^ s.cfg.lenW - 1 - (compress s.rs [(m, leaveOut)]).length))
    rw [← s.presentable_append (by omega), show compress s.rs [(m, leaveOut)] ++ more = a.rest from ha.symm] at hframe
    obtain ⟨t, hnext, hresp, hrs, hfirst⟩ := h.rxBytes_frames hgaps a hframe
    obtain ⟨k, u, hpush, hresp', hrs', hsecond⟩ := hfirst.inv.rxBytes_pushes (consumes_tail hgaps) (m := m) (by omega)
    refine ⟨_, k, u, (rxBytesPass_ok hnext hresp hpush).trans ?_, consumes_tail (consumes_tail hgaps), ?_, hrs'.trans hrs, ?_⟩
    · rw [hresp', ha, StreamItem.bytes, List.drop_left' rfl, hfirst.cfg]
      by_cases hlong : s.cfg.arenaCap < m.length
      · have hnfit : ¬ m.length ≤ s.cfg.arenaCap := by omega
        simp [RxBytes.countPush, RxBytes.after, fittingMessages, streamMessages, StreamItem.message?, hlong, hnfit]
      · have hfit : m.length ≤ s.cfg.arenaCap := by omega
        simp [RxBytes.countPush, RxBytes.after, fittingMessages, streamMessages, StreamItem.message?, hlong, hfit]
    · rintro rfl
      rfl
    · have hboth := hfirst.trans (hsecond.of_quiet fun hnil : gaps = [] => by rw [hnil]; rfl)
      rwa [Nat.zero_add, List.nil_append, hfirst.cfg] at hboth
  | stray b =>
    simp only [StreamItem.wf, Bool.and_eq_true, isData_eq, decide_eq_true_eq, beq_iff_eq] at hi
    obtain ⟨hb, hzero⟩ := hi
    have hframe : frameNext s.cfg.status s.rs (s.presentable a.rest) = ⟨.framingError, 1, [], s.rs⟩ := by
      have hcap := h.capPos
      have hwidth := h.capLe
      rw [ha, StreamItem.bytes, s.presentable_append (by rw [List.length_singleton]; omega), hzero]
      exact frameNext_stray _ _ hb
    obtain ⟨t, hnext, hresp, hrs, hfirst⟩ := h.rxBytes_frames hgaps a hframe
    refine ⟨_, 0, t, (rxBytesPass_framingError hnext hresp).trans ?_, consumes_tail hgaps, ?_, hrs, hfirst⟩
    · rw [ha]
      rfl
    · rintro rfl
      rfl

/-- The pass over the unfinished tail is the last one: nothing is taken from it (R68, R79). -/
theorem State.Inv.rxBytesPass_tail (h : s.Inv) (hgaps : ∀ g ∈ gaps, ∀ i ∈ g, consumes i = true)
    (htail : UnfinishedTail s.cfg.status s.rs a.rest) :
    ∃ t, rxBytesPass gaps a s = .next (.done a t) ∧ t.rs = (frameNext s.cfg.status s.rs a.rest).rs ∧
      Buffered (gaps = []) s [] 0 t := by
  obtain ⟨t, hnext, hresp, hrs, hfirst⟩ := h.rxBytes_frames hgaps a
    (frameNext_unfinished h.rsLegal (htail.take (2 ^ s.cfg.lenW - 1)))
  refine ⟨t, rxBytesPass_incomplete hnext hresp, hrs.trans ?_, hfirst⟩
  have hcap := h.capPos
  have hwidth := h.capLe
  obtain ⟨n, hn⟩ : ∃ n, 2 ^ s.cfg.lenW - 1 = n + 1 := ⟨2 ^ s.cfg.lenW - 2, by omega⟩
  rw [State.presentable, hn]
  rcases a.rest with _ | ⟨b, t⟩
  · rfl
  · rw [List.take_succ_cons, frameNext_rs, frameNext_rs]

/-! ### The whole of `RX.BYTES` (R79) -/

theorem StreamItem.bytes_length_pos {c : Config} {rs : Byte} {i : StreamItem} (hi : i.wf c rs = true) :
    0 < (i.bytes rs).length := by
  cases i with
  | message m leaveOut => exact (compress_singleton_length (Bool.and_eq_true_iff.1 hi).1 rs leaveOut).1
  | stray b => exact Nat.one_pos

/-- The passes take the items one by one, and end with the tail. -/
theorem State.Inv.rxBytesLoop_stream (items : List StreamItem) {tail : List Byte} {n : Nat} (h : s.Inv)
    (hgaps : ∀ g ∈ gaps, ∀ i ∈ g, consumes i = true) (hitems : streamWf s.cfg s.rs items = true)
    (htail : UnfinishedTail s.cfg.status (streamRs s.rs items) tail) (ha : a.rest = streamBytes s.rs items ++ tail)
    (hn : a.rest.length < n) :
    ∃ k t, rxBytesLoop n gaps a s = .next (a.after s.cfg.arenaCap items k tail, t) ∧
      t.rs = (frameNext s.cfg.status (streamRs s.rs items) tail).rs ∧
      Buffered (gaps = []) s (fittingMessages s.cfg.arenaCap items) k t := by
  obtain ⟨n, rfl⟩ : ∃ l, n = l + 1 := ⟨n - 1, by omega⟩
  induction items generalizing s gaps a n with
  | nil =>
    obtain rfl : a.rest = tail := ha
    obtain ⟨t, hpass, hrs, hbuffered⟩ := h.rxBytesPass_tail hgaps htail
    exact ⟨0, t, by simp only [rxBytesLoop, hpass]; rfl, hrs, hbuffered⟩
  | cons i items ih =>
    rw [streamBytes, List.append_assoc] at ha
    rw [streamWf, Bool.and_eq_true] at hitems
    obtain ⟨hi, hitems⟩ := hitems
    have hpos := StreamItem.bytes_length_pos hi
    obtain ⟨gaps', k, t, hpass, hgaps', hnil, hrs, hfirst⟩ := h.rxBytesPass_item hgaps hi ha
    rw [ha, List.length_append] at hn
    obtain ⟨n, rfl⟩ : ∃ l, n = l + 1 := ⟨n - 1, by omega⟩
    obtain ⟨l, u, hloop, hrs', hrest⟩ := ih (a := a.after s.cfg.arenaCap [i] k (streamBytes (i.rsAfter s.rs) items ++ tail))
      hfirst.inv hgaps' (by rwa [hfirst.cfg, hrs]) (by rw [hfirst.cfg, hrs]; exact htail) (by rw [hrs]; rfl) n (by
        simp only [RxBytes.after]; omega)
    rw [hfirst.cfg, RxBytes.after_after] at hloop
    rw [hfirst.cfg, hrs] at hrs'
    refine ⟨k + l, u, by simp only [rxBytesLoop, hpass]; exact hloop, hrs', ?_⟩
    rw [fittingMessages_cons]
    rw [hfirst.cfg] at hrest
    exact hfirst.trans (hrest.of_quiet hnil)

/-- Settles O56: the passes from nothing counted. -/
theorem rxBytesAmongAConsumersOperations : Obligations.RxBytesAmongAConsumersOperations := by
  intro gaps s items tail h hgaps hitems htail
  obtain ⟨k, t, hloop, hrs, hbuffered⟩ := h.rxBytesLoop_stream (a := ⟨0, 0, 0, 0, streamBytes s.rs items ++ tail⟩) items hgaps
    hitems htail rfl (Nat.lt_succ_self _)
  refine ⟨k, t, hloop.trans ?_, hbuffered.inv, ?_, hbuffered.packets, hbuffered.count_le, hbuffered.count_eq⟩
  · simp only [RxBytes.after, Nat.zero_add]
    rfl
  · rw [hrs]
    rcases tail with _ | ⟨b, t⟩
    · rfl
    · exact frameNext_rs _ _ _ _

/-! ### A stream of messages alone (R69, R79) -/

/-- The items of a stream that holds messages alone. -/
def messageItems (ms : List (List Byte × Bool)) : List StreamItem := ms.map fun m => .message m.1 m.2

theorem streamMessages_messageItems (ms : List (List Byte × Bool)) : streamMessages (messageItems ms) = ms.map Prod.fst := by
  induction ms with
  | nil => rfl
  | cons m ms ih =>
    rw [messageItems, List.map_cons, streamMessages_cons, ← messageItems, ih]
    rfl

theorem streamBytes_messageItems {v : StatusTable} (ms : List (List Byte × Bool)) (hms : ∀ m ∈ ms, wellFormedMessage v m.1 = true)
    (rs : Byte) : streamBytes rs (messageItems ms) = compress rs ms := by
  induction ms generalizing rs with
  | nil => rfl
  | cons m ms ih =>
    obtain ⟨hm, hms⟩ := List.forall_mem_cons.1 hms
    rw [compress_cons rs m.1 m.2 ms (ne_nil_of_wellFormedMessage hm), ← ih hms]
    rfl

theorem streamWf_messageItems {c : Config} (ms : List (List Byte × Bool))
    (hms : ∀ m ∈ ms, wellFormedMessage c.status m.1 = true ∧ m.1.length < 2 ^ c.lenW) (rs : Byte) :
    streamWf c rs (messageItems ms) = true := by
  induction ms generalizing rs with
  | nil => rfl
  | cons m ms ih =>
    obtain ⟨hm, hms⟩ := List.forall_mem_cons.1 hms
    have hi : (StreamItem.message m.1 m.2).wf c rs = true := Bool.and_eq_true_iff.2 ⟨hm.1, decide_eq_true hm.2⟩
    exact Bool.and_eq_true_iff.2 ⟨hi, ih hms _⟩

/-- Nothing is left of a stream that stops after a message: a realtime byte could follow. -/
theorem unfinishedTail_nil {v : StatusTable} (hv : v.wf = true) (rs : Byte) : UnfinishedTail v rs [] := by
  obtain ⟨hq, hp, hs⟩ := Laws.DecodeEncode.ne_status hv (b := 0xFF) rfl
  have hlen := msgLen_systemOther (by decide) hq hp hs
  have hwf : wellFormedMessage v [0xFF] = true := by
    rw [wellFormedMessage, if_neg (by decide), hlen]
    rfl
  exact ⟨[0xFF], false, [0xFF], hwf, by decide, rfl⟩

/-- Settles O53: the arena can hold every message, and none is evicted, since there is room for all of them. -/
theorem rxBytesBuffersEveryMessage : Obligations.RxBytesBuffersEveryMessage := by
  intro s ms h hnil hms hfit hslots
  have hcap := h.capLe
  have hpos := h.capPos
  have hsum : (ms.map fun m => m.1.length).sum = ((ms.map Prod.fst).map List.length).sum := by rw [List.map_map]; rfl
  have hle : ∀ m ∈ ms.map Prod.fst, m.length ≤ s.cfg.arenaCap := fun m hm =>
    (List.le_sum_of_mem (List.mem_map_of_mem hm)).trans (hsum ▸ hfit)
  have hwf : ∀ m ∈ ms, wellFormedMessage s.cfg.status m.1 = true ∧ m.1.length < 2 ^ s.cfg.lenW := fun m hm => by
    have := hle m.1 (List.mem_map_of_mem hm)
    exact ⟨hms m hm, by omega⟩
  have hall : fittingMessages s.cfg.arenaCap (messageItems ms) = ms.map Prod.fst := by
    rw [fittingMessages, streamMessages_messageItems, List.filter_eq_self]
    exact fun m hm => decide_eq_true (hle m hm)
  have herrors : (messageItems ms).countP (fun i => i.message?.isNone) = 0 := by
    simp [messageItems, List.countP_eq_zero, StreamItem.message?]
  have hdropped : (streamMessages (messageItems ms)).countP (fun m => s.cfg.arenaCap < m.length) = 0 := by
    rw [streamMessages_messageItems, List.countP_eq_zero]
    intro m hm
    simpa using hle m hm
  obtain ⟨k, t, hloop, -, hbuffered⟩ := h.rxBytesLoop_stream (gaps := []) (a := ⟨0, 0, 0, 0, compress s.rs ms⟩) (messageItems ms)
    (fun _ hg => nomatch hg) (streamWf_messageItems ms hwf s.rs) (unfinishedTail_nil h.statusWf _)
    (by rw [streamBytes_messageItems ms hms, List.append_nil]) (Nat.lt_succ_self _)
  rw [hall] at hbuffered
  obtain rfl := hbuffered.none_evicted rfl (by rw [hnil, ← hsum]; simpa using hfit) (by rw [hnil]; simpa using hslots)
  refine ⟨t, hloop.trans ?_, ?_, hbuffered.inv⟩
  · simp only [RxBytes.after, hall, herrors, hdropped, List.length_map, Nat.zero_add]
  · rw [hbuffered.packets_eq rfl, hnil, List.nil_append]

end Sys2Proof.Machine
